-- ==== Sys2Proof/Word.lean ====
section
/-! DEFINITION. The word types of the block: what spec/00_scope.md rules R10 and R11 call a byte,
a 16-bit operand and a 32-bit count of microseconds. -/

namespace Sys2Proof

/-- A byte, 8 bits; bit 0 is the least significant (R11). -/
abbrev Byte := BitVec 8

/-- A 16-bit operand: an address, an index or a byte count (R91). -/
abbrev Half := BitVec 16

/-- A 32-bit count of microseconds (R10, R91 `t32`). -/
abbrev Micros := BitVec 32

/-- The three bits of the family select input `fam` (R37). -/
abbrev FamSel := BitVec 3

end Sys2Proof
end

