-- ==== Sys2Proof/Config.lean ====
section
/-! DEFINITION. The parameters of the block (spec/00_scope.md rules R8 to R10) and the free values.
A parameter for which the spec states a default has that default; a parameter that the spec leaves
OPEN, and a value that it leaves unspecified, is an opaque constant, so that no proof can see it. -/

namespace Sys2Proof

/-- Host timing table of one speed, R170: entries A to J in microseconds, 16 bits wide as the
`h_timer` they are loaded into (R35). -/
structure HostTiming where
  a : BitVec 16
  b : BitVec 16
  c : BitVec 16
  d : BitVec 16
  e : BitVec 16
  f : BitVec 16
  g : BitVec 16
  h : BitVec 16
  i : BitVec 16
  j : BitVec 16
deriving DecidableEq, Repr, Inhabited

/-- Slave timing table of one speed, R205, in microseconds. -/
structure SlaveTiming where
  rstlMin : BitVec 16
  rstlMax : BitVec 16
  pdh : BitVec 16
  pdl : BitVec 16
  slotMax : BitVec 16
  w1lMax : BitVec 16
  hold0 : BitVec 16
  waitMax : BitVec 16
deriving DecidableEq, Repr, Inhabited

/-- A byte that the DS1971 write-copy may send on its way to the comparison: any but the finalization
byte, which R272 (c) forbids there. The payload `MEM[0..31]` is not of this type. -/
abbrev HeadByte := { v : Byte // v ≠ 0xA5 }

/-- One move of the open DS1971 write-copy frame after the comparison (R272, parameter
`DS1971_COPY_FRAME`). -/
inductive CopyMove where
  /-- A bus reset; no presence ends the sequence with `ok` = 0 (R260). -/
  | reset
  /-- The block writes this byte. -/
  | write (v : Byte)
  /-- The block reads one byte and keeps it. -/
  | read
  /-- The block writes back the kept byte of this position. -/
  | echo (i : Nat)
  /-- The block reads one byte; it must equal `value` under `mask` (a verification, R272 e). -/
  | verify (mask value : Byte)
  /-- The block waits. -/
  | delay (us : Nat)
deriving DecidableEq, Repr

/-- One move of the frame between the scratchpad write and the read-back (R272 b, c): as a `CopyMove`,
but it sends no finalization byte. -/
inductive HeadMove where
  | reset
  | write (v : HeadByte)
  | read
  | verify (mask value : Byte)
  | delay (us : Nat)
deriving DecidableEq, Repr

/-- The same move among those of the copy step. -/
def HeadMove.toCopy : HeadMove → CopyMove
  | .reset => .reset
  | .write v => .write v.val
  | .read => .read
  | .verify mask value => .verify mask value
  | .delay us => .delay us

/-- The open parts of the DS1971 write-copy sequence (R272, log entry 17). The first reset is followed
by the ROM-level command (its bytes, and how many bytes the block then reads) and by nothing else
before the scratchpad write (R272 a). -/
structure CopyFrame where
  /-- The ROM-level command. -/
  romCommand : List HeadByte
  /-- How many bytes are read after it, as after READ_ROM; they are not looked at. -/
  romReads : Nat
  /-- What the scratchpad write sends in front of the payload. -/
  writeHead : List HeadByte
  /-- What leads to the 32 bytes of the read-back. -/
  readBackHead : List HeadMove
  /-- The copy step before the byte 0xA5. -/
  copyHead : List CopyMove
  /-- What follows the 250 us. -/
  finalCheck : List CopyMove
deriving DecidableEq, Repr, Inhabited

/-- `CMD_SEARCH_ROM` (R8, derived from the source): 0xF0. -/
def Config.cmdSearchRom : Byte := 0xF0

/-- The source's READ_ROM command byte (R8, R96): 0x33. -/
def Config.cmdReadRom : Byte := 0x33

/-- The default of `CMD_SKIP_ROM` (R8): 0xCC. -/
def Config.cmdSkipRom : Byte := 0xCC

/-- The default of `CMD_OVERDRIVE_SKIP_ROM` (R8): 0x3C. -/
def Config.cmdOverdriveSkipRom : Byte := 0x3C

/-- The two OPEN command byte parameters (R8, D9), which the decoder, the encoder and the machine take as
an argument with these defaults: any two bytes that are distinct from each other and from the two
other bytes of the dispatcher. Log entry 12. -/
structure CommandBytes where
  /-- `CMD_SKIP_ROM`. -/
  skipRom : Byte := Config.cmdSkipRom
  /-- `CMD_OVERDRIVE_SKIP_ROM`. -/
  overdriveSkipRom : Byte := Config.cmdOverdriveSkipRom
  /-- The four values are pairwise distinct (R8). -/
  distinct : [Config.cmdSearchRom, Config.cmdReadRom, skipRom, overdriveSkipRom].Nodup := by decide
deriving DecidableEq, Repr

/-- `T_RW_BIT` (R300), the source's value. Log entry 13. -/
def Config.tRwBit : Nat := 5000
/-- `T_RW_BYTE` (R300). -/
def Config.tRwByte : Nat := 30000
/-- `T_RW_LOCK` (R300). -/
def Config.tRwLock : Nat := 10000
/-- `T_TM_PULSE` (R300). -/
def Config.tTmPulse : Nat := 600
/-- `T_TM_BYTE` (R300). -/
def Config.tTmByte : Nat := 50000
/-- The settle delay of the DS1971 write-copy (R272 d). -/
def Config.tDs1971Settle : Nat := 250

/-- `T_RW_SHORT` (R300): OPEN, "short delay" without a number in the source. Log entry 14. -/
opaque Config.tRwShort : Nat

/-- `T_HOST[speed]` (R170): OPEN; `true` selects the overdrive table. Log entry 14. -/
opaque Config.tHost : Bool → HostTiming

/-- `T_SLAVE[speed]` (R205): OPEN; `true` selects the overdrive table. Log entry 14. -/
opaque Config.tSlave : Bool → SlaveTiming

/-- `F_CLK` (R10): OPEN; no rule uses it. Log entry 14. -/
opaque Config.fClk : Nat

/-- `DS1971_COPY_FRAME` (R272, D31): OPEN. Log entry 17. -/
opaque Config.ds1971CopyFrame : CopyFrame

/-- `SHORT_RESET_ACCEPTED` (R221, R223, D19): the spec's default false. Log entry 15. -/
def Config.shortResetAccepted : Bool := false

/-- `DS1992_WRITE_ID_ENABLED` (R305, D30): the spec's default false. Log entry 16. -/
def Config.ds1992WriteIdEnabled : Bool := false

/-- The size of the physical MEM array (R24). -/
def Config.memArraySize : Nat := 8192

/-- Free value: what `ROM[i]` holds after the `n`-th hardware reset of a run (R41, R42: unspecified
but stable). Log entry 7. -/
opaque Config.romAfterReset (n i : Nat) : Byte

/-- Free value: what `AREGS[i]` holds after the `n`-th hardware reset of a run (R41). Log entry 7. -/
opaque Config.aregsAfterReset (n i : Nat) : Byte

/-- Free value: what a byte of MEM that nothing has written since the `n`-th hardware reset of a run
reads as (R41: unspecified but stable). Log entry 7. -/
opaque Config.memAfterReset (n addr : Nat) : Byte

end Sys2Proof
end

