-- ==== Sys2Proof/Syntax.lean ====
section
/-! DEFINITION. The instructions of the block: one constructor of `Instr` for each row of
spec/opcode_table.json (spec/30_encoding.md R90: port operations, format PORT, and bus command bytes,
format BUS), the encoded forms they are decoded from, and the writing conveniences of R105. -/

namespace Sys2Proof

/-- The six families (R7). -/
inductive Family where
  | generic | ds1990 | ds1971 | ds1992 | ds1996 | ds1420
deriving DecidableEq, Repr

/-- The command state of the dispatcher (R25). -/
inductive CmdState where
  | idle | romCommandAccepted | memoryCommandAccepted
deriving DecidableEq, Repr

/-- The instructions: port operations (R92), the bus commands the dispatcher receives in slave role
(R96), and the bus commands the block sends in host role (R97). -/
inductive Instr where
  -- CRC unit and storage, spec/40_crc.md
  | nop
  | crcClr
  | crcBit (d : Bool)
  | crcByte (d : Byte)
  | crcBuf (din : List Byte)
  | crcGet
  | romWr (a : Half) (d : Byte)
  | romRd (a : Half)
  | romValid
  | romApply (d : Byte)
  | memWr (a : Half) (d : Byte)
  | memRd (a : Half)
  | aregsWr (a : Half) (d : Byte)
  | aregsRd (a : Half)
  -- host framer, spec/41_framer_host.md
  | owReset
  | owWbit (d : Bool)
  | owRbit
  | owWbyte (d : Byte)
  | owRbyte
  | owWbytes (din : List Byte)
  | owRbytes (len : Half)
  | owSetod (d : Bool)
  | owDelay (t : Micros)
  -- emulate session, spec/42_framer_slave.md
  | emuStart
  | emuStop
  -- sequencer, spec/44_host_sequences.md
  | seqSkipRom
  | seqReadRom
  | seqWriteScratch (a : Half) (din : List Byte)
  | seqReadScratch (len : Half)
  | seqCopyScratch (t : Micros)
  | seqReadMem (a len : Half)
  | seqWriteMem (t : Micros) (pg : Half) (din : List Byte)
  | famRead
  | famReadDs1996
  | famWriteCopyDs1992 (t : Micros)
  | famWriteCopyDs1996 (t : Micros)
  | famWriteCopyDs1971 (t : Micros)
  | famWriteCopyAbsent (t : Micros)
  -- blank writers, spec/45_blank_writers.md
  | famWriteId
  | bwRw1990V1 (din : List Byte)
  | bwRw1990V2 (din : List Byte)
  | bwTm2004 (din : List Byte)
  -- every reserved operation select, R93
  | reservedOpsel (op : Byte)
  -- commands received by the dispatcher, spec/43_emulation_dispatcher.md
  | searchRom
  | readMem
  | searchRomRefused
  | readRom
  | readRomRefused
  | skipRom
  | overdriveSkipRom
  | unrecognisedStateful (c : Byte)
  | searchRomStateless
  | readRomStateless
  | anyOtherStateless (c : Byte)
  -- commands sent by the sequencer, R97
  | hostReadRom
  | hostWriteScratch (a : Half) (data : List Byte)
  | hostReadScratch (len : Half)
  | hostCopyScratch (t : Micros)
  | hostReadMem (a len : Half)
  | hostSkipRom
  | hostOverdriveSkipRom
  | hostDs1971Finalization
  | hostRw1990V1UnlockLock (bit : Bool)
  | hostRw1990WriteCommand (data : List Byte)
  | hostRw1990V2UnlockLock (bit : Bool)
  | hostRw1990V2Unused
  | hostTm2004Write (data : List Byte)
deriving DecidableEq, Repr

/-- One operation as it is presented on the command port (R91): the operation select and every
operand port; an operation ignores the ports its rule does not name. -/
structure PortWord where
  opsel : Byte
  d8 : Byte := 0
  a16 : Half := 0
  len : Half := 0
  t32 : Micros := 0
  pg : Half := 0
  din : List Byte := []
deriving DecidableEq, Repr

/-- What sends a command byte of R97. One value may stand for two commands: 0x3C does (R98), and the two
parameters of R8 may have the value of any constant of R97 but 0xF0 and 0x33. -/
inductive CommandGroup where
  /-- The Dallas-common frames and the DS1971 finalization. -/
  | frame
  /-- Skip-ROM and overdrive-skip-ROM, the two parameters. -/
  | select
  /-- The blank writers. -/
  | blankWriter
deriving DecidableEq, Repr

/-- One sub-step of the sequencer: the command byte it sends (R97), what sends it, and the operands of the
frame that follows it (R100). -/
structure HostFrame where
  cmd : Byte
  group : CommandGroup := .frame
  a16 : Half := 0
  len : Half := 0
  t32 : Micros := 0
  bit : Bool := false
  data : List Byte := []
deriving DecidableEq, Repr

/-- An encoded instruction (R90): a port operation with the family select in force (R37), a command
byte received in slave role with the session's family and command state (R98), or a command that
the sequencer sends. -/
inductive Code where
  | port (fam : FamSel) (w : PortWord)
  | bus (fam : FamSel) (st : CmdState) (c : Byte)
  | host (f : HostFrame)
deriving DecidableEq, Repr

/-- The pseudo-operations of R105, writing conveniences for lists of port operations. -/
inductive Pseudo where
  | romLoad (bytes : List Byte)
  | memLoad (a : Half) (bytes : List Byte)
  | romDump
deriving DecidableEq, Repr

end Sys2Proof
end

