-- ==== Sys2Proof/WellFormed.lean ====
section
/-! DEFINITION. Which instructions have an encoding: a payload is counted by the 16-bit `len` port
(R91), a reserved select is one that R92 does not list (R93), and an unrecognised byte is one that
the dispatcher of its class does not decode (R96, R99). -/

namespace Sys2Proof

/-- Why an instruction has no encoding. -/
inductive IllFormed where
  /-- A payload of 65536 bytes or more does not fit the `len` port (R91). -/
  | payloadTooLong
  /-- The operation select is assigned in R92, so it is not reserved (R93). -/
  | selectAssigned
  /-- The dispatcher recognises the byte (R96), so it is not "any other byte". -/
  | byteRecognised
deriving DecidableEq, Repr

/-- The operation selects of R92. -/
def assignedSelects : List Byte :=
  [0x00, 0x01, 0x02, 0x03, 0x04, 0x05, 0x08, 0x09, 0x0A, 0x0B, 0x0C, 0x0D, 0x0E, 0x0F] ++
  [0x10, 0x11, 0x12, 0x13, 0x14, 0x15, 0x16, 0x17, 0x18, 0x20, 0x21] ++
  [0x30, 0x31, 0x32, 0x33, 0x34, 0x35, 0x36, 0x38, 0x39, 0x3A, 0x3C, 0x3D, 0x3E]

/-- The check of a payload: its length fits `len` (R91). -/
def checkPayload (din : List Byte) : Option IllFormed :=
  if din.length < 65536 then none else some .payloadTooLong

/-- The bytes that every stateful dispatcher recognises (R96, R99); DS1996 recognises one more. -/
def statefulBytes (p : CommandBytes := {}) : List Byte :=
  [Config.cmdSearchRom, Config.cmdReadRom, p.skipRom]

/-- The bytes that a stateless dispatcher recognises (R99). -/
def statelessBytes : List Byte := [Config.cmdSearchRom, Config.cmdReadRom]

/-- What is wrong with an instruction, `none` when it has an encoding under these command bytes. -/
def Instr.check (i : Instr) (p : CommandBytes := {}) : Option IllFormed :=
  match i with
  | .crcBuf din | .owWbytes din | .seqWriteScratch _ din | .seqWriteMem _ _ din => checkPayload din
  | .bwRw1990V1 din | .bwRw1990V2 din | .bwTm2004 din => checkPayload din
  | .reservedOpsel op => if op ∈ assignedSelects then some .selectAssigned else none
  | .unrecognisedStateful c => if c ∈ statefulBytes p then some .byteRecognised else none
  | .anyOtherStateless c => if c ∈ statelessBytes then some .byteRecognised else none
  | .nop | .crcClr | .crcBit _ | .crcByte _ | .crcGet => none
  | .romWr _ _ | .romRd _ | .romValid | .romApply _ => none
  | .memWr _ _ | .memRd _ | .aregsWr _ _ | .aregsRd _ => none
  | .owReset | .owWbit _ | .owRbit | .owWbyte _ | .owRbyte | .owRbytes _ | .owSetod _ => none
  | .owDelay _ | .emuStart | .emuStop => none
  | .seqSkipRom | .seqReadRom | .seqReadScratch _ | .seqCopyScratch _ | .seqReadMem _ _ => none
  | .famRead | .famReadDs1996 | .famWriteCopyDs1992 _ | .famWriteCopyDs1996 _ => none
  | .famWriteCopyDs1971 _ | .famWriteCopyAbsent _ | .famWriteId => none
  | .searchRom | .readMem | .searchRomRefused | .readRom | .readRomRefused | .skipRom => none
  | .overdriveSkipRom | .searchRomStateless | .readRomStateless => none
  | .hostReadRom | .hostWriteScratch _ _ | .hostReadScratch _ | .hostCopyScratch _ => none
  | .hostReadMem _ _ | .hostSkipRom | .hostOverdriveSkipRom | .hostDs1971Finalization => none
  | .hostRw1990V1UnlockLock _ | .hostRw1990WriteCommand _ | .hostRw1990V2UnlockLock _ => none
  | .hostRw1990V2Unused | .hostTm2004Write _ => none

/-- An instruction that has an encoding under these command bytes. -/
abbrev Instr.WellFormed (i : Instr) (p : CommandBytes := {}) : Prop := i.check p = none

end Sys2Proof
end

