-- ==== Sys2Proof/Decode.lean ====
section
/-! DEFINITION. Decoding and encoding (spec/30_encoding.md). Three things are decoded: a word on the
command port (R91 to R94), a command byte received in slave role (R96, R224), and a command byte of
the running host sequence (R97). Decoding is total; the two things that are no instruction are
rejected by name. The encoder follows the decoder. -/

namespace Sys2Proof

/-- The family of a select value (R7); 6 and 7 select none (R37). -/
def familyOf (sel : FamSel) : Option Family :=
  match sel.toNat with
  | 0 => some .generic
  | 1 => some .ds1990
  | 2 => some .ds1971
  | 3 => some .ds1992
  | 4 => some .ds1996
  | 5 => some .ds1420
  | _ => none

/-- The select value of a family (R7). -/
def selOf : Family → FamSel
  | .generic => 0
  | .ds1990 => 1
  | .ds1971 => 2
  | .ds1992 => 3
  | .ds1996 => 4
  | .ds1420 => 5

/-- `HAS_STATE` (R7): the families that track the command state. -/
def hasState : Family → Bool
  | .ds1971 | .ds1992 | .ds1996 => true
  | .generic | .ds1990 | .ds1420 => false

/-- Why a code is no instruction. -/
inductive DecodeError where
  /-- The port's `din` is not `len` bytes long (R91): no such transfer ends. -/
  | payloadLength
  /-- The byte is none that the sequencer sends (R97). -/
  | notSent
deriving DecidableEq, Repr

/-- The payload of a port operation: `din`, which is `len` bytes long (R91). -/
def withPayload (w : PortWord) (mk : List Byte → Instr) : Except DecodeError Instr :=
  if w.din.length = w.len.toNat then .ok (mk w.din) else .error .payloadLength

/-- `FAM.READ` has a rule of its own for DS1996 (R268, R269). -/
def selectRead (fam : FamSel) : Instr :=
  if familyOf fam = some .ds1996 then .famReadDs1996 else .famRead

/-- `FAM.WRITE_COPY` by family (R270 to R273). -/
def selectWriteCopy (fam : FamSel) (t : Micros) : Instr :=
  match familyOf fam with
  | some .ds1992 => .famWriteCopyDs1992 t
  | some .ds1996 => .famWriteCopyDs1996 t
  | some .ds1971 => .famWriteCopyDs1971 t
  | _ => .famWriteCopyAbsent t

/-- A word on the command port (R92 to R94): all eight bits of `opsel` are decoded, a Boolean operand
is `d8[0]`, an index or address is the whole of `a16`. -/
def decodePort (fam : FamSel) (w : PortWord) : Except DecodeError Instr :=
  match w.opsel.toNat with
  | 0x00 => .ok .nop
  | 0x01 => .ok .crcClr
  | 0x02 => .ok (.crcBit (w.d8.getLsbD 0))
  | 0x03 => .ok (.crcByte w.d8)
  | 0x04 => withPayload w .crcBuf
  | 0x05 => .ok .crcGet
  | 0x08 => .ok (.romWr w.a16 w.d8)
  | 0x09 => .ok (.romRd w.a16)
  | 0x0A => .ok .romValid
  | 0x0B => .ok (.romApply w.d8)
  | 0x0C => .ok (.memWr w.a16 w.d8)
  | 0x0D => .ok (.memRd w.a16)
  | 0x0E => .ok (.aregsWr w.a16 w.d8)
  | 0x0F => .ok (.aregsRd w.a16)
  | 0x10 => .ok .owReset
  | 0x11 => .ok (.owWbit (w.d8.getLsbD 0))
  | 0x12 => .ok .owRbit
  | 0x13 => .ok (.owWbyte w.d8)
  | 0x14 => .ok .owRbyte
  | 0x15 => withPayload w .owWbytes
  | 0x16 => .ok (.owRbytes w.len)
  | 0x17 => .ok (.owSetod (w.d8.getLsbD 0))
  | 0x18 => .ok (.owDelay w.t32)
  | 0x20 => .ok .emuStart
  | 0x21 => .ok .emuStop
  | 0x30 => .ok .seqSkipRom
  | 0x31 => .ok .seqReadRom
  | 0x32 => withPayload w (.seqWriteScratch w.a16)
  | 0x33 => .ok (.seqReadScratch w.len)
  | 0x34 => .ok (.seqCopyScratch w.t32)
  | 0x35 => .ok (.seqReadMem w.a16 w.len)
  | 0x36 => withPayload w (.seqWriteMem w.t32 w.pg)
  | 0x38 => .ok (selectRead fam)
  | 0x39 => .ok (selectWriteCopy fam w.t32)
  | 0x3A => .ok .famWriteId
  | 0x3C => withPayload w .bwRw1990V1
  | 0x3D => withPayload w .bwRw1990V2
  | 0x3E => withPayload w .bwTm2004
  | _ => .ok (.reservedOpsel w.opsel)

/-- The command rule a stateful family applies (R224 to R229). -/
def decodeStateful (f : Family) (st : CmdState) (c : Byte) (p : CommandBytes := {}) : Instr :=
  if c = Config.cmdSearchRom then
    match st with
    | .idle => .searchRom
    | .romCommandAccepted => .readMem
    | .memoryCommandAccepted => .searchRomRefused
  else if c = Config.cmdReadRom then
    if st = .idle then .readRom else .readRomRefused
  else if c = p.skipRom then .skipRom
  else if c = p.overdriveSkipRom ∧ f = .ds1996 then .overdriveSkipRom
  else .unrecognisedStateful c

/-- The command rule a stateless family applies (R224, R230 to R232). -/
def decodeStateless (c : Byte) : Instr :=
  if c = Config.cmdSearchRom then .searchRomStateless
  else if c = Config.cmdReadRom then .readRomStateless
  else .anyOtherStateless c

/-- A command byte received in slave role (R224). No session runs with a reserved `fam` (R200); such
a byte would be answered by nothing (log entry 30). -/
def decodeBus (fam : FamSel) (st : CmdState) (c : Byte) (p : CommandBytes := {}) : Instr :=
  match familyOf fam with
  | some f => if hasState f then decodeStateful f st c p else decodeStateless c
  | none => .anyOtherStateless c

/-- A command byte of the running host sequence with the operands of its frame (R97, R100). -/
def decodeHost (f : HostFrame) (p : CommandBytes := {}) : Except DecodeError Instr :=
  match f.group with
  | .frame =>
    if f.cmd = Config.cmdReadRom then .ok .hostReadRom
    else if f.cmd = 0x0F then .ok (.hostWriteScratch f.a16 f.data)
    else if f.cmd = 0xAA then .ok (.hostReadScratch f.len)
    else if f.cmd = 0x55 then .ok (.hostCopyScratch f.t32)
    else if f.cmd = 0xF0 then .ok (.hostReadMem f.a16 f.len)
    else if f.cmd = 0xA5 then .ok .hostDs1971Finalization
    else .error .notSent
  | .select =>
    if f.cmd = p.skipRom then .ok .hostSkipRom
    else if f.cmd = p.overdriveSkipRom then .ok .hostOverdriveSkipRom
    else .error .notSent
  | .blankWriter =>
    if f.cmd = 0xD1 then .ok (.hostRw1990V1UnlockLock f.bit)
    else if f.cmd = 0xD5 then .ok (.hostRw1990WriteCommand f.data)
    else if f.cmd = 0x1D then .ok (.hostRw1990V2UnlockLock f.bit)
    else if f.cmd = 0x1E then .ok .hostRw1990V2Unused
    else if f.cmd = 0x3C then .ok (.hostTm2004Write f.data)
    else .error .notSent

/-- The decoder, under the command bytes `p` (R8). -/
def decode (c : Code) (p : CommandBytes := {}) : Except DecodeError Instr :=
  match c with
  | .port fam w => decodePort fam w
  | .bus fam st c => .ok (decodeBus fam st c p)
  | .host f => decodeHost f p

/-- A Boolean operand on `d8` (R94). -/
def boolOperand (b : Bool) : Byte := if b then 1 else 0

/-- A port operation with the select `op` and no operand. -/
def portCode (w : PortWord) : Code := .port (selOf .generic) w

/-- A port operation with a payload: `len` is its length (R91). -/
def payloadCode (w : PortWord) (din : List Byte) : Code :=
  .port (selOf .generic) { w with len := BitVec.ofNat 16 din.length, din := din }

/-- The encoder: the code of an instruction, from R92, R96 and R97, under the command bytes `p` (R8). A row
that a family selects is encoded with one family that selects it. -/
def encode (i : Instr) (p : CommandBytes := {}) : Code :=
  match i with
  | .nop => portCode { opsel := 0x00 }
  | .crcClr => portCode { opsel := 0x01 }
  | .crcBit d => portCode { opsel := 0x02, d8 := boolOperand d }
  | .crcByte d => portCode { opsel := 0x03, d8 := d }
  | .crcBuf din => payloadCode { opsel := 0x04 } din
  | .crcGet => portCode { opsel := 0x05 }
  | .romWr a d => portCode { opsel := 0x08, a16 := a, d8 := d }
  | .romRd a => portCode { opsel := 0x09, a16 := a }
  | .romValid => portCode { opsel := 0x0A }
  | .romApply d => portCode { opsel := 0x0B, d8 := d }
  | .memWr a d => portCode { opsel := 0x0C, a16 := a, d8 := d }
  | .memRd a => portCode { opsel := 0x0D, a16 := a }
  | .aregsWr a d => portCode { opsel := 0x0E, a16 := a, d8 := d }
  | .aregsRd a => portCode { opsel := 0x0F, a16 := a }
  | .owReset => portCode { opsel := 0x10 }
  | .owWbit d => portCode { opsel := 0x11, d8 := boolOperand d }
  | .owRbit => portCode { opsel := 0x12 }
  | .owWbyte d => portCode { opsel := 0x13, d8 := d }
  | .owRbyte => portCode { opsel := 0x14 }
  | .owWbytes din => payloadCode { opsel := 0x15 } din
  | .owRbytes len => portCode { opsel := 0x16, len := len }
  | .owSetod d => portCode { opsel := 0x17, d8 := boolOperand d }
  | .owDelay t => portCode { opsel := 0x18, t32 := t }
  | .emuStart => portCode { opsel := 0x20 }
  | .emuStop => portCode { opsel := 0x21 }
  | .seqSkipRom => portCode { opsel := 0x30 }
  | .seqReadRom => portCode { opsel := 0x31 }
  | .seqWriteScratch a din => payloadCode { opsel := 0x32, a16 := a } din
  | .seqReadScratch len => portCode { opsel := 0x33, len := len }
  | .seqCopyScratch t => portCode { opsel := 0x34, t32 := t }
  | .seqReadMem a len => portCode { opsel := 0x35, a16 := a, len := len }
  | .seqWriteMem t pg din => payloadCode { opsel := 0x36, t32 := t, pg := pg } din
  | .famRead => portCode { opsel := 0x38 }
  | .famReadDs1996 => .port (selOf .ds1996) { opsel := 0x38 }
  | .famWriteCopyDs1992 t => .port (selOf .ds1992) { opsel := 0x39, t32 := t }
  | .famWriteCopyDs1996 t => .port (selOf .ds1996) { opsel := 0x39, t32 := t }
  | .famWriteCopyDs1971 t => .port (selOf .ds1971) { opsel := 0x39, t32 := t }
  | .famWriteCopyAbsent t => portCode { opsel := 0x39, t32 := t }
  | .famWriteId => portCode { opsel := 0x3A }
  | .bwRw1990V1 din => payloadCode { opsel := 0x3C } din
  | .bwRw1990V2 din => payloadCode { opsel := 0x3D } din
  | .bwTm2004 din => payloadCode { opsel := 0x3E } din
  | .reservedOpsel op => portCode { opsel := op }
  | .searchRom => .bus (selOf .ds1992) .idle Config.cmdSearchRom
  | .readMem => .bus (selOf .ds1992) .romCommandAccepted Config.cmdSearchRom
  | .searchRomRefused => .bus (selOf .ds1992) .memoryCommandAccepted Config.cmdSearchRom
  | .readRom => .bus (selOf .ds1992) .idle Config.cmdReadRom
  | .readRomRefused => .bus (selOf .ds1992) .romCommandAccepted Config.cmdReadRom
  | .skipRom => .bus (selOf .ds1992) .idle p.skipRom
  | .overdriveSkipRom => .bus (selOf .ds1996) .idle p.overdriveSkipRom
  | .unrecognisedStateful c => .bus (selOf .ds1992) .idle c
  | .searchRomStateless => .bus (selOf .ds1990) .idle Config.cmdSearchRom
  | .readRomStateless => .bus (selOf .ds1990) .idle Config.cmdReadRom
  | .anyOtherStateless c => .bus (selOf .ds1990) .idle c
  | .hostReadRom => .host { cmd := Config.cmdReadRom }
  | .hostWriteScratch a data => .host { cmd := 0x0F, a16 := a, data := data }
  | .hostReadScratch len => .host { cmd := 0xAA, len := len }
  | .hostCopyScratch t => .host { cmd := 0x55, t32 := t }
  | .hostReadMem a len => .host { cmd := 0xF0, a16 := a, len := len }
  | .hostSkipRom => .host { cmd := p.skipRom, group := .select }
  | .hostOverdriveSkipRom => .host { cmd := p.overdriveSkipRom, group := .select }
  | .hostDs1971Finalization => .host { cmd := 0xA5 }
  | .hostRw1990V1UnlockLock bit => .host { cmd := 0xD1, group := .blankWriter, bit := bit }
  | .hostRw1990WriteCommand data => .host { cmd := 0xD5, group := .blankWriter, data := data }
  | .hostRw1990V2UnlockLock bit => .host { cmd := 0x1D, group := .blankWriter, bit := bit }
  | .hostRw1990V2Unused => .host { cmd := 0x1E, group := .blankWriter }
  | .hostTm2004Write data => .host { cmd := 0x3C, group := .blankWriter, data := data }

/-- The port operations a pseudo-operation stands for (R105). -/
def expand : Pseudo → List Instr
  | .romLoad bytes => bytes.zipIdx.map fun p => .romWr (BitVec.ofNat 16 p.2) p.1
  | .memLoad a bytes => bytes.zipIdx.map fun p => .memWr (a + BitVec.ofNat 16 p.2) p.1
  | .romDump => (List.range 8).map fun i => .romRd (BitVec.ofNat 16 i)

/-- The code that the eight bits of an opcode-table row stand for when nothing but the bits is known:
the port operation they select if R92 assigns them; otherwise the command byte they are for the
dispatcher in `Idle` (DS1992), if it recognises them; otherwise the command byte they are for the
sequencer, if it sends them; otherwise a reserved port select. Log entry 22. -/
def tableCode (w : Nat) (p : CommandBytes := {}) : Code :=
  let c := BitVec.ofNat 8 w
  if c ∈ assignedSelects then portCode { opsel := c }
  else if c ∈ statefulBytes p then .bus (selOf .ds1992) .idle c
  else
    match [CommandGroup.frame, .select, .blankWriter].find?
        fun g => (decodeHost { cmd := c, group := g } p).isOk with
    | some g => .host { cmd := c, group := g }
    | none => portCode { opsel := c }

/-- The instruction the decoder reads from the bits of an opcode-table row: every row has eight bits
and every operand port is zero, and the command bytes have their defaults. Log entry 22. -/
def decodeTableWord (nbits w : Nat) : Option Instr :=
  if nbits = 8 then
    match decode (tableCode w) with
    | .ok i => some i
    | .error _ => none
  else none

end Sys2Proof
end

