-- ==== Sys2Proof/Machine/State.lean ====
section
/-! DEFINITION. The state of the block (spec/10_state.md R20 to R42) as plain data, the outside world
that drives it (spec/00_scope.md R5), the reasons a step can stop, and the state after reset. -/

namespace Sys2Proof.Machine

/-- Bus role, R26. The value 3 is never written (D40). -/
inductive Role where
  | off | host | slave
deriving DecidableEq, Repr

/-- Response codes, R321. The codes 6 to 14 are never produced. -/
inductive Status where
  | ok | fail | errRole | errIllegalOp | errRange | errUnsupported | fault
deriving DecidableEq, Repr

/-- `fault_code`, R31, R322: 0 none, 1 WRITE_MEM_SIZE; 2 to 15 are never written. -/
inductive FaultCode where
  | none | writeMemSize
deriving DecidableEq, Repr

/-- `sl_err`, R32. -/
inductive SlErr where
  | none | resetInProgress | timeout
deriving DecidableEq, Repr

/-- `sl_phase`, R34. -/
inductive SlPhase where
  | off | waitReset | presence | recvCmd | respond
deriving DecidableEq, Repr

/-- `h_phase`, R35: the states of the host framer's byte machines (R174, R175). The spec names no value of
it for the parts of a reset pulse, though R35 says that it tells these too; the model has none
(DESIGN CHOICE, log entry 36). -/
inductive HPhase where
  | idle | low | wait | recover
deriving DecidableEq, Repr

/-- Host framer internals, R35: `h_sh`, `h_bitcnt`, `h_phase`, `h_timer`. -/
structure HostFramer where
  sh : Byte := 0
  bitcnt : BitVec 4 := 0
  phase : HPhase := .idle
  timer : BitVec 16 := 0
deriving DecidableEq, Repr

/-- Slave framer internals, R35: `s_sh`, `s_bitcnt`, and `s_timer`, which between two inputs holds how long
the wait for a falling edge has lasted (R204; DESIGN CHOICE, log entry 40). -/
structure SlaveFramer where
  sh : Byte := 0
  bitcnt : BitVec 4 := 0
  timer : BitVec 16 := 0
deriving DecidableEq, Repr

/-- What the master does in one slot time, R190. -/
inductive PeerAction where
  | slot (m : Bool)
  | resetStd
  | resetShort
  | silence
deriving DecidableEq, Repr

/-- What the peer does on the line: an action of the slot level (R190), or, at the waveform level, a
low pulse of so many microseconds, or a quiet time of so many in which the line stays high; the slave
framer measures both (R204, R206). Quiet times with no falling edge between them are parts of one wait. -/
inductive PeerInput where
  | act (a : PeerAction)
  | low (us : Nat)
  | quiet (us : Nat)
deriving DecidableEq, Repr

/-- One event of the outside world, in the order in which they reach the block (log entry 3): the port
agent issues an operation (R5); the peer acts on the line (R190); the `fam` input changes (R37);
the reset input is raised (R350); a reset is raised while the operation is in progress, after
`events` of its wire events and `pieces` pieces of the waveform of the next (R350). -/
inductive Input where
  | port (w : PortWord)
  | line (p : PeerInput)
  | fam (sel : FamSel)
  | rst
  | portCut (w : PortWord) (events pieces : Nat)
deriving DecidableEq, Repr

/-- A wire event, R74. -/
inductive WireEvent where
  | hReset (presence : Bool)
  | hWrite (bit : Bool)
  | hRead (bit : Bool)
  | hDelay (us : Nat)
  | sReset (isShort : Bool)
  | sPresence
  | sSend (bit ok : Bool)
  | sRecv (bit ok : Bool)
deriving DecidableEq, Repr

/-- A piece of the waveform: `ow_pull` held at a level for some microseconds (R150, R171 to R173). -/
structure LinePiece where
  pull : Bool
  us : Nat
deriving DecidableEq, Repr

/-- Which slot of a search triplet comes next, R233. -/
inductive TripletPart where
  | bit | complement | choice
deriving DecidableEq, Repr

/-- Where the running responder stands (R233 to R235): the slave-role engine goes on by one peer
action at a time (log entry 4). `chain` is what the command rule returns if the responder
completes. -/
inductive SlaveTask where
  | none
  /-- R233: bit `k` of the 64, and the slot of its triplet. -/
  | search (k : Nat) (part : TripletPart) (chain : Bool)
  /-- R234: byte `k` of the 8 is in `s_sh`. -/
  | sendRom (k : Nat) (chain : Bool)
  /-- R235: receiving the address; the low byte once it has arrived. -/
  | recvAddr (lo : Option Byte)
  /-- R235: `MEM[a]` is in `s_sh`. -/
  | sendMem (a : Nat)
deriving DecidableEq, Repr

/-- The state of the block. The fields follow the table of R20; the last group is the model's own
(INVENTORY.md, heading State). -/
structure State where
  /-- CRC accumulator, R21. -/
  crc : Byte
  /-- RomData record, R22. -/
  rom : Vector Byte 8
  /-- AddressRegs record, R23. -/
  aregs : Vector Byte 3
  /-- MEM, R24: the bytes that differ from what an unwritten byte reads as, by address. -/
  mem : List Host.Cell
  /-- R25. -/
  cmdState : CmdState
  /-- R26. -/
  role : Role
  /-- R27: `true` is overdrive. -/
  odHost : Bool
  /-- R28. -/
  odSlave : Bool
  /-- R29. -/
  presence : Bool
  /-- Response registers, R30. -/
  status : Status
  ok : Bool
  rdata : Byte
  /-- The response's byte sequence (R13, R91); log entry 10. -/
  dout : List Byte
  /-- R31. -/
  fault : Bool
  faultCode : FaultCode
  /-- R32. -/
  slErr : SlErr
  slRstShort : Bool
  /-- R33. -/
  emuInstalled : Bool
  /-- R34. -/
  slPhase : SlPhase
  /-- R35. -/
  hFramer : HostFramer
  sFramer : SlaveFramer
  /-- Sequencer internals, R36. `q_step` is the list of the sub-steps still to run. -/
  qStep : List HostFrame
  qPage : BitVec 16
  qIdx : BitVec 16
  qElapsed : BitVec 33
  qMismatch : Bool
  /-- The output that pulls the line low, R150. -/
  owPull : Bool
  /-- The level of the `fam` input, R37. -/
  famIn : FamSel
  /-- The value of `fam` sampled at `EMU.START` and held for the session, R37. -/
  famHeld : FamSel
  /-- The command byte parameters in force, R6 and R8: an argument of the step, which no step changes (log
  entry 12). -/
  cmdBytes : CommandBytes
  /-- Model's own: where the slave-role engine stands in a response. -/
  task : SlaveTask
  /-- Model's own: what the outside world does next, in order. -/
  inputs : List Input
  /-- Model's own: the peer's next answers to resets and read slots in host role (R151). -/
  oracle : List Bool
  /-- Model's own: the wire events so far, the newest first (R74). -/
  wire : List WireEvent
  /-- Model's own: for each wire event the waveform the block drew, oldest piece first (R171 to R173). -/
  line : List (List LinePiece)
  /-- Model's own: how many times the reset input has been raised; the free values of the storage that
  reset leaves unspecified depend on it (R41). -/
  epoch : Nat
deriving DecidableEq, Repr

/-- The faults of the model: where a step stops because the machine itself cannot go on. The spec's
own fault state (R322) is not one of them: it is a next state. -/
inductive Fault where
  /-- Raised by `step` when the port presents a `din` that is not `len` bytes long (R91). No transfer
  of the port ends so, hence the step stops. Safe: it stops where the hardware would wait for
  bytes that never come. -/
  | payloadLength
deriving DecidableEq, Repr

/-- The refusals of the model. -/
inductive Refusal where
  /-- Raised by an arm of `exec` that has no meaning yet. Safe. No arm raises it. -/
  | notModelled (mnemonic : String)
  /-- Raised by `step` when the sequencer is said to send a byte that is none of R97. Safe: no
  sequence of the block holds such a byte. -/
  | notSent
deriving DecidableEq, Repr

/-- The state after hardware reset: R42 and R350. The spec leaves `ROM`, `AREGS` and `MEM` unspecified;
they read 0x00 here (DESIGN CHOICE, unsafe: log entries 5 and 6). `fam` is an input without a reset
value (log entry 8), and the command bytes have the defaults of R8. -/
def State.reset : State where
  crc := 0x00
  rom := #v[0, 0, 0, 0, 0, 0, 0, 0]
  aregs := #v[0, 0, 0]
  mem := []
  cmdState := .idle
  role := .off
  odHost := false
  odSlave := false
  presence := false
  status := .ok
  ok := false
  rdata := 0x00
  dout := []
  fault := false
  faultCode := .none
  slErr := .none
  slRstShort := false
  emuInstalled := false
  slPhase := .off
  hFramer := {}
  sFramer := {}
  qStep := []
  qPage := 0
  qIdx := 0
  qElapsed := 0
  qMismatch := false
  owPull := false
  famIn := 0
  famHeld := 0
  cmdBytes := {}
  task := .none
  inputs := []
  oracle := []
  wire := []
  line := []
  epoch := 0

end Sys2Proof.Machine
end

