-- ==== Sys2Proof/Machine/Operands.lean ====
section
/-! DEFINITION. Operand forms: bit order and byte order (spec/20_memory.md R63 to R65), the family table
(spec/00_scope.md R7), the family select in force (spec/10_state.md R37), pages of a payload (R267),
and the sequences of wire events that carry bytes (R155 to R158). -/

namespace Sys2Proof.Machine

/-- The bits of a byte in wire order, bit 0 first (R63). -/
def bitsOf (v : Byte) : List Bool :=
  [v.getLsbD 0, v.getLsbD 1, v.getLsbD 2, v.getLsbD 3,
   v.getLsbD 4, v.getLsbD 5, v.getLsbD 6, v.getLsbD 7]

/-- A bit on one end of a byte. -/
def bitByte (b : Bool) : Byte := if b then 1 else 0

/-- The byte whose bits arrive in this order, the first being bit 0 (R156). -/
def byteOf (bits : List Bool) : Byte :=
  bits.foldr (fun b acc => (acc <<< 1) ||| bitByte b) 0

/-- A bit enters a shift register at bit 7 and the others move toward bit 0 (R175, R204). -/
def shiftIn (b : Bool) (sh : Byte) : Byte := (sh >>> 1) ||| (bitByte b <<< 7)

/-- The bits of a byte sequence in wire order (R63, R65). -/
def wireBits (s : List Byte) : List Bool := s.flatMap bitsOf

/-- The low byte of an address (R65, R104). -/
def addrLo (a : Half) : Byte := BitVec.ofNat 8 a.toNat

/-- The high byte of an address. -/
def addrHi (a : Half) : Byte := BitVec.ofNat 8 (a.toNat / 256)

/-- An address received low byte first (R65, R104). -/
def addrOf (lo hi : Byte) : Nat := lo.toNat + 256 * hi.toNat

/-- `FAMILY_CODE` (R7). -/
def familyCode : Family → Byte
  | .generic => 0x00
  | .ds1990 => 0x01
  | .ds1971 => 0x14
  | .ds1992 => 0x08
  | .ds1996 => 0x0C
  | .ds1420 => 0x81

/-- `MEM_SIZE` of a family (R7). -/
def familyMemSize : Family → Nat
  | .ds1971 => 32
  | .ds1992 => 128
  | .ds1996 => 8192
  | .generic | .ds1990 | .ds1420 => 0

/-- `PAGE_SIZE` of a family (R7); 0 for the families without memory. -/
def pageSize : Family → Nat
  | .ds1971 => 32
  | .ds1992 => 4
  | .ds1996 => 32
  | .generic | .ds1990 | .ds1420 => 0

/-- `HAS_OD` (R7): DS1996 alone. -/
def hasOverdrive : Family → Bool
  | .ds1996 => true
  | .generic | .ds1990 | .ds1971 | .ds1992 | .ds1420 => false

/-- The families with a write-copy operation (R7, R273). -/
def hasWriteCopy : Family → Bool
  | .ds1971 | .ds1992 | .ds1996 => true
  | .generic | .ds1990 | .ds1420 => false

/-- `MEM_SIZE(fam)`; 0 for the reserved values (R324). -/
def memSize (sel : FamSel) : Nat :=
  match familyOf sel with
  | some f => familyMemSize f
  | none => 0

/-- The family select in force: the input at the start of an operation, the held value during a
session (R37, R359; log entry 9). -/
def State.fam (s : State) : FamSel := if s.role = .slave then s.famHeld else s.famIn

/-- A stateful family is selected (R220). -/
def State.stateful (s : State) : Bool :=
  match familyOf s.fam with
  | some f => hasState f
  | none => false

/-- A stateless family is selected (R220). -/
def State.stateless (s : State) : Bool :=
  match familyOf s.fam with
  | some f => !hasState f
  | none => false

/-- Page `p` of a payload: `din[p * pg .. p * pg + pg - 1]` (R267). -/
def pageOf (pg : Nat) (din : List Byte) (p : Nat) : List Byte := (din.drop (p * pg)).take pg

/-- The address of page `p` (R267, D25). -/
def pageAddr (pg p : Nat) : Half := BitVec.ofNat 16 (p * pg)

/-- The poll interval `max(timeout_us div 20, 5)` (R265). -/
def pollInterval (t : Micros) : Nat := max (t.toNat / 20) 5

/-- How many read slots the poll loop uses at most: `ceil(t32 / poll)` (R265; log entry 18). -/
def pollLimit (t : Micros) : Nat := (t.toNat + pollInterval t - 1) / pollInterval t

/-- The contract of `SEQ.WRITE_MEM` (R267, R322): a page size that is not 0 and divides the size. -/
def writeMemContract (pg : Half) (din : List Byte) : Bool :=
  pg.toNat != 0 && din.length % pg.toNat == 0

/-- The shorthand `W(xx) W(yy) …` of spec/95_test_vectors.md: the events of written bytes (R155, R157),
oldest first. -/
def writeEvents (s : List Byte) : List WireEvent := (wireBits s).map .hWrite

/-- The shorthand `R(xx) R(yy) …`: the events of read slots that returned these bits (R156). -/
def readEvents (bits : List Bool) : List WireEvent := bits.map .hRead

/-- The next `n` answers of the peer to read slots; with nothing attached every bit reads 1 (R151). -/
def nextBits (n : Nat) (oracle : List Bool) : List Bool :=
  (oracle ++ List.replicate n true).take n

/-- The bytes that a sequence of bits carries, eight bits a byte (R156, R158). -/
def bytesOf : Nat → List Bool → List Byte
  | 0, _ => []
  | n + 1, bits => byteOf (bits.take 8) :: bytesOf n (bits.drop 8)

/-- The line is low when anybody pulls it low (R150). -/
def lineLevel (owPull peerPull : Bool) : Bool := !(owPull || peerPull)

/-- What the master samples in a slot `m` in which the block sends `b` (R191). -/
def masterSamples (m b : Bool) : Bool := b && m

end Sys2Proof.Machine
end

