-- ==== Sys2Proof/Machine/Crc.lean ====
section
/-! DEFINITION. The Maxim/Dallas CRC-8 (spec/40_crc.md R120 to R122): polynomial "0x31" realised as a
register that shifts toward bit 0 with the feedback constant 0x8C (spec/90_conflicts.md C2). -/

namespace Sys2Proof.Machine

/-- One bit step, R120. -/
def crc8Bit (c : Byte) (d : Bool) : Byte :=
  let fb := c.getLsbD 0 ^^ d
  (c >>> 1) ^^^ (if fb then 0x8C else 0x00)

/-- A sequence of bits, first bit first. -/
def crc8Bits (c : Byte) (bits : List Bool) : Byte := bits.foldl crc8Bit c

/-- One byte step, bit 0 first, R121. -/
def crc8Byte (c b : Byte) : Byte := crc8Bits c (bitsOf b)

/-- A byte sequence, R122. -/
def crc8Buf (c : Byte) : List Byte → Byte
  | [] => c
  | b :: s => crc8Buf (crc8Byte c b) s

/-- The byte-parallel form that R121 allows instead: eight shifts of `c xor b`. -/
def crc8ByteParallel (c b : Byte) : Byte :=
  (List.range 8).foldl (fun t _ => (t >>> 1) ^^^ (if t.getLsbD 0 then 0x8C else 0x00)) (c ^^^ b)

/-- The CRC over the first seven bytes of the record (R129, R130). -/
def romCrc (rom : Vector Byte 8) : Byte := crc8Buf 0x00 (rom.toList.take 7)

end Sys2Proof.Machine
end

