-- ==== Sys2Proof/Machine/Flags.lean ====
section
/-! DEFINITION. The response registers and the checks in front of every port operation
(spec/60_exceptions.md R321, R324, R335): what `status` and `ok` become, which operation a role
allows, and in which order an operation is refused. The block has no other flags (R39). -/

namespace Sys2Proof.Machine

/-- The four-bit code of a status (R321). -/
def statusCode : Status → BitVec 4
  | .ok => 0
  | .fail => 1
  | .errRole => 2
  | .errIllegalOp => 3
  | .errRange => 4
  | .errUnsupported => 5
  | .fault => 15

/-- The two-bit code of a role (R26). -/
def roleCode : Role → BitVec 2
  | .off => 0
  | .host => 1
  | .slave => 2

/-- The two-bit code of the command state (R25). -/
def cmdStateCode : CmdState → BitVec 2
  | .idle => 0
  | .romCommandAccepted => 1
  | .memoryCommandAccepted => 2

/-- The two-bit code of `sl_err` (R32). -/
def slErrCode : SlErr → BitVec 2
  | .none => 0
  | .resetInProgress => 1
  | .timeout => 2

/-- The three-bit code of `sl_phase` (R34). -/
def slPhaseCode : SlPhase → BitVec 3
  | .off => 0
  | .waitReset => 1
  | .presence => 2
  | .recvCmd => 3
  | .respond => 4

/-- The four-bit code of `fault_code` (R322). -/
def faultCodeCode : FaultCode → BitVec 4
  | .none => 0
  | .writeMemSize => 1

/-- The response of an operation that ran and whose source function returned `ok` (R13, R321): `FAIL`
when it returned false. -/
def reply (ok : Bool) (rdata : Byte) (dout : List Byte) (s : State) : State :=
  { s with status := if ok then .ok else .fail, ok := ok, rdata := rdata, dout := dout }

/-- The response of an operation that worked, `ok` carrying a verdict (`ROM.VALID`, R129). -/
def replyVerdict (ok : Bool) (rdata : Byte) (s : State) : State :=
  { s with status := .ok, ok := ok, rdata := rdata, dout := [] }

/-- A refusal (R321): `ok` = 0, `rdata` = 0x00, `dout` empty, nothing else changes. -/
def refuse (st : Status) (s : State) : State :=
  { s with status := st, ok := false, rdata := 0x00, dout := [] }

/-- Which roles allow an operation, R335. -/
inductive RolePolicy where
  /-- In every role. -/
  | always
  /-- Not in role `Slave`. -/
  | notSlave
  /-- In role `Off` alone (`EMU.START`). -/
  | offOnly
  /-- In role `Slave` alone (`EMU.STOP`). -/
  | slaveOnly
deriving DecidableEq, Repr

/-- The table of R335. -/
def RolePolicy.allows : RolePolicy → Role → Bool
  | .always, _ => true
  | .notSlave, r => r != .slave
  | .offOnly, r => r == .off
  | .slaveOnly, r => r == .slave

/-- A port operation (R324): the refusals in their order, then the operation. `supported` is check 4
and `inRange` check 5. -/
def portOp (policy : RolePolicy) (supported inRange : Bool) (run : State → State) (s : State) :
    Host.Outcome State Fault Refusal :=
  if s.fault then .next (refuse .fault s)
  else if !policy.allows s.role then .next (refuse .errRole s)
  else if !supported then .next (refuse .errUnsupported s)
  else if !inRange then .next (refuse .errRange s)
  else .next (run s)

/-- The sequencer's registers at rest (R36: dead at the start of every operation, none survives one). -/
def clearSeq (s : State) : State :=
  { s with qPage := 0, qIdx := 0, qElapsed := 0, qMismatch := false }

/-- The start of a host-role operation (R335). -/
def beginHost (s : State) : State := clearSeq { s with role := .host }

/-- The response of a host-role operation: `role` goes back to `Off`, the line is let go (R335, R150). -/
def endHost (s : State) : State := clearSeq { s with role := .off, owPull := false }

/-- A host-role operation: the checks of R324, then the sequence between the two writes of `role`. -/
def hostOp (supported : Bool) (run : State → State) (s : State) : Host.Outcome State Fault Refusal :=
  portOp .notSlave supported true (fun s => endHost (run (beginHost s))) s

end Sys2Proof.Machine
end

