-- ==== Sys2Proof/Machine/Waveform.lean ====
section
/-! DEFINITION. The waveform level (spec/41_framer_host.md R170 to R175, spec/42_framer_slave.md R199,
R204 to R206): how a slot is drawn on the line, the host framer's byte machines, and how the slave
framer classifies what it measures. All durations are the OPEN tables of Config (log entry 14). -/

namespace Sys2Proof.Machine

/-- `ow_pull` held for a table entry. -/
def piece (pull : Bool) (t : BitVec 16) : LinePiece := { pull := pull, us := t.toNat }

/-- The reset waveform, R171. -/
def resetWave (t : HostTiming) : List LinePiece :=
  [piece false t.g, piece true t.h, piece false t.i, piece false t.j]

/-- The write-slot waveform, R172. -/
def writeWave (t : HostTiming) (b : Bool) : List LinePiece :=
  if b then [piece true t.a, piece false t.b] else [piece true t.c, piece false t.d]

/-- The read-slot waveform, R173. -/
def readWave (t : HostTiming) : List LinePiece :=
  [piece true t.a, piece false t.e, piece false t.f]

/-- The presence answer read off the sample of R171: a device holds the line low. -/
def presenceOfSample (owIn : Bool) : Bool := !owIn

/-- The bit read off the sample of R173. -/
def bitOfSample (owIn : Bool) : Bool := owIn

/-- The presence pulse, R199: released for PDH, low for PDL. -/
def presenceWave (t : SlaveTiming) : List LinePiece := [piece false t.pdh, piece true t.pdl]

/-- What the block draws in a slot in which it sends `b`, R204: low for HOLD0, or nothing. -/
def sendWave (t : SlaveTiming) (b : Bool) : List LinePiece :=
  if b then [] else [piece true t.hold0]

/-- The start of the write-byte machine, R174. -/
def writeByteStart (v : Byte) : HostFramer := { sh := v, bitcnt := 0, phase := .low, timer := 0 }

/-- The start of the read-byte machine, R175. -/
def readByteStart : HostFramer := { sh := 0, bitcnt := 0, phase := .low, timer := 0 }

/-- The end of a slot in both machines: count it, and stop after the eighth with the count cleared
(R174, R175, R35). -/
def endSlot (h : HostFramer) : HostFramer :=
  if h.bitcnt + 1 = 8 then { h with bitcnt := 0, phase := .idle, timer := 0 }
  else { h with bitcnt := h.bitcnt + 1, phase := .low, timer := 0 }

/-- One phase of the write-byte machine, R174: the timer is loaded and runs out; the piece is what the
line shows meanwhile. In `H_IDLE` nothing happens. -/
def writePhase (t : HostTiming) (h : HostFramer) : HostFramer × List LinePiece :=
  match h.phase with
  | .idle => (h, [])
  | .low => ({ h with phase := .recover }, [piece true (if h.sh.getLsbD 0 then t.a else t.c)])
  | .wait => ({ h with phase := .recover }, [])
  | .recover =>
    (endSlot { h with sh := h.sh >>> 1 }, [piece false (if h.sh.getLsbD 0 then t.b else t.d)])

/-- The write-byte machine run for a number of phases. -/
def writeMachine (t : HostTiming) : Nat → HostFramer → HostFramer × List LinePiece
  | 0, h => (h, [])
  | n + 1, h =>
    let r := writePhase t h
    let q := writeMachine t n r.1
    (q.1, r.2 ++ q.2)

/-- One phase of the read-byte machine, R175. `owIn` is the level of the line at the end of `H_WAIT`. -/
def readPhase (t : HostTiming) (owIn : Bool) (h : HostFramer) : HostFramer × List LinePiece :=
  match h.phase with
  | .idle => (h, [])
  | .low => ({ h with phase := .wait }, [piece true t.a])
  | .wait => ({ h with phase := .recover, sh := shiftIn (bitOfSample owIn) h.sh }, [piece false t.e])
  | .recover => (endSlot h, [piece false t.f])

/-- The three phases of one read slot, R175, with the level sampled in it. -/
def readSlot (t : HostTiming) (owIn : Bool) (h : HostFramer) : HostFramer × List LinePiece :=
  let r1 := readPhase t owIn h
  let r2 := readPhase t owIn r1.1
  let r3 := readPhase t owIn r2.1
  (r3.1, r1.2 ++ r2.2 ++ r3.2)

/-- The read-byte machine over the sampled levels of its slots. -/
def readMachine (t : HostTiming) : List Bool → HostFramer → HostFramer × List LinePiece
  | [], h => (h, [])
  | b :: bs, h =>
    let r := readSlot t b h
    let q := readMachine t bs r.1
    (q.1, r.2 ++ q.2)

/-- Classification of a low pulse of `l` microseconds, R206. The entry `SLOT_MAX` of R205 is not read: a low
time above it and below `RSTL_MIN` is a slot, as R206 has it (DESIGN CHOICE, log entry 37). -/
def classifyLow (std od : SlaveTiming) (odSlave : Bool) (l : Nat) : PeerAction :=
  if std.rstlMin.toNat ≤ l then .resetStd
  else if odSlave ∧ od.rstlMin.toNat ≤ l ∧ l ≤ od.rstlMax.toNat then .resetShort
  else .slot (decide (l < (if odSlave then od else std).w1lMax.toNat))

/-- A wait of `l` microseconds for a falling edge: longer than WAIT_MAX it is `MSilence`, R204; else it is
nothing yet. -/
def classifyQuiet (t : SlaveTiming) (l : Nat) : Option PeerAction :=
  if t.waitMax.toNat < l then some .silence else none

end Sys2Proof.Machine
end

