-- ==== Sys2Proof/Machine/Ops.lean ====
section
/-! DEFINITION. The named operations over the state: storage (spec/20_memory.md), the host framer's
primitives (spec/41_framer_host.md R152 to R160), the frames of the host sequences
(spec/30_encoding.md R100), the slave framer's primitives and its engine (spec/42_framer_slave.md),
and the exceptions: the peer's bus reset (spec/60_exceptions.md R325 to R329), the contract violation
(R322) and the hardware reset (spec/70_reset_and_hazards.md R350). -/

namespace Sys2Proof.Machine

/-! ## Storage -/

/-- What a byte of MEM reads as that nothing has written: a fixed 0x00 at the machine's first reset
(DESIGN CHOICE, unsafe: log entry 6), a free value after a later hardware reset (R41; log entry 7). -/
def unwritten (epoch addr : Nat) : Byte :=
  if epoch = 0 then 0x00 else Config.memAfterReset epoch addr

/-- One byte of MEM (R24, R60). -/
def memRead (epoch : Nat) : List Host.Cell → Nat → Byte
  | [], a => unwritten epoch a
  | (k, v) :: r, a => if k = a then v else memRead epoch r a

/-- The list without the entry of `a`. -/
def memErase (a : Nat) : List Host.Cell → List Host.Cell
  | [] => []
  | (k, v) :: r => if k = a then r else (k, v) :: memErase a r

/-- The list with `v` at `a`, addresses rising. -/
def memInsert (a : Nat) (v : Byte) : List Host.Cell → List Host.Cell
  | [] => [(a, v)]
  | (k, w) :: r =>
    if a < k then (a, v) :: (k, w) :: r
    else if k = a then (a, v) :: r
    else (k, w) :: memInsert a v r

/-- A write of one byte: writing what an unwritten byte reads as removes the entry. -/
def memWrite (epoch : Nat) (m : List Host.Cell) (a : Nat) (v : Byte) : List Host.Cell :=
  if v = unwritten epoch a then memErase a m else memInsert a v m

/-- `MemWrite(addr, n, v)`, lowest address first (R12). -/
def memWriteBytes (epoch : Nat) (m : List Host.Cell) (a : Nat) : List Byte → List Host.Cell
  | [] => m
  | v :: vs => memWriteBytes epoch (memWrite epoch m a v) (a + 1) vs

/-- `MemRead(addr, n)` (R12). -/
def memReadBytes (epoch : Nat) (m : List Host.Cell) : Nat → Nat → List Byte
  | _, 0 => []
  | a, n + 1 => memRead epoch m a :: memReadBytes epoch m (a + 1) n

/-- The canonical form of MEM: addresses strictly rising and inside the array (R24), no entry equal
to what an unwritten byte reads as. -/
def Memory.wf (epoch : Nat) : List Host.Cell → Bool
  | [] => true
  | [(k, v)] => decide (k < Config.memArraySize) && decide (v ≠ unwritten epoch k)
  | (k, v) :: (k', v') :: r =>
    decide (k < k') && decide (v ≠ unwritten epoch k) && Memory.wf epoch ((k', v') :: r)

/-- The byte of MEM at an address. -/
def State.memAt (s : State) (a : Nat) : Byte := memRead s.epoch s.mem a

/-- `MemRead` on the state. -/
def State.memBytes (s : State) (a n : Nat) : List Byte := memReadBytes s.epoch s.mem a n

/-- `MemWrite` on the state. -/
def storeMem (a : Nat) (v : List Byte) (s : State) : State :=
  { s with mem := memWriteBytes s.epoch s.mem a v }

/-- `ROM[i]` (R22). -/
def State.romAt (s : State) (i : Nat) : Byte := s.rom[i]?.getD 0

/-- `ROM[i] <- v`. -/
def storeRom (i : Nat) (v : Byte) (s : State) : State := { s with rom := s.rom.setIfInBounds i v }

/-- `ROM[0..7] <- r[0..7]` (R262). -/
def storeRecord (r : List Byte) (s : State) : State :=
  { s with rom := #v[r.getD 0 0, r.getD 1 0, r.getD 2 0, r.getD 3 0,
                     r.getD 4 0, r.getD 5 0, r.getD 6 0, r.getD 7 0] }

/-- `AREGS[i]` (R23). -/
def State.aregAt (s : State) (i : Nat) : Byte := s.aregs[i]?.getD 0

/-- `AREGS[i] <- v`. -/
def storeAreg (i : Nat) (v : Byte) (s : State) : State :=
  { s with aregs := s.aregs.setIfInBounds i v }

/-- `AREGS[0..2] <- r[0..2]` (R264). -/
def storeAregs (r : List Byte) (s : State) : State :=
  { s with aregs := #v[r.getD 0 0, r.getD 1 0, r.getD 2 0] }

/-- The authorization accepted bit, `AREGS[2][7]` (R23, R103). -/
def State.authorized (s : State) : Bool := (s.aregAt 2).getLsbD 7

/-! ## The host framer -/

/-- A wire event (R74) and the waveform the block draws in it. -/
def emit (e : WireEvent) (w : List LinePiece) (s : State) : State :=
  { s with wire := e :: s.wire, line := w :: s.line }

/-- The peer's next answer in host role (R151); with no answer listed nothing is attached, and the
answer is `absent` (log entry 2). -/
def popAnswer (absent : Bool) (s : State) : Bool × State :=
  match s.oracle with
  | [] => (absent, s)
  | b :: r => (b, { s with oracle := r })

/-- The host timing table in force (R27, R170). -/
def State.hostTable (s : State) : HostTiming := Config.tHost s.odHost

/-- `HostReset()`, R152. -/
def hostReset (s : State) : Bool × State :=
  let r := popAnswer false s
  (r.1, emit (.hReset r.1) (resetWave s.hostTable) { r.2 with presence := r.1 })

/-- `HostWriteBit(b)`, R153. -/
def hostWriteBit (b : Bool) (s : State) : State := emit (.hWrite b) (writeWave s.hostTable b) s

/-- `HostReadBit()`, R154. -/
def hostReadBit (s : State) : Bool × State :=
  let r := popAnswer true s
  (r.1, emit (.hRead r.1) (readWave s.hostTable) r.2)

/-- Write slots carrying these bits. -/
def hostWriteBits : List Bool → State → State
  | [], s => s
  | b :: bs, s => hostWriteBits bs (hostWriteBit b s)

/-- `n` read slots; the bits in the order in which they were read. -/
def hostReadBits : Nat → State → List Bool × State
  | 0, s => ([], s)
  | n + 1, s =>
    let r := hostReadBit s
    let q := hostReadBits n r.2
    (r.1 :: q.1, q.2)

/-- `HostWriteByte(v)`, R155. The framer is idle afterwards, its shift register empty (R174). -/
def hostWriteByte (v : Byte) (s : State) : State :=
  { hostWriteBits (bitsOf v) s with hFramer := {} }

/-- `HostReadByte()`, R156. The framer is idle afterwards, its shift register holding the byte (R175). -/
def hostReadByte (s : State) : Byte × State :=
  let r := hostReadBits 8 s
  (byteOf r.1, { r.2 with hFramer := { sh := byteOf r.1 } })

/-- `HostWriteBytes(s)`, R157. -/
def hostWriteBytes : List Byte → State → State
  | [], s => s
  | v :: vs, s => hostWriteBytes vs (hostWriteByte v s)

/-- `HostReadBytes(n)`, R158. -/
def hostReadBytes : Nat → State → List Byte × State
  | 0, s => ([], s)
  | n + 1, s =>
    let r := hostReadByte s
    let q := hostReadBytes n r.2
    (r.1 :: q.1, q.2)

/-- `HostSetOverdrive(b)`, R159. -/
def hostSetOverdrive (b : Bool) (s : State) : State := { s with odHost := b }

/-- `Delay_us(n)`, R160. -/
def hostDelay (us : Nat) (s : State) : State := emit (.hDelay us) [{ pull := false, us := us }] s

/-- "Each step's success gates the next" (R260, D26): go on after a step that returned true. -/
def gate (r : Bool × State) (k : State → Bool × State) : Bool × State :=
  if r.1 then k r.2 else r

/-! ## The frames of the host sequences (R100), shared by the operations and the rows of R97 -/

/-- The read-ROM frame, R262: 0x33, then eight bytes into `ROM`. -/
def frameReadRom (s : State) : State :=
  let r := hostReadBytes 8 (hostWriteByte 0x33 s)
  storeRecord r.1 r.2

/-- The write-scratchpad frame, R263. -/
def frameWriteScratch (a : Half) (data : List Byte) (s : State) : State :=
  hostWriteBytes data (hostWriteByte (addrHi a) (hostWriteByte (addrLo a) (hostWriteByte 0x0F s)))

/-- The read-scratchpad frame, R264: three bytes into `AREGS`, then the payload. -/
def frameReadScratch (n : Nat) (s : State) : List Byte × State :=
  let r := hostReadBytes 3 (hostWriteByte 0xAA s)
  hostReadBytes n (storeAregs r.1 r.2)

/-- The poll loop of R265 over the `q_elapsed` register, for at most so many read slots. -/
def pollCopy (t poll : Nat) : Nat → State → Bool × State
  | 0, s => (decide (s.qElapsed.toNat < t), s)
  | n + 1, s =>
    if s.qElapsed.toNat < t then
      let r := hostReadBit s
      if r.1 then
        pollCopy t poll n
          { hostDelay poll r.2 with qElapsed := r.2.qElapsed + BitVec.ofNat 33 poll }
      else (true, r.2)
    else (false, s)

/-- The copy-scratchpad frame, R265. -/
def frameCopyScratch (t : Micros) (s : State) : Bool × State :=
  let s1 := hostWriteBytes [s.aregAt 0, s.aregAt 1, s.aregAt 2] (hostWriteByte 0x55 s)
  pollCopy t.toNat (pollInterval t) (pollLimit t) { s1 with qElapsed := 0 }

/-- The read-memory frame, R266. -/
def frameReadMem (a : Half) (n : Nat) (s : State) : List Byte × State :=
  hostReadBytes n (hostWriteByte (addrHi a) (hostWriteByte (addrLo a) (hostWriteByte 0xF0 s)))

/-- The skip-ROM frame, R261. -/
def frameSkipRom (p : CommandBytes) (s : State) : State := hostWriteByte p.skipRom s

/-- OVERDRIVE_SKIP_ROM at the old speed, then overdrive (R97, R269). -/
def frameOverdriveSkipRom (p : CommandBytes) (s : State) : State :=
  hostSetOverdrive true (hostWriteByte p.overdriveSkipRom s)

/-- The end of the DS1971 copy step, R272 (d). -/
def frameDs1971Finalization (s : State) : State :=
  hostDelay Config.tDs1971Settle (hostWriteByte 0xA5 s)

/-- `RwWriteByte(b)`, R301. -/
def rwWriteByte (b : Byte) (s : State) : State :=
  hostDelay Config.tRwByte
    ((bitsOf b).foldl (fun s k => hostDelay Config.tRwBit (hostWriteBit k s)) s)

/-- The data bytes of an RW1990 bulk write; `q_idx` is the index of the byte in progress (R36; that it
counts here: DESIGN CHOICE, log entry 39). -/
def rwWriteBytes : List Byte → State → State
  | [], s => s
  | b :: bs, s => 
    let s1 := rwWriteByte b s
    rwWriteBytes bs { s1 with qIdx := s1.qIdx + 1 }

/-- The RW1990 write command and its data bytes (R302, R303). -/
def frameRwWrite (data : List Byte) (s : State) : State :=
  rwWriteBytes data { hostWriteByte 0xD5 s with qIdx := 0 }

/-- The unlock or lock step of an RW1990 writer: the command byte, one bit, the dwell. The unlock step
has the short delay before its bit (R302, R303). -/
def frameRwLock (cmd : Byte) (unlock bit : Bool) (s : State) : State :=
  let s1 := hostWriteByte cmd s
  if unlock then hostDelay Config.tRwBit (hostWriteBit bit (hostDelay Config.tRwShort s1))
  else hostDelay Config.tRwLock (hostWriteBit bit s1)

/-- The v1 step: bit 0 unlocks, bit 1 locks (R302). -/
def frameV1Lock (bit : Bool) (s : State) : State := frameRwLock 0xD1 (!bit) bit s

/-- The v2 step: bit 1 unlocks, bit 0 locks (R303). -/
def frameV2Lock (bit : Bool) (s : State) : State := frameRwLock 0x1D bit bit s

/-- The per-byte exchange of the TM2004 writer (R304); it stops at the first byte stored wrong. `q_idx` is
the index of the byte in progress (R36; that it counts here: DESIGN CHOICE, log entry 39). -/
def tmWriteBytes : List Byte → State → Bool × State
  | [], s => (true, s)
  | b :: bs, s =>
    let s1 := (hostReadByte (hostWriteByte b s)).2
    let r := hostReadByte
      (hostDelay Config.tTmByte (hostWriteBit true (hostDelay Config.tTmPulse s1)))
    if r.1 = b then tmWriteBytes bs { r.2 with qIdx := r.2.qIdx + 1 } else (false, r.2)

/-- The TM2004 write command, its start address 0x0000 and the exchange (R304). -/
def frameTm2004 (data : List Byte) (s : State) : Bool × State :=
  tmWriteBytes data
    { hostWriteByte 0x00 (hostWriteByte 0x00 (hostWriteByte 0x3C s)) with qIdx := 0 }

/-! ## The host sequences -/

/-- A bus reset and a skip-ROM command (R267). -/
def resetSkip (p : CommandBytes) (s : State) : Bool × State :=
  gate (hostReset s) fun s => (true, frameSkipRom p s)

/-- One page of `write_mem`, the four sub-steps of R267. -/
def writePage (b : CommandBytes) (t : Micros) (a : Half) (page : List Byte) (s : State) : Bool × State :=
  gate (resetSkip b s) fun s =>
  gate (resetSkip b (frameWriteScratch a page s)) fun s =>
  let r := frameReadScratch page.length s
  let s := { r.2 with qMismatch := decide (r.1 ≠ page) }
  if s.qMismatch then (false, s)
  else
    gate (resetSkip b s) fun s =>
    gate (frameCopyScratch t s) fun s =>
    gate (resetSkip b s) fun s =>
    let r := frameReadScratch page.length s
    (r.2.authorized, r.2)

/-- The pages from `p` on, `k` of them (R267); `q_page` is the page index (R36). -/
def writePages (b : CommandBytes) (t : Micros) (pg : Nat) (din : List Byte) :
    Nat → Nat → State → Bool × State
  | 0, _, s => (true, s)
  | k + 1, p, s =>
    gate (writePage b t (pageAddr pg p) (pageOf pg din p) { s with qPage := BitVec.ofNat 16 p }) fun s =>
    writePages b t pg din k (p + 1) s

/-- `write_mem` after its contract check (R267). -/
def writeMem (b : CommandBytes) (t : Micros) (pg : Nat) (din : List Byte) (s : State) : Bool × State :=
  writePages b t pg din (din.length / pg) 0 s

/-- `Verify(data, size)`, R306: the bytes read are not stored. -/
def verifyRom (data : List Byte) (s : State) : Bool × State :=
  gate (hostReset s) fun s =>
  let r := hostReadBytes data.length (hostWriteByte 0x33 s)
  (decide (r.1 = data), r.2)

/-- `rw1990_write_v1`, R302. -/
def writeV1 (data : List Byte) (s : State) : Bool × State :=
  gate (hostReset s) fun s =>
  gate (hostReset (frameV1Lock false s)) fun s =>
  verifyRom data (frameV1Lock true (frameRwWrite (data.map fun b => ~~~b) s))

/-- `rw1990_write_v2`, R303. -/
def writeV2 (data : List Byte) (s : State) : Bool × State :=
  gate (hostReset s) fun s =>
  gate (hostReset (frameV2Lock true s)) fun s =>
  verifyRom data (frameV2Lock false (frameRwWrite data s))

/-- `tm2004_write`, R304. -/
def writeTm2004 (data : List Byte) (s : State) : Bool × State :=
  gate (hostReset s) fun s => frameTm2004 data s

/-- `a or_else b`, R305: `b` runs only if `a` returned false. -/
def orElse (r : Bool × State) (k : State → Bool × State) : Bool × State :=
  if r.1 then r else k r.2

/-- The DS1996 wrap (R269, R271): overdrive is off at the end on every path. -/
def overdriveOff (r : Bool × State) : Bool × State := (r.1, hostSetOverdrive false r.2)

/-- One move of the open part of the DS1971 write-copy, with the bytes kept so far (R272). -/
def copyMove (m : CopyMove) (kept : List Byte) (s : State) : Bool × List Byte × State :=
  match m with
  | .reset => let r := hostReset s; (r.1, kept, r.2)
  | .write v => (true, kept, hostWriteByte v s)
  | .read => let r := hostReadByte s; (true, kept ++ [r.1], r.2)
  | .echo i => (true, kept, hostWriteByte (kept.getD i 0) s)
  | .verify mask value => let r := hostReadByte s; (decide (r.1 &&& mask = value &&& mask), kept, r.2)
  | .delay us => (true, kept, hostDelay us s)

/-- Moves one after another, until one fails. -/
def copyMoves : List CopyMove → List Byte → State → Bool × List Byte × State
  | [], kept, s => (true, kept, s)
  | m :: ms, kept, s =>
    let r := copyMove m kept s
    if r.1 then copyMoves ms r.2.1 r.2.2 else r

/-- The DS1971 write-copy up to the comparison, R272 (a), (b): reset, ROM-level command, the scratchpad
write carrying `data`, the read-back. It answers whether all of it worked and the bytes are the same,
and the bytes kept on the way. The result of the comparison is in `q_mismatch` as that of R267 is (R36;
DESIGN CHOICE, log entry 39). -/
def copyToCompare (f : CopyFrame) (data : List Byte) (s : State) : Bool × List Byte × State :=
  let r := hostReset s
  if r.1 then
    let s1 := (hostReadBytes f.romReads (hostWriteBytes (f.romCommand.map (·.val)) r.2)).2
    let r1 := copyMoves (f.readBackHead.map HeadMove.toCopy) []
      (hostWriteBytes (f.writeHead.map (·.val) ++ data) s1)
    if r1.1 then
      let rb := hostReadBytes data.length r1.2.2
      (decide (rb.1 = data), r1.2.1, { rb.2 with qMismatch := decide (rb.1 ≠ data) })
    else r1
  else (false, [], r.2)

/-- The copy step of the DS1971, ending with 0xA5 and 250 us, and the final verification (R272 d, e). -/
def copyAfterCompare (f : CopyFrame) (kept : List Byte) (s : State) : Bool × State :=
  let r := copyMoves f.copyHead kept s
  gate (r.1, r.2.2) fun s =>
  let q := copyMoves f.finalCheck r.2.1 (frameDs1971Finalization s)
  (q.1, q.2.2)

/-- The DS1971 write-copy of `MEM[0..31]`, R272, for any value `f` of the open parameter: the copy step
is reached only by an equal read-back. -/
def writeCopyDs1971 (f : CopyFrame) (s : State) : Bool × State :=
  let r := copyToCompare f (s.memBytes 0 32) s
  gate (r.1, r.2.2) (copyAfterCompare f r.2.1)

/-- A command of the running sequence, the rows of R97: it is sent in role `Host` alone. A sub-step
that returns false ends the sequence (R260); log entry 20. -/
def hostCommand (run : State → Bool × State) (s : State) : Host.Outcome State Fault Refusal :=
  if s.role ≠ .host then .next s
  else
    let r := run s
    .next (if r.1 then r.2 else { r.2 with qStep := [] })

/-- The end of a sequence that has no sub-step left: `role` goes back to `Off` (R335). -/
def closeSequence (s : State) : State :=
  if s.role = .host ∧ s.qStep = [] then endHost s else s

/-! ## Exceptions -/

/-- `raise ContractViolation(WRITE_MEM_SIZE)`: the entry into the fault state, R322. -/
def raiseContract (s : State) : State :=
  refuse .fault { s with fault := true, faultCode := .writeMemSize, role := .off }

/-- The state that hardware reset leaves (R42, R350). `ROM`, `AREGS` and `MEM` are unspecified: free
values of this reset (R41; log entry 7). The world outside goes on; the records of the wire stay. -/
def hardwareReset (s : State) : State :=
  let n := s.epoch + 1
  { State.reset with
    rom := #v[Config.romAfterReset n 0, Config.romAfterReset n 1, Config.romAfterReset n 2,
              Config.romAfterReset n 3, Config.romAfterReset n 4, Config.romAfterReset n 5,
              Config.romAfterReset n 6, Config.romAfterReset n 7]
    aregs := #v[Config.aregsAfterReset n 0, Config.aregsAfterReset n 1, Config.aregsAfterReset n 2]
    famIn := s.famIn
    cmdBytes := s.cmdBytes
    inputs := s.inputs
    oracle := s.oracle
    wire := s.wire
    line := s.line
    epoch := n }

/-- How many answers of the peer these events have used (R152, R154). -/
def answersUsed : List WireEvent → Nat
  | [] => 0
  | .hReset _ :: es => answersUsed es + 1
  | .hRead _ :: es => answersUsed es + 1
  | _ :: es => answersUsed es

/-- Hardware reset in the middle of the operation that would lead from `s` to `t` (R350): the first
`events` wire events of the operation have happened, and `pieces` pieces of the waveform of the
next; the rest is abandoned and the line is let go. -/
def cutByReset (events pieces : Nat) (s t : State) : State :=
  let newWire := (t.wire.take (t.wire.length - s.wire.length)).reverse
  let newLine := (t.line.take (t.line.length - s.line.length)).reverse
  let done := newWire.take events
  let rest := ((newLine.drop events).headD []).take pieces
  hardwareReset { s with
    oracle := s.oracle.drop (answersUsed done)
    wire := done.reverse ++ s.wire
    line := (if rest = [] then [] else [rest]) ++ (newLine.take events).reverse ++ s.line }

/-- `ResetRule(is_short)` of the family's class, R221 to R223: whether the block goes on listening. -/
def resetRule (isShort : Bool) (s : State) : Bool × State :=
  match familyOf s.fam with
  | some .ds1996 => (true, { s with odSlave := false, cmdState := .idle })
  | some .ds1971 | some .ds1992 =>
    if !isShort || Config.shortResetAccepted then (true, { s with cmdState := .idle })
    else (false, s)
  | _ => (!isShort || Config.shortResetAccepted, s)

/-- The presence pulse, R199, at the speed in force after the reset rule. -/
def presencePulse (s : State) : State :=
  emit .sPresence (presenceWave (Config.tSlave s.odSlave)) { s with slPhase := .presence }

/-- The engine waits for a reset: nothing of a command or response is left. -/
def waitForReset (s : State) : State :=
  { s with slPhase := .waitReset, task := .none, sFramer := {} }

/-- The engine waits for a command byte. -/
def waitForCommand (s : State) : State :=
  { s with slPhase := .recvCmd, task := .none, sFramer := {} }

/-- TAKING THE BUS RESET, the block's one interrupt (R198 HANDLE_RESET, R325 to R329): what was going
on is dropped and nothing is saved; the reset rule of the family runs; if it accepts, the presence
pulse follows and the engine waits for a command, else for the next reset. There is no return
from it (R328). -/
def takeBusReset (isShort : Bool) (s : State) : State :=
  let s1 := { emit (.sReset isShort) [] s with slErr := .none, task := .none, sFramer := {} }
  let r := resetRule isShort s1
  if r.1 then waitForCommand (presencePulse r.2) else waitForReset r.2

/-! ## The slave framer and its engine -/

/-- `s_timer` has measured `t` microseconds of the wait for a falling edge (R35, R204). -/
def waited (t : BitVec 16) (s : State) : State := { s with sFramer := { s.sFramer with timer := t } }

/-- What an input on the line is to the slave framer (R190, R197, R204, R206): the action of the slot level
that it makes, if any, and the state with the wait timed. An action ends the wait; a quiet time that
makes none adds to it, and the sum is at most `WAIT_MAX`, so that it fits the timer (DESIGN CHOICE, log
entry 40). -/
def hear (p : PeerInput) (s : State) : Option PeerAction × State :=
  match p with
  | .act a => (some a, waited 0 s)
  | .low us => (some (classifyLow (Config.tSlave false) (Config.tSlave true) s.odSlave us), waited 0 s)
  | .quiet us =>
    let l := s.sFramer.timer.toNat + us
    match classifyQuiet (Config.tSlave s.odSlave) l with
    | some a => (some a, waited 0 s)
    | none => (none, waited (BitVec.ofNat 16 l) s)

/-- `SlSendBit(b)`, R192, on the peer's next action. In a slot that fails the block draws nothing, for R192
says that nothing is sent, though the machine of R204 would pull for `HOLD0` from the falling edge of
the reset pulse on if `b` = 0 (DESIGN CHOICE, log entry 38). -/
def slSendBit (b : Bool) (a : PeerAction) (s : State) : Bool × State :=
  match a with
  | .slot _ =>
    (true, emit (.sSend b true) (sendWave (Config.tSlave s.odSlave) b) { s with slErr := .none })
  | .resetStd =>
    (false, emit (.sSend b false) [] { s with slErr := .resetInProgress, slRstShort := false })
  | .resetShort =>
    (false, emit (.sSend b false) [] { s with slErr := .resetInProgress, slRstShort := true })
  | .silence => (false, emit (.sSend b false) [] { s with slErr := .timeout })

/-- `SlReceiveBit()`, R193: success, the bit, the state. -/
def slReceiveBit (a : PeerAction) (s : State) : Bool × Bool × State :=
  match a with
  | .slot m => (true, m, emit (.sRecv m true) [] { s with slErr := .none })
  | .resetStd =>
    (false, false, emit (.sRecv false false) [] { s with slErr := .resetInProgress, slRstShort := false })
  | .resetShort =>
    (false, false, emit (.sRecv false false) [] { s with slErr := .resetInProgress, slRstShort := true })
  | .silence => (false, false, emit (.sRecv false false) [] { s with slErr := .timeout })

/-- `SlSetOverdrive(b)`, R196. -/
def slSetOverdrive (b : Bool) (s : State) : State := { s with odSlave := b }

/-- After the command rule returned `chain` (R198). -/
def endCommand (chain : Bool) (s : State) : State :=
  if chain then waitForCommand s else waitForReset s

/-- After a primitive failed (R198, R203): a reset is handled, a silence ends the command without a
chain. -/
def slaveFailed (s : State) : State :=
  if s.slErr = .resetInProgress then takeBusReset s.slRstShort s else waitForReset s

/-- Load the next byte to send (R204). -/
def loadByte (v : Byte) (t : SlaveTask) (s : State) : State :=
  { s with task := t, sFramer := { sh := v, bitcnt := 0, timer := 0 } }

/-- A bit has been sent: shift and count (R204). -/
def shiftSent (s : State) : State :=
  { s with sFramer := { sh := s.sFramer.sh >>> 1, bitcnt := s.sFramer.bitcnt + 1, timer := 0 } }

/-- A bit has arrived: shift it in and count (R204). -/
def shiftReceived (b : Bool) (s : State) : State :=
  { s with sFramer := { sh := shiftIn b s.sFramer.sh, bitcnt := s.sFramer.bitcnt + 1, timer := 0 } }

/-- Bit `k` of the 64 bits of the record (R101, R102). -/
def State.romBit (s : State) (k : Nat) : Bool := (s.romAt (k / 8)).getLsbD (k % 8)

/-- Send one bit of a response in the peer's next action, and go on with `k` if the slot took place. -/
def sendSlot (b : Bool) (a : PeerAction) (k : State → State) (s : State) : State :=
  let r := slSendBit b a s
  if r.1 then k r.2 else slaveFailed r.2

/-- Receive one bit in the peer's next action, and go on with `k` if the slot took place. -/
def receiveSlot (a : PeerAction) (k : Bool → State → State) (s : State) : State :=
  let r := slReceiveBit a s
  if r.1 then k r.2.1 r.2.2 else slaveFailed r.2.2

/-- The address of a memory read has arrived: the range check of R235 and the first byte. -/
def startMemoryStream (addr : Nat) (s : State) : State :=
  if addr < memSize s.fam then loadByte (s.memAt addr) (.sendMem addr) s else endCommand false s

/-- One slot of the responder `emulate_search_rom`, R233. The choice bit is not examined (D22). -/
def searchSlot (k : Nat) (part : TripletPart) (chain : Bool) (a : PeerAction) (s : State) : State :=
  match part with
  | .bit => sendSlot (s.romBit k) a (fun s => { s with task := .search k .complement chain }) s
  | .complement => sendSlot (!s.romBit k) a (fun s => { s with task := .search k .choice chain }) s
  | .choice =>
    receiveSlot a
      (fun _ s => if k + 1 < 64 then { s with task := .search (k + 1) .bit chain } else endCommand chain s) s

/-- One slot of the responder `emulate_read_rom`, R234. -/
def sendRomSlot (k : Nat) (chain : Bool) (a : PeerAction) (s : State) : State :=
  sendSlot (s.sFramer.sh.getLsbD 0) a (fun s =>
    let s := shiftSent s
    if s.sFramer.bitcnt = 8 then
      if k + 1 < 8 then loadByte (s.romAt (k + 1)) (.sendRom (k + 1) chain) s else endCommand chain s
    else s) s

/-- One slot of the address phase of `emulate_read_mem`, R235. -/
def recvAddrSlot (lo : Option Byte) (a : PeerAction) (s : State) : State :=
  receiveSlot a (fun b s =>
    let s := shiftReceived b s
    if s.sFramer.bitcnt = 8 then
      match lo with
      | none => { s with task := .recvAddr (some s.sFramer.sh), sFramer := {} }
      | some v => startMemoryStream (addrOf v s.sFramer.sh) s
    else s) s

/-- One slot of the stream of `emulate_read_mem`, R235: to the end of the buffer. -/
def sendMemSlot (addr : Nat) (a : PeerAction) (s : State) : State :=
  sendSlot (s.sFramer.sh.getLsbD 0) a (fun s =>
    let s := shiftSent s
    if s.sFramer.bitcnt = 8 then
      if addr + 1 < memSize s.fam then loadByte (s.memAt (addr + 1)) (.sendMem (addr + 1)) s
      else endCommand false s
    else s) s

/-- One peer action while a responder runs (R203, R233 to R235). -/
def slaveSlot (a : PeerAction) (s : State) : State :=
  match s.task with
  | .none => waitForReset s
  | .search k part chain => searchSlot k part chain a s
  | .sendRom k chain => sendRomSlot k chain a s
  | .recvAddr lo => recvAddrSlot lo a s
  | .sendMem addr => sendMemSlot addr a s

/-- A response over what the peer does next: the peer's inputs at the head of `ins` are taken one by one
as long as the responder runs; any other input, or the end of the list, leaves it where it stands
(log entry 4). -/
def runResponse : List Input → State → State
  | [], s => { s with inputs := [] }
  | .line p :: rest, s =>
    if s.slPhase = .respond then
      match hear p s with
      | (some a, s) => runResponse rest (slaveSlot a s)
      | (none, s) => runResponse rest s
    else { s with inputs := .line p :: rest }
  | i :: rest, s => { s with inputs := i :: rest }

/-- Start a responder and run it over the peer's next actions. -/
def startResponse (t : SlaveTask) (s : State) : State :=
  runResponse s.inputs { s with slPhase := .respond, task := t }

/-- A command received in slave role (R224 to R232): where it is accepted it acts; where it is not,
there is no response, the state is the same and the chain ends (R99). Outside role `Slave` no
command is received (log entry 25). -/
def busCommand (accepted : Bool) (act : State → State) (s : State) : Host.Outcome State Fault Refusal :=
  if s.role ≠ .slave then .next s
  else if accepted then .next (act s)
  else .next (endCommand false s)

/-- What a peer action is to the engine while it waits for a command byte (R198 RECV_CMD): a new state,
or the byte of a complete command and the state in which the command rule runs. -/
inductive Received where
  | going (s : State)
  | command (c : Byte) (s : State)

/-- One peer action in RECV_CMD (R195, R198). -/
def receiveCommandBit (a : PeerAction) (s : State) : Received :=
  let r := slReceiveBit a s
  if r.1 then
    let s := shiftReceived r.2.1 r.2.2
    if s.sFramer.bitcnt = 8 then
      .command s.sFramer.sh { s with slPhase := .respond, sFramer := {} }
    else .going s
  else .going (slaveFailed r.2.2)

/-- One peer action in WAIT_RESET (R198): a reset is taken, slots and silence are ignored. -/
def waitResetAction (a : PeerAction) (s : State) : State :=
  match a with
  | .resetStd => takeBusReset false s
  | .resetShort => takeBusReset true s
  | .slot _ => s
  | .silence => s

/-! ## The fetch -/

/-- The state in which a code is what the next step runs (log entry 22): a port operation waits on the
command port; a bus command has all but its last bit received in a session; a host command is the
sub-step that comes next. -/
def placeCode (c : Code) (s : State) : State :=
  match c with
  | .port _ w => { s with qStep := [], inputs := .port w :: s.inputs }
  | .bus f st b =>
    { s with
      qStep := []
      role := .slave
      emuInstalled := true
      famHeld := f
      cmdState := st
      slPhase := .recvCmd
      task := .none
      sFramer := { sh := b <<< 1, bitcnt := 7, timer := 0 }
      inputs := .line (.act (.slot (b.getLsbD 7))) :: s.inputs }
  | .host f => { s with role := .host, qStep := [f] }

end Sys2Proof.Machine
end

