-- ==== Sys2Proof/Machine/BlankWriter.lean ====
section
/-! DEFINITION. The meanings of the blank writers `BW.*` and of `FAM.WRITE_ID`
(spec/45_blank_writers.md R302 to R305). -/

namespace Sys2Proof.Machine

/-- `BW.RW1990_V1`, R302. -/
def execBwRw1990V1 (din : List Byte) (s : State) : Host.Outcome State Fault Refusal :=
  hostOp true (fun s => let r := writeV1 din s; reply r.1 0 [] r.2) s

/-- `BW.RW1990_V2`, R303. -/
def execBwRw1990V2 (din : List Byte) (s : State) : Host.Outcome State Fault Refusal :=
  hostOp true (fun s => let r := writeV2 din s; reply r.1 0 [] r.2) s

/-- `BW.TM2004`, R304. -/
def execBwTm2004 (din : List Byte) (s : State) : Host.Outcome State Fault Refusal :=
  hostOp true (fun s => let r := writeTm2004 din s; reply r.1 0 [] r.2) s

/-- Check 4 of R324 for `FAM.WRITE_ID`: DS1992 and the reserved values have none (R305, D30; log
entry 16). -/
def writeIdSupported (s : State) : Bool :=
  match familyOf s.fam with
  | some .ds1992 => Config.ds1992WriteIdEnabled
  | some _ => true
  | none => false

/-- The writers of a family in their order, the first success wins (R7, R305). -/
def writeId (sel : FamSel) (s : State) : Bool × State :=
  let d := s.rom.toList
  match familyOf sel with
  | some .ds1990 | some .ds1420 =>
    orElse (orElse (writeV1 d s) fun s => writeV2 d s) fun s => writeTm2004 d s
  | _ => writeTm2004 d s

/-- `FAM.WRITE_ID`, R305. -/
def execFamWriteId (s : State) : Host.Outcome State Fault Refusal :=
  let sel := s.fam
  hostOp (writeIdSupported s) (fun s => let r := writeId sel s; reply r.1 0 [] r.2) s

end Sys2Proof.Machine
end

