-- ==== Sys2Proof/Machine/CrcUnit.lean ====
section
/-! DEFINITION. The meanings of `NOP`, the `CRC.*` operations, `ROM.VALID` and `ROM.APPLY`
(spec/40_crc.md R124 to R130, R137), and of the reserved operation selects (spec/30_encoding.md R93). -/

namespace Sys2Proof.Machine

/-- `NOP`, R137. -/
def execNop (s : State) : Host.Outcome State Fault Refusal :=
  portOp .always true true (fun s => reply true 0 [] s) s

/-- `CRC.CLR`, R124. -/
def execCrcClr (s : State) : Host.Outcome State Fault Refusal :=
  portOp .always true true (fun s => reply true 0 [] { s with crc := 0x00 }) s

/-- `CRC.BIT`, R125. -/
def execCrcBit (d : Bool) (s : State) : Host.Outcome State Fault Refusal :=
  portOp .always true true
    (fun s => let c := crc8Bit s.crc d; reply true c [] { s with crc := c }) s

/-- `CRC.BYTE`, R126. -/
def execCrcByte (d : Byte) (s : State) : Host.Outcome State Fault Refusal :=
  portOp .always true true
    (fun s => let c := crc8Byte s.crc d; reply true c [] { s with crc := c }) s

/-- `CRC.BUF`, R127: it starts from 0x00. -/
def execCrcBuf (din : List Byte) (s : State) : Host.Outcome State Fault Refusal :=
  portOp .always true true
    (fun s => let c := crc8Buf 0x00 din; reply true c [] { s with crc := c }) s

/-- `CRC.GET`, R128. -/
def execCrcGet (s : State) : Host.Outcome State Fault Refusal :=
  portOp .always true true (fun s => reply true s.crc [] s) s

/-- `ROM.VALID`, R129: `ok` is the verdict, `status` is `OK` either way. -/
def execRomValid (s : State) : Host.Outcome State Fault Refusal :=
  portOp .always true true
    (fun s => let c := romCrc s.rom; replyVerdict (c == s.romAt 7) c { s with crc := c }) s

/-- `ROM.APPLY`, R130: `ROM[0]`, then the checksum over the first seven bytes into `ROM[7]`. -/
def execRomApply (d : Byte) (s : State) : Host.Outcome State Fault Refusal :=
  portOp .notSlave true true
    (fun s =>
      let s := storeRom 0 d s
      let c := romCrc s.rom
      reply true c [] { storeRom 7 c s with crc := c }) s

/-- Every reserved operation select, R93, R324 check 2: refused after the fault check, before every
other. -/
def execReservedOpsel (_op : Byte) (s : State) : Host.Outcome State Fault Refusal :=
  portOp .always true true (fun s => refuse .errIllegalOp s) s

end Sys2Proof.Machine
end

