-- ==== Sys2Proof/Machine/Dispatcher.lean ====
section
/-! DEFINITION. The meanings of the bus commands received in slave role (spec/43_emulation_dispatcher.md
R225 to R232): `CommandRule` row by row of R236. A row acts where its condition holds; elsewhere the
command gets no response (R99; log entry 19). -/

namespace Sys2Proof.Machine

/-- SEARCH_ROM from `Idle`, R225: `cmd_state` first (D21), then the search answer. -/
def execSearchRom (s : State) : Host.Outcome State Fault Refusal :=
  busCommand (s.stateful && s.cmdState == .idle)
    (fun s => startResponse (.search 0 .bit true) { s with cmdState := .romCommandAccepted }) s

/-- The memory read, 0xF0 in `RomCommandAccepted`, R225, R235. -/
def execReadMem (s : State) : Host.Outcome State Fault Refusal :=
  busCommand (s.stateful && s.cmdState == .romCommandAccepted)
    (fun s => startResponse (.recvAddr none)
      { s with cmdState := .memoryCommandAccepted, sFramer := {} }) s

/-- 0xF0 in `MemoryCommandAccepted`, R225: ignored. -/
def execSearchRomRefused (s : State) : Host.Outcome State Fault Refusal :=
  busCommand false (fun s => s) s

/-- READ_ROM from `Idle`, R226, R234. -/
def execReadRom (s : State) : Host.Outcome State Fault Refusal :=
  busCommand (s.stateful && s.cmdState == .idle)
    (fun s => startResponse (.sendRom 0 true)
      { s with cmdState := .romCommandAccepted, sFramer := { sh := s.romAt 0 } }) s

/-- READ_ROM in another state, R226: ignored. -/
def execReadRomRefused (s : State) : Host.Outcome State Fault Refusal :=
  busCommand false (fun s => s) s

/-- SKIP_ROM, R227: no response bytes. -/
def execSkipRom (s : State) : Host.Outcome State Fault Refusal :=
  busCommand (s.stateful && s.cmdState == .idle)
    (fun s => endCommand true { s with cmdState := .romCommandAccepted }) s

/-- OVERDRIVE_SKIP_ROM, R228, DS1996 alone. -/
def execOverdriveSkipRom (s : State) : Host.Outcome State Fault Refusal :=
  busCommand (familyOf s.fam == some .ds1996 && s.cmdState == .idle)
    (fun s => endCommand true { slSetOverdrive true s with cmdState := .romCommandAccepted }) s

/-- Any other byte, stateful families, R229. -/
def execUnrecognisedStateful (_c : Byte) (s : State) : Host.Outcome State Fault Refusal :=
  busCommand false (fun s => s) s

/-- SEARCH_ROM, stateless families, R230. -/
def execSearchRomStateless (s : State) : Host.Outcome State Fault Refusal :=
  busCommand s.stateless (fun s => startResponse (.search 0 .bit false) s) s

/-- READ_ROM, stateless families, R231. -/
def execReadRomStateless (s : State) : Host.Outcome State Fault Refusal :=
  busCommand s.stateless
    (fun s => startResponse (.sendRom 0 false) { s with sFramer := { sh := s.romAt 0 } }) s

/-- Any other byte, stateless families, R232. -/
def execAnyOtherStateless (_c : Byte) (s : State) : Host.Outcome State Fault Refusal :=
  busCommand false (fun s => s) s

end Sys2Proof.Machine
end

