-- ==== Sys2Proof/Machine/Emulate.lean ====
section
/-! DEFINITION. The meanings of `EMU.START` and `EMU.STOP` (spec/42_framer_slave.md R200, R201). -/

namespace Sys2Proof.Machine

/-- `EMU.START`, R200: a session is installed with the sampled `fam` (R37). -/
def execEmuStart (s : State) : Host.Outcome State Fault Refusal :=
  portOp .offOnly (familyOf s.fam).isSome true
    (fun s => reply true 0 []
      { s with
        role := .slave
        emuInstalled := true
        famHeld := s.famIn
        cmdState := .idle
        odSlave := false
        slErr := .none
        slRstShort := false
        slPhase := .waitReset
        task := .none
        sFramer := {} }) s

/-- `EMU.STOP`, R201: a response in progress is abandoned. -/
def execEmuStop (s : State) : Host.Outcome State Fault Refusal :=
  portOp .slaveOnly true true
    (fun s => reply true 0 []
      { s with
        role := .off
        emuInstalled := false
        odSlave := false
        slPhase := .off
        owPull := false
        task := .none
        sFramer := {} }) s

end Sys2Proof.Machine
end

