-- ==== Sys2Proof/Machine/HostCommands.lean ====
section
/-! DEFINITION. The meanings of the command bytes the block sends in host role (spec/30_encoding.md R97):
the byte and what follows it on the wire (R100), as one sub-step of a sequence. The operations of
Sequencer.lean and BlankWriter.lean are built of the same frames. Log entry 20. -/

namespace Sys2Proof.Machine

/-- 0x33 READ_ROM, R262. -/
def execHostReadRom (s : State) : Host.Outcome State Fault Refusal :=
  hostCommand (fun s => (true, frameReadRom s)) s

/-- 0x0F WRITE_SCRATCH, R263. -/
def execHostWriteScratch (a : Half) (data : List Byte) (s : State) : Host.Outcome State Fault Refusal :=
  hostCommand (fun s => (true, frameWriteScratch a data s)) s

/-- 0xAA READ_SCRATCH, R264: the payload goes to `dout`. -/
def execHostReadScratch (len : Half) (s : State) : Host.Outcome State Fault Refusal :=
  hostCommand (fun s => let r := frameReadScratch len.toNat s; (true, { r.2 with dout := r.1 })) s

/-- 0x55 COPY_SCRATCH, R265. -/
def execHostCopyScratch (t : Micros) (s : State) : Host.Outcome State Fault Refusal :=
  hostCommand (fun s => frameCopyScratch t s) s

/-- 0xF0 READ_MEM, R266: the payload goes to `dout`. -/
def execHostReadMem (a len : Half) (s : State) : Host.Outcome State Fault Refusal :=
  hostCommand (fun s => let r := frameReadMem a len.toNat s; (true, { r.2 with dout := r.1 })) s

/-- `CMD_SKIP_ROM`, R261. -/
def execHostSkipRom (s : State) : Host.Outcome State Fault Refusal :=
  hostCommand (fun s => (true, frameSkipRom s.cmdBytes s)) s

/-- `CMD_OVERDRIVE_SKIP_ROM`, R269: then the block switches to overdrive. -/
def execHostOverdriveSkipRom (s : State) : Host.Outcome State Fault Refusal :=
  hostCommand (fun s => (true, frameOverdriveSkipRom s.cmdBytes s)) s

/-- 0xA5, the DS1971 finalization, R272 (d). -/
def execHostDs1971Finalization (s : State) : Host.Outcome State Fault Refusal :=
  hostCommand (fun s => (true, frameDs1971Finalization s)) s

/-- 0xD1, R302: bit 0 unlocks, bit 1 locks. -/
def execHostRw1990V1UnlockLock (bit : Bool) (s : State) : Host.Outcome State Fault Refusal :=
  hostCommand (fun s => (true, frameV1Lock bit s)) s

/-- 0xD5, R302, R303: the data bytes as they go on the wire. -/
def execHostRw1990WriteCommand (data : List Byte) (s : State) : Host.Outcome State Fault Refusal :=
  hostCommand (fun s => (true, frameRwWrite data s)) s

/-- 0x1D, R303: bit 1 unlocks, bit 0 locks. -/
def execHostRw1990V2UnlockLock (bit : Bool) (s : State) : Host.Outcome State Fault Refusal :=
  hostCommand (fun s => (true, frameV2Lock bit s)) s

/-- 0x1E, "unused here", R303: it is never sent, so nothing happens on the line (log entry 21). -/
def execHostRw1990V2Unused (s : State) : Host.Outcome State Fault Refusal :=
  hostCommand (fun s => (true, s)) s

/-- 0x3C, the TM2004 write command, R304. -/
def execHostTm2004Write (data : List Byte) (s : State) : Host.Outcome State Fault Refusal :=
  hostCommand (fun s => frameTm2004 data s) s

end Sys2Proof.Machine
end

