-- ==== Sys2Proof/Machine/HostFraming.lean ====
section
/-! DEFINITION. The meanings of the host framer's port operations `OW.*` (spec/41_framer_host.md R161 to
R169): each runs between the two writes of `role` and is refused in role `Slave` (R335). -/

namespace Sys2Proof.Machine

/-- `OW.RESET`, R161: `ok` is the presence answer. -/
def execOwReset (s : State) : Host.Outcome State Fault Refusal :=
  hostOp true (fun s => let r := hostReset s; reply r.1 0 [] r.2) s

/-- `OW.WBIT`, R162. -/
def execOwWbit (d : Bool) (s : State) : Host.Outcome State Fault Refusal :=
  hostOp true (fun s => reply true 0 [] (hostWriteBit d s)) s

/-- `OW.RBIT`, R163: the bit is in `rdata[0]`. -/
def execOwRbit (s : State) : Host.Outcome State Fault Refusal :=
  hostOp true (fun s => let r := hostReadBit s; reply true (bitByte r.1) [] r.2) s

/-- `OW.WBYTE`, R164. -/
def execOwWbyte (d : Byte) (s : State) : Host.Outcome State Fault Refusal :=
  hostOp true (fun s => reply true 0 [] (hostWriteByte d s)) s

/-- `OW.RBYTE`, R165. -/
def execOwRbyte (s : State) : Host.Outcome State Fault Refusal :=
  hostOp true (fun s => let r := hostReadByte s; reply true r.1 [] r.2) s

/-- `OW.WBYTES`, R166. -/
def execOwWbytes (din : List Byte) (s : State) : Host.Outcome State Fault Refusal :=
  hostOp true (fun s => reply true 0 [] (hostWriteBytes din s)) s

/-- `OW.RBYTES`, R167. -/
def execOwRbytes (len : Half) (s : State) : Host.Outcome State Fault Refusal :=
  hostOp true (fun s => let r := hostReadBytes len.toNat s; reply true 0 r.1 r.2) s

/-- `OW.SETOD`, R168. -/
def execOwSetod (d : Bool) (s : State) : Host.Outcome State Fault Refusal :=
  hostOp true (fun s => reply true 0 [] (hostSetOverdrive d s)) s

/-- `OW.DELAY`, R169. -/
def execOwDelay (t : Micros) (s : State) : Host.Outcome State Fault Refusal :=
  hostOp true (fun s => reply true 0 [] (hostDelay t.toNat s)) s

end Sys2Proof.Machine
end

