-- ==== Sys2Proof/Machine/Sequencer.lean ====
section
/-! DEFINITION. The meanings of the host sequences `SEQ.*` and of the family operations `FAM.READ` and
`FAM.WRITE_COPY` (spec/44_host_sequences.md R261 to R273). -/

namespace Sys2Proof.Machine

/-- `SEQ.SKIP_ROM`, R261. -/
def execSeqSkipRom (s : State) : Host.Outcome State Fault Refusal :=
  hostOp true (fun s => reply true 0 [] (frameSkipRom s.cmdBytes s)) s

/-- `SEQ.READ_ROM`, R262: `ROM` is written in any case, `ok` is `presence`. -/
def execSeqReadRom (s : State) : Host.Outcome State Fault Refusal :=
  hostOp true (fun s => let s := frameReadRom s; reply s.presence 0 [] s) s

/-- `SEQ.WRITE_SCRATCH`, R263. -/
def execSeqWriteScratch (a : Half) (din : List Byte) (s : State) : Host.Outcome State Fault Refusal :=
  hostOp true (fun s => reply true 0 [] (frameWriteScratch a din s)) s

/-- `SEQ.READ_SCRATCH`, R264. -/
def execSeqReadScratch (len : Half) (s : State) : Host.Outcome State Fault Refusal :=
  hostOp true (fun s => let r := frameReadScratch len.toNat s; reply true 0 r.1 r.2) s

/-- `SEQ.COPY_SCRATCH`, R265. -/
def execSeqCopyScratch (t : Micros) (s : State) : Host.Outcome State Fault Refusal :=
  hostOp true (fun s => let r := frameCopyScratch t s; reply r.1 0 [] r.2) s

/-- `SEQ.READ_MEM`, R266. -/
def execSeqReadMem (a len : Half) (s : State) : Host.Outcome State Fault Refusal :=
  hostOp true (fun s => let r := frameReadMem a len.toNat s; reply true 0 r.1 r.2) s

/-- `SEQ.WRITE_MEM`, R267: the contract is checked before any slot, after the role (R324). -/
def execSeqWriteMem (t : Micros) (pg : Half) (din : List Byte) (s : State) :
    Host.Outcome State Fault Refusal :=
  portOp .notSlave true true
    (fun s =>
      if writeMemContract pg din then
        let r := writeMem s.cmdBytes t pg.toNat din (beginHost s)
        endHost (reply r.1 0 [] r.2)
      else raiseContract s) s

/-- `FAM.READ` for every family but DS1996, R268. -/
def execFamRead (s : State) : Host.Outcome State Fault Refusal :=
  let n := memSize s.fam
  hostOp (familyOf s.fam).isSome
    (fun s =>
      let r := gate (hostReset s) fun s =>
        let s := frameReadRom s
        if 0 < n then
          let d := frameReadMem 0 n s
          (true, storeMem 0 d.1 d.2)
        else (true, s)
      reply r.1 0 [] r.2) s

/-- `FAM.READ` for DS1996, R269: the ROM at the speed in force, the memory inside the overdrive wrap. -/
def execFamReadDs1996 (s : State) : Host.Outcome State Fault Refusal :=
  hostOp (familyOf s.fam).isSome
    (fun s =>
      let r := overdriveOff <|
        gate (hostReset s) fun s =>
        gate (hostReset (frameReadRom s)) fun s =>
        let d := frameReadMem 0 8192 (frameOverdriveSkipRom s.cmdBytes s)
        (true, storeMem 0 d.1 d.2)
      reply r.1 0 [] r.2) s

/-- Check 4 of R324 for `FAM.WRITE_COPY`: the family has the operation (R273). -/
def writeCopySupported (s : State) : Bool :=
  match familyOf s.fam with
  | some f => hasWriteCopy f
  | none => false

/-- `FAM.WRITE_COPY` for DS1992, R270: 32 pages of 4 bytes. -/
def execFamWriteCopyDs1992 (t : Micros) (s : State) : Host.Outcome State Fault Refusal :=
  hostOp (writeCopySupported s)
    (fun s => let r := writeMem s.cmdBytes t 4 (s.memBytes 0 128) s; reply r.1 0 [] r.2) s

/-- `FAM.WRITE_COPY` for DS1996, R271: 256 pages of 32 bytes inside the overdrive wrap. -/
def execFamWriteCopyDs1996 (t : Micros) (s : State) : Host.Outcome State Fault Refusal :=
  hostOp (writeCopySupported s)
    (fun s =>
      let r := overdriveOff <|
        gate (hostReset s) fun s =>
        writeMem s.cmdBytes t 32 (s.memBytes 0 8192) (frameOverdriveSkipRom s.cmdBytes s)
      reply r.1 0 [] r.2) s

/-- `FAM.WRITE_COPY` for DS1971, R272, with the open parameter `DS1971_COPY_FRAME` (log entry 17). -/
def execFamWriteCopyDs1971 (_t : Micros) (s : State) : Host.Outcome State Fault Refusal :=
  hostOp (writeCopySupported s)
    (fun s => let r := writeCopyDs1971 Config.ds1971CopyFrame s; reply r.1 0 [] r.2) s

/-- `FAM.WRITE_COPY` for a family that lacks it, R273: refused, no line activity. -/
def execFamWriteCopyAbsent (_t : Micros) (s : State) : Host.Outcome State Fault Refusal :=
  hostOp false (fun s => s) s

end Sys2Proof.Machine
end

