-- ==== Sys2Proof/Machine/Storage.lean ====
section
/-! DEFINITION. The meanings of the byte access operations to `ROM`, `MEM` and `AREGS` (spec/40_crc.md
R131 to R136): a write is refused in role `Slave` (R335), an index or address out of range with
`ERR_RANGE` (spec/20_memory.md R69). -/

namespace Sys2Proof.Machine

/-- `ROM.WR`, R131: the checksum is not updated. -/
def execRomWr (a : Half) (d : Byte) (s : State) : Host.Outcome State Fault Refusal :=
  portOp .notSlave true (decide (a.toNat < 8)) (fun s => reply true 0 [] (storeRom a.toNat d s)) s

/-- `ROM.RD`, R132. -/
def execRomRd (a : Half) (s : State) : Host.Outcome State Fault Refusal :=
  portOp .always true (decide (a.toNat < 8)) (fun s => reply true (s.romAt a.toNat) [] s) s

/-- `MEM.WR`, R133. -/
def execMemWr (a : Half) (d : Byte) (s : State) : Host.Outcome State Fault Refusal :=
  portOp .notSlave true (decide (a.toNat < memSize s.fam))
    (fun s => reply true 0 [] (storeMem a.toNat [d] s)) s

/-- `MEM.RD`, R134. -/
def execMemRd (a : Half) (s : State) : Host.Outcome State Fault Refusal :=
  portOp .always true (decide (a.toNat < memSize s.fam))
    (fun s => reply true (s.memAt a.toNat) [] s) s

/-- `AREGS.WR`, R135. -/
def execAregsWr (a : Half) (d : Byte) (s : State) : Host.Outcome State Fault Refusal :=
  portOp .notSlave true (decide (a.toNat < 3)) (fun s => reply true 0 [] (storeAreg a.toNat d s)) s

/-- `AREGS.RD`, R136. -/
def execAregsRd (a : Half) (s : State) : Host.Outcome State Fault Refusal :=
  portOp .always true (decide (a.toNat < 3)) (fun s => reply true (s.aregAt a.toNat) [] s) s

end Sys2Proof.Machine
end

