-- ==== Sys2Proof/Machine/Dispatch.lean ====
section
/-! DEFINITION. The dispatch: one arm per constructor of `Instr`, each one direct call of its meaning. -/

namespace Sys2Proof.Machine

/-- The meaning of an instruction in a state. -/
def exec (i : Instr) (s : State) : Host.Outcome State Fault Refusal :=
  match i with
  | .nop => Sys2Proof.Machine.execNop s
  | .crcClr => Sys2Proof.Machine.execCrcClr s
  | .crcBit d => Sys2Proof.Machine.execCrcBit d s
  | .crcByte d => Sys2Proof.Machine.execCrcByte d s
  | .crcBuf din => Sys2Proof.Machine.execCrcBuf din s
  | .crcGet => Sys2Proof.Machine.execCrcGet s
  | .romWr a d => Sys2Proof.Machine.execRomWr a d s
  | .romRd a => Sys2Proof.Machine.execRomRd a s
  | .romValid => Sys2Proof.Machine.execRomValid s
  | .romApply d => Sys2Proof.Machine.execRomApply d s
  | .memWr a d => Sys2Proof.Machine.execMemWr a d s
  | .memRd a => Sys2Proof.Machine.execMemRd a s
  | .aregsWr a d => Sys2Proof.Machine.execAregsWr a d s
  | .aregsRd a => Sys2Proof.Machine.execAregsRd a s
  | .owReset => Sys2Proof.Machine.execOwReset s
  | .owWbit d => Sys2Proof.Machine.execOwWbit d s
  | .owRbit => Sys2Proof.Machine.execOwRbit s
  | .owWbyte d => Sys2Proof.Machine.execOwWbyte d s
  | .owRbyte => Sys2Proof.Machine.execOwRbyte s
  | .owWbytes din => Sys2Proof.Machine.execOwWbytes din s
  | .owRbytes len => Sys2Proof.Machine.execOwRbytes len s
  | .owSetod d => Sys2Proof.Machine.execOwSetod d s
  | .owDelay t => Sys2Proof.Machine.execOwDelay t s
  | .emuStart => Sys2Proof.Machine.execEmuStart s
  | .emuStop => Sys2Proof.Machine.execEmuStop s
  | .seqSkipRom => Sys2Proof.Machine.execSeqSkipRom s
  | .seqReadRom => Sys2Proof.Machine.execSeqReadRom s
  | .seqWriteScratch a din => Sys2Proof.Machine.execSeqWriteScratch a din s
  | .seqReadScratch len => Sys2Proof.Machine.execSeqReadScratch len s
  | .seqCopyScratch t => Sys2Proof.Machine.execSeqCopyScratch t s
  | .seqReadMem a len => Sys2Proof.Machine.execSeqReadMem a len s
  | .seqWriteMem t pg din => Sys2Proof.Machine.execSeqWriteMem t pg din s
  | .famRead => Sys2Proof.Machine.execFamRead s
  | .famReadDs1996 => Sys2Proof.Machine.execFamReadDs1996 s
  | .famWriteCopyDs1992 t => Sys2Proof.Machine.execFamWriteCopyDs1992 t s
  | .famWriteCopyDs1996 t => Sys2Proof.Machine.execFamWriteCopyDs1996 t s
  | .famWriteCopyDs1971 t => Sys2Proof.Machine.execFamWriteCopyDs1971 t s
  | .famWriteCopyAbsent t => Sys2Proof.Machine.execFamWriteCopyAbsent t s
  | .famWriteId => Sys2Proof.Machine.execFamWriteId s
  | .bwRw1990V1 din => Sys2Proof.Machine.execBwRw1990V1 din s
  | .bwRw1990V2 din => Sys2Proof.Machine.execBwRw1990V2 din s
  | .bwTm2004 din => Sys2Proof.Machine.execBwTm2004 din s
  | .reservedOpsel op => Sys2Proof.Machine.execReservedOpsel op s
  | .searchRom => Sys2Proof.Machine.execSearchRom s
  | .readMem => Sys2Proof.Machine.execReadMem s
  | .searchRomRefused => Sys2Proof.Machine.execSearchRomRefused s
  | .readRom => Sys2Proof.Machine.execReadRom s
  | .readRomRefused => Sys2Proof.Machine.execReadRomRefused s
  | .skipRom => Sys2Proof.Machine.execSkipRom s
  | .overdriveSkipRom => Sys2Proof.Machine.execOverdriveSkipRom s
  | .unrecognisedStateful c => Sys2Proof.Machine.execUnrecognisedStateful c s
  | .searchRomStateless => Sys2Proof.Machine.execSearchRomStateless s
  | .readRomStateless => Sys2Proof.Machine.execReadRomStateless s
  | .anyOtherStateless c => Sys2Proof.Machine.execAnyOtherStateless c s
  | .hostReadRom => Sys2Proof.Machine.execHostReadRom s
  | .hostWriteScratch a data => Sys2Proof.Machine.execHostWriteScratch a data s
  | .hostReadScratch len => Sys2Proof.Machine.execHostReadScratch len s
  | .hostCopyScratch t => Sys2Proof.Machine.execHostCopyScratch t s
  | .hostReadMem a len => Sys2Proof.Machine.execHostReadMem a len s
  | .hostSkipRom => Sys2Proof.Machine.execHostSkipRom s
  | .hostOverdriveSkipRom => Sys2Proof.Machine.execHostOverdriveSkipRom s
  | .hostDs1971Finalization => Sys2Proof.Machine.execHostDs1971Finalization s
  | .hostRw1990V1UnlockLock bit => Sys2Proof.Machine.execHostRw1990V1UnlockLock bit s
  | .hostRw1990WriteCommand data => Sys2Proof.Machine.execHostRw1990WriteCommand data s
  | .hostRw1990V2UnlockLock bit => Sys2Proof.Machine.execHostRw1990V2UnlockLock bit s
  | .hostRw1990V2Unused => Sys2Proof.Machine.execHostRw1990V2Unused s
  | .hostTm2004Write data => Sys2Proof.Machine.execHostTm2004Write data s

end Sys2Proof.Machine
end

