-- ==== Sys2Proof/Machine/Step.lean ====
section
/-! DEFINITION. One step of the block. What it takes is the next thing the outside world does, in the
order of `inputs` (log entry 3): a port operation, an action of the peer, a change of `fam`, a
hardware reset. In role `Slave` the engine's main loop is R198, one peer action a step, with a
response run over the peer actions that are waiting (log entry 4). -/

namespace Sys2Proof.Machine

/-- Decode under the command bytes in force, and run. -/
def runCode (c : Code) (s : State) : Host.Outcome State Fault Refusal :=
  match decode c s.cmdBytes with
  | .ok i => exec i s
  | .error .payloadLength => .fault .payloadLength
  | .error .notSent => .refused .notSent

/-- The outcome with a next state changed. -/
def mapNext (f : State → State) (o : Host.Outcome State Fault Refusal) :
    Host.Outcome State Fault Refusal :=
  match o with
  | .next t => .next (f t)
  | .fault r => .fault r
  | .refused r => .refused r

/-- One peer action in role `Slave` (R198). In SL_PRESENCE the pulse is over before the peer's next
action is taken (R329), so the action is that of RECV_CMD. -/
def slaveStep (a : PeerAction) (s : State) : Host.Outcome State Fault Refusal :=
  match s.slPhase with
  | .off | .waitReset => .next (waitResetAction a s)
  | .presence | .recvCmd =>
    match receiveCommandBit a s with
    | .going t => .next t
    | .command c t => runCode (.bus t.fam t.cmdState c) t
  | .respond => .next (runResponse s.inputs (slaveSlot a s))

/-- What the peer does on the line (R190). In the roles `Off` and `Host` the block does not watch it
(R325). -/
def lineStep (p : PeerInput) (s : State) : Host.Outcome State Fault Refusal :=
  if s.role = .slave then
    match hear p s with
    | (some a, s) => slaveStep a s
    | (none, s) => .next s
  else .next s

/-- The step of the block. -/
def step (s : State) : Host.Outcome State Fault Refusal :=
  match s.qStep with
  | f :: fs => mapNext closeSequence (runCode (.host f) { s with qStep := fs })
  | [] =>
    match s.inputs with
    | [] => .next s
    | .port w :: rest => runCode (.port s.fam w) { s with inputs := rest }
    | .line p :: rest => lineStep p { s with inputs := rest }
    | .fam sel :: rest => .next { s with inputs := rest, famIn := sel }
    | .rst :: rest => .next (hardwareReset { s with inputs := rest })
    | .portCut w events pieces :: rest =>
      let s1 := { s with inputs := rest }
      mapNext (cutByReset events pieces s1) (runCode (.port s.fam w) s1)

/-- The instruction of these bits placed where the next step fetches it (log entry 22). -/
def State.withFetchWord (s : State) (_nbits w : Nat) : State := placeCode (tableCode w s.cmdBytes) s

end Sys2Proof.Machine
end

