-- ==== Sys2Proof/Safety.lean ====
section
/-! DEFINITION. The terms in which claims about the block are stated: the invariant of the state between
two steps, what a list of wire events leaves behind, and the host sequences written as moves on the
wire (spec/30_encoding.md R100, spec/44_host_sequences.md, spec/45_blank_writers.md). -/

namespace Sys2Proof.Machine

/-! ## Wire events -/

/-- The waveform of a host-role event under a timing table (R171 to R173, R160). -/
def waveOf (t : HostTiming) : WireEvent → List LinePiece
  | .hReset _ => resetWave t
  | .hWrite b => writeWave t b
  | .hRead _ => readWave t
  | .hDelay us => [{ pull := false, us := us }]
  | .sReset _ | .sPresence | .sSend _ _ | .sRecv _ _ => []

/-- The state after these host-role events, oldest first, at the speed in force: they are recorded and
drawn, and the peer's answers they used are gone. -/
def played (es : List WireEvent) (s : State) : State :=
  { s with
    wire := es.reverse ++ s.wire
    line := (es.map (waveOf (Config.tHost s.odHost))).reverse ++ s.line
    oracle := s.oracle.drop (answersUsed es) }

/-- The presence answer of the last reset among these events, oldest first; `p` if there is none
(R29). -/
def lastPresence (p : Bool) : List WireEvent → Bool
  | [] => p
  | .hReset q :: es => lastPresence q es
  | _ :: es => lastPresence p es

/-- The microseconds of the delays among these events (R362, R363). -/
def delayTotal : List WireEvent → Nat
  | [] => 0
  | .hDelay us :: es => us + delayTotal es
  | _ :: es => delayTotal es

/-- The events that a step or an operation from `s` to `t` has added, oldest first. -/
def newEvents (s t : State) : List WireEvent :=
  (t.wire.take (t.wire.length - s.wire.length)).reverse

/-- The dwell of an RW1990 data byte, R301. -/
def rwByteEvents (b : Byte) : List WireEvent :=
  (bitsOf b).flatMap (fun k => [.hWrite k, .hDelay Config.tRwBit]) ++ [.hDelay Config.tRwByte]

/-- A host framer at rest: between two primitives only its shift register holds anything (R35). -/
abbrev HostFramer.Idle (h : HostFramer) : Prop := h.bitcnt = 0 ∧ h.phase = .idle ∧ h.timer = 0

/-- `t` is `u` but for the host framer and the sequencer's counters, which no rule observes (R35, R36);
and a host framer at rest is at rest again. -/
def SameButHidden (t u : State) : Prop :=
  ∃ h p i e m, t = { u with hFramer := h, qPage := p, qIdx := i, qElapsed := e, qMismatch := m } ∧
    (u.hFramer.Idle → h.Idle)

/-- What a host operation may run in: no fault, and no session (R324, R335). -/
abbrev HostReady (s : State) : Prop := s.fault = false ∧ s.role ≠ .slave

/-- Every register at the value that hardware reset gives it (R42), the hidden ones at zero (R35, R36; log
entry 11), `dout` empty (log entry 10), no family held (log entry 8). `ROM`, `AREGS` and `MEM` are unspecified. -/
structure AtReset (t : State) : Prop where
  crc : t.crc = 0x00
  command : t.cmdState = .idle
  role : t.role = .off
  speeds : t.odHost = false ∧ t.odSlave = false
  presence : t.presence = false
  response : t.status = .ok ∧ t.ok = false ∧ t.rdata = 0x00 ∧ t.dout = []
  fault : t.fault = false ∧ t.faultCode = .none
  slaveError : t.slErr = .none ∧ t.slRstShort = false
  session : t.emuInstalled = false ∧ t.famHeld = 0 ∧ t.slPhase = .off ∧ t.task = .none
  framers : t.hFramer = {} ∧ t.sFramer = {}
  sequencer : t.qStep = [] ∧ t.qPage = 0 ∧ t.qIdx = 0 ∧ t.qElapsed = 0 ∧ t.qMismatch = false
  line : t.owPull = false

/-! ## Refusals -/

/-- The table of R335 by operation select. -/
def roleAllows (op : Byte) (r : Role) : Bool :=
  if op ∈ ([0x00, 0x01, 0x02, 0x03, 0x04, 0x05, 0x09, 0x0A, 0x0D, 0x0F] : List Byte) then true
  else if op = 0x20 then decide (r = .off)
  else if op = 0x21 then decide (r = .slave)
  else decide (r ≠ .slave)

/-- Check 4 of R324: the selected family lacks the entry (R273, R305). -/
def familyLacks (op : Byte) (fam : FamSel) : Bool :=
  if op = 0x20 ∨ op = 0x38 then decide (familyOf fam = none)
  else if op = 0x39 then
    decide (familyOf fam ∉ [some .ds1971, some .ds1992, some .ds1996])
  else if op = 0x3A then decide (familyOf fam ∈ [none, some .ds1992])
  else false

/-- Check 5 of R324: the index or address is out of range (R69). -/
def outOfRange (op : Byte) (a : Half) (fam : FamSel) : Bool :=
  if op = 0x08 ∨ op = 0x09 then decide (7 < a.toNat)
  else if op = 0x0C ∨ op = 0x0D then decide (memSize fam ≤ a.toNat)
  else if op = 0x0E ∨ op = 0x0F then decide (2 < a.toNat)
  else false

/-- The refusals of R324 in their order, checks 1 to 5. -/
def firstRefusal (w : PortWord) (s : State) : Option Status :=
  if s.fault then some .fault
  else if w.opsel ∉ assignedSelects then some .errIllegalOp
  else if !roleAllows w.opsel s.role then some .errRole
  else if familyLacks w.opsel s.fam then some .errUnsupported
  else if outOfRange w.opsel w.a16 s.fam then some .errRange
  else none

/-! ## Host sequences as moves on the wire -/

/-- A move of a host sequence: what the block puts on the line or takes from it, and when that fails. -/
inductive Move where
  /-- A bus reset; without presence the sequence fails. -/
  | reset
  /-- Writes and delays. -/
  | say (es : List WireEvent)
  /-- So many bytes are read and not looked at. -/
  | skip (n : Nat)
  /-- Bytes are read and must be these. -/
  | expect (bytes : List Byte)
  /-- A byte is read and must be `value` under `mask`. -/
  | check (mask value : Byte)
  /-- Three bytes are read into `AREGS`. -/
  | readRegs
  /-- `AREGS` is written. -/
  | sayRegs
  /-- `AREGS[2][7]` must be 1. -/
  | authorized
  /-- The poll loop of R265. -/
  | poll (t : Micros)

/-- What a host sequence has come to: whether every move succeeded, the events so far (oldest first),
the answers the peer has left and `AREGS`. -/
structure Play where
  ok : Bool
  events : List WireEvent
  oracle : List Bool
  regs : List Byte
deriving DecidableEq, Repr

/-- The poll loop: read slots, each followed by the delay `poll`, until a 0 is read or `n` slots have
read 1. -/
def playPoll (poll : Nat) : Nat → List Bool → Bool × List WireEvent × List Bool
  | 0, o => (false, [], o)
  | n + 1, o =>
    if o.headD true then
      let r := playPoll poll n (o.drop 1)
      (r.1, .hRead true :: .hDelay poll :: r.2.1, r.2.2)
    else (true, [.hRead false], o.drop 1)

/-- One move from the peer's answers `o` and `AREGS`. -/
def playMove (m : Move) (o : List Bool) (regs : List Byte) : Play :=
  match m with
  | .reset => { ok := o.headD false, events := [.hReset (o.headD false)], oracle := o.drop 1, regs := regs }
  | .say es => { ok := true, events := es, oracle := o, regs := regs }
  | .skip n =>
    { ok := true, events := readEvents (nextBits (8 * n) o), oracle := o.drop (8 * n), regs := regs }
  | .expect bytes =>
    let bits := nextBits (8 * bytes.length) o
    { ok := decide (bytesOf bytes.length bits = bytes), events := readEvents bits
      oracle := o.drop (8 * bytes.length), regs := regs }
  | .check mask value =>
    let bits := nextBits 8 o
    { ok := decide (byteOf bits &&& mask = value &&& mask), events := readEvents bits
      oracle := o.drop 8, regs := regs }
  | .readRegs =>
    let bits := nextBits 24 o
    { ok := true, events := readEvents bits, oracle := o.drop 24, regs := bytesOf 3 bits }
  | .sayRegs => { ok := true, events := writeEvents regs, oracle := o, regs := regs }
  | .authorized => { ok := (regs.getD 2 0).getLsbD 7, events := [], oracle := o, regs := regs }
  | .poll t =>
    let r := playPoll (pollInterval t) (pollLimit t) o
    { ok := r.1, events := r.2.1, oracle := r.2.2, regs := regs }

/-- Moves one after another; the first that fails is the last. -/
def playMoves : List Move → List Bool → List Byte → Play
  | [], o, regs => { ok := true, events := [], oracle := o, regs := regs }
  | m :: ms, o, regs =>
    let a := playMove m o regs
    if a.ok then
      let b := playMoves ms a.oracle a.regs
      { b with events := a.events ++ b.events }
    else a

/-- The copy-scratchpad frame, R265. -/
def copyScratchMoves (t : Micros) : List Move := [.say (writeEvents [0x55]), .sayRegs, .poll t]

/-- A bus reset and the skip-ROM command, R267. -/
def skipMoves (b : CommandBytes) : List Move := [.reset, .say (writeEvents [b.skipRom])]

/-- One page of `write_mem`, R267: its four sub-steps. -/
def writePageMoves (b : CommandBytes) (t : Micros) (a : Half) (page : List Byte) : List Move :=
  skipMoves b ++ [.say (writeEvents ([0x0F, addrLo a, addrHi a] ++ page))] ++
  skipMoves b ++ [.say (writeEvents [0xAA]), .readRegs, .expect page] ++
  skipMoves b ++ copyScratchMoves t ++
  skipMoves b ++ [.say (writeEvents [0xAA]), .readRegs, .skip page.length, .authorized]

/-- `write_mem`, R267: the pages in ascending order, page `p` to address `p * pg`. -/
def writeMemMoves (b : CommandBytes) (t : Micros) (pg : Nat) (din : List Byte) : List Move :=
  (List.range (din.length / pg)).flatMap fun p => writePageMoves b t (pageAddr pg p) (pageOf pg din p)

/-- `Verify`, R306. -/
def verifyMoves (data : List Byte) : List Move :=
  [.reset, .say (writeEvents [0x33]), .expect data]

/-- `rw1990_write_v1`, R302. -/
def writeV1Moves (data : List Byte) : List Move :=
  [.reset, .say (writeEvents [0xD1] ++
     [.hDelay Config.tRwShort, .hWrite false, .hDelay Config.tRwBit]),
   .reset, .say (writeEvents [0xD5] ++ data.flatMap (fun b => rwByteEvents (~~~b))),
   .say (writeEvents [0xD1] ++ [.hWrite true, .hDelay Config.tRwLock])] ++ verifyMoves data

/-- `rw1990_write_v2`, R303. -/
def writeV2Moves (data : List Byte) : List Move :=
  [.reset, .say (writeEvents [0x1D] ++
     [.hDelay Config.tRwShort, .hWrite true, .hDelay Config.tRwBit]),
   .reset, .say (writeEvents [0xD5] ++ data.flatMap rwByteEvents),
   .say (writeEvents [0x1D] ++ [.hWrite false, .hDelay Config.tRwLock])] ++ verifyMoves data

/-- The exchange of one byte with a TM2004, R304. -/
def tmByteMoves (b : Byte) : List Move :=
  [.say (writeEvents [b]), .skip 1,
   .say [.hDelay Config.tTmPulse, .hWrite true, .hDelay Config.tTmByte], .expect [b]]

/-- The TM2004 write command and its exchange, R304. -/
def tmWriteMoves (data : List Byte) : List Move :=
  .say (writeEvents [0x3C, 0x00, 0x00]) :: data.flatMap tmByteMoves

/-- `tm2004_write`, R304. -/
def writeTm2004Moves (data : List Byte) : List Move := .reset :: tmWriteMoves data

/-- A move of the open DS1971 frame on its way to the comparison (R272). -/
def headMove : HeadMove → Move
  | .reset => .reset
  | .write v => .say (writeEvents [v.val])
  | .read => .skip 1
  | .verify mask value => .check mask value
  | .delay us => .say [.hDelay us]

/-- The DS1971 write-copy up to the comparison, R272 (a), (b). -/
def ds1971HeadMoves (f : CopyFrame) (data : List Byte) : List Move :=
  [.reset, .say (writeEvents (f.romCommand.map (·.val))), .skip f.romReads,
   .say (writeEvents (f.writeHead.map (·.val) ++ data))] ++ f.readBackHead.map headMove ++ [.expect data]

/-- What a play leaves of a state, but for the hidden registers: its events, `AREGS` and `presence`. -/
def leave (p : Play) (s : State) : State :=
  { played p.events s with
    aregs := #v[p.regs.getD 0 0, p.regs.getD 1 0, p.regs.getD 2 0]
    presence := lastPresence s.presence p.events }

/-- The play of a sequence of moves from a state. -/
def playFrom (ms : List Move) (s : State) : Play := playMoves ms s.oracle s.aregs.toList

/-- What a sequence of moves leaves of a state. -/
def afterMoves (ms : List Move) (s : State) : State := leave (playFrom ms s) s

/-- Whether a sequence of moves succeeds from a state. -/
def movesOk (ms : List Move) (s : State) : Bool := (playFrom ms s).ok

/-! ## Slave-role answers -/

/-- The waveform of a slave-role event under a timing table (R199, R204). -/
def slaveWaveOf (t : SlaveTiming) : WireEvent → List LinePiece
  | .sPresence => presenceWave t
  | .sSend b true => sendWave t b
  | .sSend _ false | .sRecv _ _ | .sReset _ => []
  | .hReset _ | .hWrite _ | .hRead _ | .hDelay _ => []

/-- The state after these slave-role events, oldest first, at the speed in force. -/
def slavePlayed (es : List WireEvent) (s : State) : State :=
  { s with
    wire := es.reverse ++ s.wire
    line := (es.map (slaveWaveOf (Config.tSlave s.odSlave))).reverse ++ s.line }

/-- The peer's inputs that are slots with these master bits (R190). -/
def slots (ms : List Bool) : List Input := ms.map fun m => .line (.act (.slot m))

/-- The events of sent bytes, R194. -/
def sendEvents (s : List Byte) : List WireEvent := (wireBits s).map fun b => .sSend b true

/-- The events of received bits, R193. -/
def receiveEvents (bits : List Bool) : List WireEvent := bits.map fun b => .sRecv b true

/-- The events of the search answer with these choice bits of the reader, R233: for each of the 64
bits of the record the bit, its complement, the choice. -/
def searchEvents (rom : List Byte) (choices : List Bool) : List WireEvent :=
  (wireBits rom).zip choices |>.flatMap fun p => [.sSend p.1 true, .sSend (!p.1) true, .sRecv p.2 true]

/-- A slot of the peer, with the inputs `rest` after it, leads from `s` to `t`: with no action of the peer
waiting the step ends there; with one waiting the step takes it too as long as a response runs, as the
step from `t` does (log entry 4). -/
def SlotLeads (s : State) (rest : List Input) (t : State) : Prop :=
  ((∀ p more, rest ≠ .line p :: more) → step s = .next t) ∧
  ∀ p more a, rest = .line p :: more → (hear p t).1 = some a →
    step s = if t.slPhase = .respond then step t else .next t

/-! ## The invariant -/

/-- The responder stands inside its answer (R233 to R235). -/
def taskInRange (s : State) : Bool :=
  match s.task with
  | .none => true
  | .search k _ _ => decide (k < 64)
  | .sendRom k _ => decide (k < 8)
  | .recvAddr _ => true
  | .sendMem a => decide (a < memSize s.famHeld)

/-- The slave framer is inside a byte, and the wait it has timed so far is within `WAIT_MAX` of the speed in
force (R204, R205). -/
abbrev FramerWaits (s : State) : Prop :=
  s.sFramer.bitcnt.toNat < 8 ∧ s.sFramer.timer ≤ (Config.tSlave s.odSlave).waitMax

/-- What holds of every state between two steps. -/
structure Inv (s : State) : Prop where
  /-- MEM keeps its canonical form. -/
  memory : Memory.wf s.epoch s.mem = true
  /-- `role` = `Host` is never seen between operations (R335). -/
  notHost : s.role ≠ .host
  /-- The sequencer's registers are at rest (R36). -/
  sequencer : s.qStep = [] ∧ s.qPage = 0 ∧ s.qIdx = 0 ∧ s.qElapsed = 0 ∧ s.qMismatch = false
  /-- The line is let go (R150). -/
  released : s.owPull = false
  /-- `emu_installed` = 1 exactly when `role` = `Slave` (R33). -/
  installed : s.emuInstalled = true ↔ s.role = .slave
  /-- The engine is off exactly outside a session (R34, R201). -/
  phase : s.slPhase = .off ↔ s.role ≠ .slave
  /-- The presence pulse is atomic (R199). -/
  noPresence : s.slPhase ≠ .presence
  /-- A responder runs exactly in SL_RESPOND. -/
  responder : s.slPhase = .respond ↔ s.task ≠ .none
  /-- `ok` = 1 implies `status` = 0 (R30, R321). -/
  okStatus : s.ok = true → s.status = .ok
  /-- The fault entry puts `role` to `Off` and no session starts in the fault state (R322). -/
  faultOff : s.fault = true → s.role = .off
  /-- `fault_code` tells the fault (R322). -/
  faultCode : s.fault = true ↔ s.faultCode = .writeMemSize
  /-- `od_slave` is set in a DS1996 session alone (R28, R220). -/
  overdrive : s.odSlave = true → s.role = .slave ∧ familyOf s.famHeld = some .ds1996
  /-- A session has a family (R200). -/
  session : s.role = .slave → (familyOf s.famHeld).isSome = true
  /-- For the stateless families `cmd_state` stays `Idle` (R25). -/
  statelessIdle : s.role = .slave → s.stateless = true → s.cmdState = .idle
  /-- The host framer is at rest between operations (R35). -/
  hostFramer : s.hFramer.Idle
  /-- The slave framer is inside a byte, and a wait that has not yet become a silence is no longer than
  `WAIT_MAX` (R35, R204). -/
  slaveFramer : FramerWaits s
  /-- Outside a session the slave framer's timer is at rest (R35). -/
  slaveTimer : s.role ≠ .slave → s.sFramer.timer = 0
  /-- The responder stands inside its answer. -/
  range : taskInRange s = true
  /-- Every wire event has its waveform, and a hardware reset may have cut one more (R350). -/
  records : s.wire.length ≤ s.line.length ∧ s.line.length ≤ s.wire.length + s.epoch

end Sys2Proof.Machine
end

