-- ==== Sys2Proof/Certificates/Slice0/Obligations.lean ====
section
/-! DEFINITION. The statements for the provers. Each formalises rules of spec/ named in its docstring. Unless
a statement says otherwise a next state is given whole: what it does not name is as it was. `played`,
`afterMoves`, `slavePlayed` (Safety.lean) say what a list of wire events leaves of a state. -/

open Sys2Proof Sys2Proof.Machine

/-! ## Encoding -/

/-- Every instruction that has an encoding is decoded from its code (R91 to R97), whatever the command byte
parameters are (R8). -/
def Obligations.DecodeOfEncode : Prop :=
  ∀ (p : CommandBytes) (i : Instr), i.WellFormed p → decode (encode i p) p = .ok i

/-- Words written out from the spec's tables decode to the instructions they stand for (R92, R96, R97),
with the command bytes at their defaults (R8). -/
def Obligations.SpecWordsDecode : Prop :=
  decode (.port 0 { opsel := 0x03, d8 := 0xBE }) = .ok (.crcByte 0xBE) ∧
  decode (.port 3 { opsel := 0x0D, a16 := 0x007F }) = .ok (.memRd 0x007F) ∧
  decode (.port 0 { opsel := 0x15, len := 2, din := [0x0F, 0x20] }) = .ok (.owWbytes [0x0F, 0x20]) ∧
  decode (.port 1 { opsel := 0x20 }) = .ok .emuStart ∧
  decode (.port 3 { opsel := 0x36, t32 := 0x000003E8, pg := 4, len := 4, din := [0xDE, 0xAD, 0xBE, 0xEF] }) =
    .ok (.seqWriteMem 1000 4 [0xDE, 0xAD, 0xBE, 0xEF]) ∧
  decode (.port 4 { opsel := 0x38 }) = .ok .famReadDs1996 ∧
  decode (.port 1 { opsel := 0x3C, len := 1, din := [0x01] }) = .ok (.bwRw1990V1 [0x01]) ∧
  decode (.bus 3 .idle 0xF0) = .ok .searchRom ∧
  decode (.bus 4 .idle 0x3C) = .ok .overdriveSkipRom ∧
  decode (.bus 1 .idle 0xCC) = .ok (.anyOtherStateless 0xCC) ∧
  decode (.host { cmd := 0xA5 }) = .ok .hostDs1971Finalization

/-- The reserved operation selects are those of R93, for every family and every operand; the operation is
refused with `ERR_ILLEGAL_OP`, in every role, unless the block is in the fault state. -/
def Obligations.ReservedSelects : Prop :=
  (∀ (fam : FamSel) (w : PortWord),
    decodePort fam w = .ok (.reservedOpsel w.opsel) ↔
      w.opsel = 0x06 ∨ w.opsel = 0x07 ∨ (0x19 ≤ w.opsel ∧ w.opsel ≤ 0x1F) ∨
      (0x22 ≤ w.opsel ∧ w.opsel ≤ 0x2F) ∨ w.opsel = 0x37 ∨ w.opsel = 0x3B ∨ w.opsel = 0x3F ∨
      0x40 ≤ w.opsel) ∧
  ∀ (s : State) (op : Byte), s.fault = false →
    exec (.reservedOpsel op) s =
      .next { s with status := .errIllegalOp, ok := false, rdata := 0x00, dout := [] }

/-- The name a received command byte gets (R224), with the row of R236 that its class and state select, for
any values of the parameters `CMD_SKIP_ROM` and `CMD_OVERDRIVE_SKIP_ROM` (R8); their defaults are the
bytes that R224 shows. -/
def Obligations.CommandByteNames : Prop :=
  (({} : CommandBytes).skipRom = 0xCC ∧ ({} : CommandBytes).overdriveSkipRom = 0x3C) ∧
  ∀ (p : CommandBytes) (f : Family) (st : CmdState) (c : Byte),
    decodeBus (selOf f) st c p =
      if c = 0xF0 then
        (if hasState f then
          (if st = .idle then .searchRom else if st = .romCommandAccepted then .readMem
           else .searchRomRefused)
         else .searchRomStateless)
      else if c = 0x33 then
        (if hasState f then (if st = .idle then .readRom else .readRomRefused) else .readRomStateless)
      else if c = p.skipRom ∧ hasState f = true then .skipRom
      else if c = p.overdriveSkipRom ∧ f = .ds1996 then .overdriveSkipRom
      else if hasState f then .unrecognisedStateful c else .anyOtherStateless c

/-- One value, several meanings (R98): 0xF0 and 0x33 by direction and by state, for any values of the
parameters, and 0x3C, the default of `CMD_OVERDRIVE_SKIP_ROM`, by what sends it. A sub-step's group is
the model's way to tell what sends its byte (log entry 12). -/
def Obligations.OneByteSeveralMeanings : Prop :=
  (∀ p f, hasState f = true →
    decode (.bus (selOf f) .idle 0xF0) p = .ok .searchRom ∧
    decode (.bus (selOf f) .romCommandAccepted 0xF0) p = .ok .readMem ∧
    decode (.bus (selOf f) .idle 0x33) p = .ok .readRom) ∧
  (∀ p a n, decode (.host { cmd := 0xF0, a16 := a, len := n }) p = .ok (.hostReadMem a n)) ∧
  (∀ p, decode (.host { cmd := 0x33 }) p = .ok .hostReadRom) ∧
  (∀ p st, decode (.bus (selOf .ds1996) st p.overdriveSkipRom) p = .ok .overdriveSkipRom) ∧
  (∀ p, decode (.host { cmd := p.overdriveSkipRom, group := .select }) p = .ok .hostOverdriveSkipRom) ∧
  (∀ p data, decode (.host { cmd := 0x3C, group := .blankWriter, data := data }) p =
    .ok (.hostTm2004Write data)) ∧
  ({} : CommandBytes).overdriveSkipRom = 0x3C

/-- Which command bytes a family does not recognise (R99), whatever the parameters are (R8), and that such
a byte, like a command in the wrong state, gets no response: nothing is sent, `cmd_state` and `od_slave`
keep their values and the engine waits for a reset. -/
def Obligations.UnrecognisedBytes : Prop :=
  (∀ (p : CommandBytes) (f : Family) (st : CmdState) (c : Byte),
    (decodeBus (selOf f) st c p = .unrecognisedStateful c ∨
      decodeBus (selOf f) st c p = .anyOtherStateless c) ↔
    c ∉ (match f with
      | .generic | .ds1990 | .ds1420 => ([0xF0, 0x33] : List Byte)
      | .ds1971 | .ds1992 => [0xF0, 0x33, p.skipRom]
      | .ds1996 => [0xF0, 0x33, p.skipRom, p.overdriveSkipRom])) ∧
  ∀ (s : State) (c : Byte), s.role = .slave →
    ∀ i ∈ [Instr.searchRomRefused, .readRomRefused, .unrecognisedStateful c, .anyOtherStateless c],
      exec i s = .next { s with slPhase := .waitReset, task := .none, sFramer := {} }

/-- What the decoder of the sequencer's sub-steps reads from each byte of the table R97, with the operands of
its frame (R100), for any values of the two parameters; every other byte is refused. The byte 0x1E has a
row, though R97 says that it is never sent (log entry 21); that a command byte is a sub-step is the
model's choice (log entry 20), and so is the group that tells what sends it (log entry 12). -/
def Obligations.SubStepBytes : Prop :=
  ∀ (f : HostFrame) (p : CommandBytes), decode (.host f) p =
    match f.group with
    | .frame =>
      if f.cmd = 0x33 then .ok .hostReadRom
      else if f.cmd = 0x0F then .ok (.hostWriteScratch f.a16 f.data)
      else if f.cmd = 0xAA then .ok (.hostReadScratch f.len)
      else if f.cmd = 0x55 then .ok (.hostCopyScratch f.t32)
      else if f.cmd = 0xF0 then .ok (.hostReadMem f.a16 f.len)
      else if f.cmd = 0xA5 then .ok .hostDs1971Finalization
      else .error .notSent
    | .select =>
      if f.cmd = p.skipRom then .ok .hostSkipRom
      else if f.cmd = p.overdriveSkipRom then .ok .hostOverdriveSkipRom
      else .error .notSent
    | .blankWriter =>
      if f.cmd = 0xD1 then .ok (.hostRw1990V1UnlockLock f.bit)
      else if f.cmd = 0xD5 then .ok (.hostRw1990WriteCommand f.data)
      else if f.cmd = 0x1D then .ok (.hostRw1990V2UnlockLock f.bit)
      else if f.cmd = 0x1E then .ok .hostRw1990V2Unused
      else if f.cmd = 0x3C then .ok (.hostTm2004Write f.data)
      else .error .notSent

/-! ## The step -/

/-- A step runs the decoded instruction: the port operation that the port agent presents (R91, R324); the
command of which the last bit arrives, in the state in which the command rule runs (R198); the
sub-step that comes next of a host sequence, which is closed after its last one (R36, R335). That what
comes from outside is a list of inputs is the model's choice (log entry 3), and so are a sequence as a
list of sub-steps, one a step (log entry 20), and the command bytes of R8 as a field of the state (log
entry 12). -/
def Obligations.StepRunsDecodedInstruction : Prop :=
  (∀ (s : State) (w : PortWord) (rest : List Input) (i : Instr),
    s.qStep = [] → s.inputs = .port w :: rest → decode (.port s.fam w) = .ok i →
    step s = exec i { s with inputs := rest }) ∧
  (∀ (s : State) (m : Bool) (rest : List Input) (c : Byte) (i : Instr),
    s.qStep = [] → s.role = .slave → s.slPhase = .recvCmd → s.sFramer.bitcnt = 7 →
    s.inputs = .line (.act (.slot m)) :: rest → c = shiftIn m s.sFramer.sh →
    decode (.bus s.famHeld s.cmdState c) s.cmdBytes = .ok i →
    step s = exec i (slavePlayed [.sRecv m true]
      { s with inputs := rest, slErr := .none, slPhase := .respond, sFramer := {} })) ∧
  (∀ (s : State) (f : HostFrame) (fs : List HostFrame) (i : Instr),
    s.qStep = f :: fs → decode (.host f) s.cmdBytes = .ok i →
    step s = mapNext closeSequence (exec i { s with qStep := fs }))

/-! ## Reset and invariant -/

/-- The values after hardware reset (R42), at the block's first state and after the input `rst` in every
state, whatever was going on (R350); the fault is cleared and the line let go. The hidden registers are
zero (log entry 11) and `dout` is empty (log entry 10); the level of `fam` (R37) and the record of the
wire outlive the reset by the model's choice (log entries 8 and 26), and the command bytes of R8 are no
state that a reset touches (R6; log entry 12). Not stated: `ROM`, `AREGS` and `MEM`, which the spec
leaves unspecified (log entries 5 to 7). -/
def Obligations.ResetValues : Prop :=
  AtReset State.reset ∧
  ∀ (s : State) (rest : List Input), s.qStep = [] → s.inputs = .rst :: rest →
    ∃ t, step s = .next t ∧ AtReset t ∧ t.inputs = rest ∧ t.famIn = s.famIn ∧ t.wire = s.wire ∧
      t.cmdBytes = s.cmdBytes

/-- An operation in progress at hardware reset is abandoned at once (R350): what has happened on the wire
is the beginning of the operation's events, every register has its reset value, and the whole state but
the records of the wire and the peer's answers left is the one that a hardware reset without the
operation leaves, `ROM`, `AREGS` and `MEM` too. That the cut falls after so many events and pieces of
the waveform, and that the answers used are those of the complete events, is the model's choice (log
entry 33). -/
def Obligations.ResetInTheMiddle : Prop :=
  ∀ (s t v : State) (w : PortWord) (events pieces : Nat) (rest : List Input) (i : Instr),
    s.qStep = [] → s.inputs = .portCut w events pieces :: rest → decode (.port s.fam w) = .ok i →
    exec i { s with inputs := rest } = .next t → step { s with inputs := .rst :: rest } = .next v →
    ∃ u, step s = .next u ∧ AtReset u ∧
      u.wire.reverse = s.wire.reverse ++ (newEvents s t).take events ∧
      u.oracle = s.oracle.drop (answersUsed ((newEvents s t).take events)) ∧
      u = { v with wire := u.wire, line := u.line, oracle := u.oracle }

/-- The invariant holds after reset. It rests on the model's choice for the storage there (log entries 5
and 6). -/
def Obligations.InvAtReset : Prop := Inv State.reset

/-- Every step keeps the invariant of Safety.lean: MEM in its canonical form (R24), the sequencer and the
framers at rest (R35, R36), the line let go (R150), `emu_installed` with the role (R33), the phase of
the engine with the role (R34), `ok` = 1 with `status` = `OK` (R30), the fault with role `Off` and
its code (R322), overdrive in a DS1996 session alone (R28), a family in a session (R200), `Idle` for
the stateless families (R25), the responder inside its answer (R233 to R235), a wait that is no silence
within `WAIT_MAX` (R204; its timer: log entry 40). -/
def Obligations.InvKeptByStep : Prop :=
  ∀ s t : State, Inv s → step s = .next t → Inv t

/-! ## Refusals and the fault state -/

/-- The refusals in their order (R324): the first check that applies refuses the operation and changes
nothing but the response; check 6 raises the contract violation (R322); otherwise the operation runs
and answers `OK` or `FAIL`. -/
def Obligations.RefusalOrder : Prop :=
  ∀ (s : State) (w : PortWord) (i : Instr), decodePort s.fam w = .ok i →
    (∀ st, firstRefusal w s = some st →
      exec i s = .next { s with status := st, ok := false, rdata := 0x00, dout := [] }) ∧
    (firstRefusal w s = none →
      (w.opsel = 0x36 ∧ (w.pg = 0 ∨ ¬ w.pg.toNat ∣ w.len.toNat) →
        exec i s = .next { s with
          fault := true, faultCode := .writeMemSize, role := .off
          status := .fault, ok := false, rdata := 0x00, dout := [] }) ∧
      (¬ (w.opsel = 0x36 ∧ (w.pg = 0 ∨ ¬ w.pg.toNat ∣ w.len.toNat)) →
        ∃ t, exec i s = .next t ∧ (t.status = .ok ∨ t.status = .fail) ∧ t.fault = false ∧
          (t.ok = true → t.status = .ok)))

/-- The fault state (R322): while `fault` = 1 every port operation is refused with `FAULT` and changes
nothing, and no step but a hardware reset clears `fault`. -/
def Obligations.FaultIsSticky : Prop :=
  (∀ (s : State) (fam : FamSel) (w : PortWord) (i : Instr), s.fault = true →
    decodePort fam w = .ok i →
    exec i s = .next { s with status := .fault, ok := false, rdata := 0x00, dout := [] }) ∧
  ∀ s t : State, s.fault = true → step s = .next t →
    (t.fault = true ∧ t.faultCode = s.faultCode) ∨ t.epoch = s.epoch + 1

/-! ## The CRC -/

/-- The bit step (R120), by its formula and bit by bit. -/
def Obligations.CrcBitLayout : Prop :=
  ∀ (c : Byte) (d : Bool),
    let fb := c.getLsbD 0 ^^ d
    let out := crc8Bit c d
    out = (c >>> 1) ^^^ (if fb then 0x8C else 0x00) ∧
    out.getLsbD 7 = fb ∧ out.getLsbD 6 = c.getLsbD 7 ∧ out.getLsbD 5 = c.getLsbD 6 ∧
    out.getLsbD 4 = c.getLsbD 5 ∧ out.getLsbD 3 = (c.getLsbD 4 ^^ fb) ∧
    out.getLsbD 2 = (c.getLsbD 3 ^^ fb) ∧ out.getLsbD 1 = c.getLsbD 2 ∧ out.getLsbD 0 = c.getLsbD 1

/-- The byte step (R121) has the byte-parallel form, and depends on `c xor b` alone: `T[c xor b]`. -/
def Obligations.CrcByteForms : Prop :=
  ∀ c b : Byte, crc8Byte c b = crc8ByteParallel c b ∧ crc8Byte c b = crc8Byte 0x00 (c ^^^ b)

/-- The bits of a sequence in wire order give the CRC of the sequence (R64, R122); a sequence may be fed
in two parts. -/
def Obligations.CrcWireOrder : Prop :=
  ∀ (c : Byte) (s t : List Byte),
    crc8Bits c (wireBits s) = crc8Buf c s ∧ crc8Buf c (s ++ t) = crc8Buf (crc8Buf c s) t

/-- Linearity over xor (R123 b), and zero for zeros (R123 a). -/
def Obligations.CrcLinear : Prop :=
  (∀ n, crc8Buf 0x00 (List.replicate n 0x00) = 0x00) ∧
  ∀ s t : List Byte, s.length = t.length →
    crc8Buf 0x00 (List.zipWith (· ^^^ ·) s t) = crc8Buf 0x00 s ^^^ crc8Buf 0x00 t ∧
    ∀ c, crc8Buf c s = crc8Buf c (List.replicate s.length 0x00) ^^^ crc8Buf 0x00 s

/-- The residue (R123 c): a sequence followed by its CRC has CRC 0x00, and no other last byte does that;
so a record is valid exactly when the CRC over all eight bytes is 0x00. -/
def Obligations.CrcResidue : Prop :=
  (∀ s : List Byte, ∀ v : Byte, crc8Buf 0x00 (s ++ [v]) = 0x00 ↔ v = crc8Buf 0x00 s) ∧
  ∀ s : State, crc8Buf 0x00 s.rom.toList = 0x00 ↔ romCrc s.rom = s.romAt 7

/-- For fixed `b` the byte step is a bijection on 8-bit values (R123 g). -/
def Obligations.CrcByteBijective : Prop :=
  ∀ b : Byte, Function.Bijective fun c => crc8Byte c b

/-- `NOP` and the operations on the CRC register (R124 to R128, R137), from their operation selects. -/
def Obligations.CrcRegisterOperations : Prop :=
  ∀ (s : State) (w : PortWord), s.fault = false →
    (w.opsel = 0x00 → decodePort s.fam w = .ok .nop ∧ exec .nop s = .next (reply true 0 [] s)) ∧
    (w.opsel = 0x01 → decodePort s.fam w = .ok .crcClr ∧
      exec .crcClr s = .next (reply true 0 [] { s with crc := 0x00 })) ∧
    (w.opsel = 0x02 →
      let c := crc8Bit s.crc (w.d8.getLsbD 0)
      decodePort s.fam w = .ok (.crcBit (w.d8.getLsbD 0)) ∧
      exec (.crcBit (w.d8.getLsbD 0)) s = .next (reply true c [] { s with crc := c })) ∧
    (w.opsel = 0x03 →
      let c := crc8Byte s.crc w.d8
      decodePort s.fam w = .ok (.crcByte w.d8) ∧
      exec (.crcByte w.d8) s = .next (reply true c [] { s with crc := c })) ∧
    (w.opsel = 0x04 → w.din.length = w.len.toNat →
      let c := crc8Buf 0x00 w.din
      decodePort s.fam w = .ok (.crcBuf w.din) ∧
      exec (.crcBuf w.din) s = .next (reply true c [] { s with crc := c })) ∧
    (w.opsel = 0x05 → decodePort s.fam w = .ok .crcGet ∧
      exec .crcGet s = .next (reply true s.crc [] s))

/-- `ROM.VALID` and `ROM.APPLY` (R129, R130), from their operation selects. -/
def Obligations.RomRecordOperations : Prop :=
  ∀ (s : State) (w : PortWord), s.fault = false →
    (w.opsel = 0x0A →
      let c := crc8Buf 0x00 (s.rom.toList.take 7)
      decodePort s.fam w = .ok .romValid ∧
      exec .romValid s = .next { s with
        crc := c, ok := decide (c = s.rom[7]), rdata := c, status := .ok, dout := [] }) ∧
    (w.opsel = 0x0B →
      let c := crc8Buf 0x00 (w.d8 :: (s.rom.toList.take 7).drop 1)
      decodePort s.fam w = .ok (.romApply w.d8) ∧
      (s.role ≠ .slave → exec (.romApply w.d8) s =
        .next (reply true c [] { s with rom := (s.rom.set 0 w.d8).set 7 c, crc := c })) ∧
      (s.role = .slave → exec (.romApply w.d8) s = .next (refuse .errRole s)))

/-- The CRC round trip (R123 e, R130): after `ROM.APPLY` the record is valid whatever its serial number
is; the serial number is untouched; applying again changes nothing. -/
def Obligations.ApplyThenValid : Prop :=
  ∀ (s : State) (d : Byte), HostReady s →
    ∃ t, exec (.romApply d) s = .next t ∧ t.romAt 0 = d ∧
      (∀ k, 1 ≤ k → k ≤ 6 → t.romAt k = s.romAt k) ∧
      (∃ u, exec .romValid t = .next u ∧ u.ok = true ∧ u.status = .ok ∧ u.rom = t.rom) ∧
      exec (.romApply d) t = .next t

/-- CRC sensitivity (R123 d): a valid record with any one of its 64 bits flipped is found invalid. -/
def Obligations.SingleBitErrorsAreFound : Prop :=
  ∀ (s : State) (k : Nat), s.fault = false → k < 64 → crc8Buf 0x00 (s.rom.toList.take 7) = s.romAt 7 →
    ∃ t, exec .romValid (storeRom (k / 8) (s.romAt (k / 8) ^^^ BitVec.ofNat 8 (2 ^ (k % 8))) s) = .next t ∧
      t.ok = false ∧ t.status = .ok

/-! ## Storage -/

/-- `ROM.WR` and `ROM.RD` (R131, R132): the index is the whole of `a16` (R94). -/
def Obligations.RomAccess : Prop :=
  ∀ (s : State) (w : PortWord), s.fault = false →
    (w.opsel = 0x08 →
      decodePort s.fam w = .ok (.romWr w.a16 w.d8) ∧
      (s.role = .slave → exec (.romWr w.a16 w.d8) s = .next (refuse .errRole s)) ∧
      (s.role ≠ .slave → 7 < w.a16.toNat →
        exec (.romWr w.a16 w.d8) s = .next (refuse .errRange s)) ∧
      (s.role ≠ .slave → ∀ h : w.a16.toNat < 8, exec (.romWr w.a16 w.d8) s =
        .next (reply true 0 [] { s with rom := s.rom.set w.a16.toNat w.d8 h }))) ∧
    (w.opsel = 0x09 →
      decodePort s.fam w = .ok (.romRd w.a16) ∧
      (7 < w.a16.toNat → exec (.romRd w.a16) s = .next (refuse .errRange s)) ∧
      (∀ h : w.a16.toNat < 8, exec (.romRd w.a16) s =
        .next (reply true (s.rom[w.a16.toNat]'h) [] s)))

/-- `AREGS.WR` and `AREGS.RD` (R135, R136). -/
def Obligations.AregsAccess : Prop :=
  ∀ (s : State) (w : PortWord), s.fault = false →
    (w.opsel = 0x0E →
      decodePort s.fam w = .ok (.aregsWr w.a16 w.d8) ∧
      (s.role = .slave → exec (.aregsWr w.a16 w.d8) s = .next (refuse .errRole s)) ∧
      (s.role ≠ .slave → 2 < w.a16.toNat →
        exec (.aregsWr w.a16 w.d8) s = .next (refuse .errRange s)) ∧
      (s.role ≠ .slave → ∀ h : w.a16.toNat < 3, exec (.aregsWr w.a16 w.d8) s =
        .next (reply true 0 [] { s with aregs := s.aregs.set w.a16.toNat w.d8 h }))) ∧
    (w.opsel = 0x0F →
      decodePort s.fam w = .ok (.aregsRd w.a16) ∧
      (2 < w.a16.toNat → exec (.aregsRd w.a16) s = .next (refuse .errRange s)) ∧
      (∀ h : w.a16.toNat < 3, exec (.aregsRd w.a16) s =
        .next (reply true (s.aregs[w.a16.toNat]'h) [] s)))

/-- `MEM.WR` and `MEM.RD` (R133, R134): the bound is `MEM_SIZE(fam)`; a write changes that byte alone. -/
def Obligations.MemAccess : Prop :=
  ∀ (s : State) (w : PortWord), s.fault = false →
    (w.opsel = 0x0C →
      decodePort s.fam w = .ok (.memWr w.a16 w.d8) ∧
      (s.role = .slave → exec (.memWr w.a16 w.d8) s = .next (refuse .errRole s)) ∧
      (s.role ≠ .slave → memSize s.fam ≤ w.a16.toNat →
        exec (.memWr w.a16 w.d8) s = .next (refuse .errRange s)) ∧
      (s.role ≠ .slave → w.a16.toNat < memSize s.fam → Memory.wf s.epoch s.mem = true →
        ∃ m, exec (.memWr w.a16 w.d8) s = .next (reply true 0 [] { s with mem := m }) ∧
          Memory.wf s.epoch m = true ∧
          ∀ a, memRead s.epoch m a = if a = w.a16.toNat then w.d8 else s.memAt a)) ∧
    (w.opsel = 0x0D →
      decodePort s.fam w = .ok (.memRd w.a16) ∧
      (memSize s.fam ≤ w.a16.toNat → exec (.memRd w.a16) s = .next (refuse .errRange s)) ∧
      (w.a16.toNat < memSize s.fam → exec (.memRd w.a16) s =
        .next (reply true (s.memAt w.a16.toNat) [] s)))

/-- `MemWrite` and `MemRead` (R12): a read after a write gives the bytes written, every byte outside is as
before, and the canonical form is kept. -/
def Obligations.MemoryBytes : Prop :=
  ∀ (e a : Nat) (m : List Host.Cell) (v : List Byte), Memory.wf e m = true →
    a + v.length ≤ Config.memArraySize →
    Memory.wf e (memWriteBytes e m a v) = true ∧
    memReadBytes e (memWriteBytes e m a v) a v.length = v ∧
    ∀ b, b < a ∨ a + v.length ≤ b → memRead e (memWriteBytes e m a v) b = memRead e m b

/-! ## The host framer -/

/-- `OW.RESET` (R161, R152): one reset, `presence` and `ok` are the peer's answer. -/
def Obligations.OwResetResult : Prop :=
  ∀ (s : State) (w : PortWord), s.fault = false → w.opsel = 0x10 →
    let p := s.oracle.headD false
    decodePort s.fam w = .ok .owReset ∧
    (s.role ≠ .slave → exec .owReset s =
      .next (endHost (reply p 0 [] { played [.hReset p] s with presence := p }))) ∧
    (s.role = .slave → exec .owReset s = .next (refuse .errRole s))

/-- `OW.WBIT`, `OW.WBYTE`, `OW.WBYTES` (R162, R164, R166): write slots, bit 0 of each byte first. -/
def Obligations.OwWrites : Prop :=
  ∀ (s : State) (w : PortWord), HostReady s →
    (w.opsel = 0x11 → decodePort s.fam w = .ok (.owWbit (w.d8.getLsbD 0)) ∧
      exec (.owWbit (w.d8.getLsbD 0)) s =
        .next (endHost (reply true 0 [] (played [.hWrite (w.d8.getLsbD 0)] s)))) ∧
    (w.opsel = 0x13 → decodePort s.fam w = .ok (.owWbyte w.d8) ∧
      ∃ h, exec (.owWbyte w.d8) s =
        .next { endHost (reply true 0 [] (played (writeEvents [w.d8]) s)) with hFramer := h }) ∧
    (w.opsel = 0x15 → w.din.length = w.len.toNat → decodePort s.fam w = .ok (.owWbytes w.din) ∧
      ∃ h, exec (.owWbytes w.din) s =
        .next { endHost (reply true 0 [] (played (writeEvents w.din) s)) with hFramer := h })

/-- `OW.RBIT`, `OW.RBYTE`, `OW.RBYTES` (R163, R165, R167): read slots; the bits are the peer's next
answers, the first bit of a byte is its bit 0, and a line that nobody pulls reads 1. -/
def Obligations.OwReads : Prop :=
  ∀ (s : State) (w : PortWord), HostReady s →
    (w.opsel = 0x12 → decodePort s.fam w = .ok .owRbit ∧
      exec .owRbit s = .next (endHost (reply true (if s.oracle.headD true then 1 else 0) []
        (played [.hRead (s.oracle.headD true)] s)))) ∧
    (w.opsel = 0x14 → decodePort s.fam w = .ok .owRbyte ∧
      ∃ v h, bitsOf v = nextBits 8 s.oracle ∧ exec .owRbyte s =
        .next { endHost (reply true v [] (played (readEvents (bitsOf v)) s)) with hFramer := h }) ∧
    (w.opsel = 0x16 → decodePort s.fam w = .ok (.owRbytes w.len) ∧
      ∃ v h, v.length = w.len.toNat ∧ wireBits v = nextBits (8 * w.len.toNat) s.oracle ∧
        exec (.owRbytes w.len) s =
          .next { endHost (reply true 0 v (played (readEvents (wireBits v)) s)) with hFramer := h })

/-- `OW.SETOD` and `OW.DELAY` (R168, R169). -/
def Obligations.OwSpeedAndDelay : Prop :=
  ∀ (s : State) (w : PortWord), HostReady s →
    (w.opsel = 0x17 → decodePort s.fam w = .ok (.owSetod (w.d8.getLsbD 0)) ∧
      exec (.owSetod (w.d8.getLsbD 0)) s =
        .next (endHost (reply true 0 [] { s with odHost := w.d8.getLsbD 0 }))) ∧
    (w.opsel = 0x18 → decodePort s.fam w = .ok (.owDelay w.t32) ∧
      exec (.owDelay w.t32) s =
        .next (endHost (reply true 0 [] (played [.hDelay w.t32.toNat] s))))

/-- The byte machines are the byte primitives with the slot waveforms substituted (R174, R175): they stop
in `H_IDLE` after eight slots and not before, having drawn the eight slots, and the read machine has
shifted in the bits sampled, the first into bit 0. -/
def Obligations.ByteMachinesDrawTheSlots : Prop :=
  ∀ t : HostTiming,
    (∀ v : Byte, writeMachine t 16 (writeByteStart v) = ({}, (bitsOf v).flatMap (writeWave t)) ∧
      ∀ n, n < 16 → (writeMachine t n (writeByteStart v)).1.phase ≠ .idle) ∧
    ∀ v : Byte, readMachine t (bitsOf v) readByteStart = ({ sh := v }, (bitsOf v).flatMap fun _ => readWave t) ∧
      ∀ n, n < 8 → (readMachine t ((bitsOf v).take n) readByteStart).1.phase ≠ .idle

/-! ## The slave-role engine -/

/-- Classification of a low pulse of any length (R206), and of a wait for a falling edge: longer than
`WAIT_MAX` it is a silence, else it is nothing (R204). That a low time above `SLOT_MAX` but below
`RSTL_MIN` is a slot, as R206 has it, is the model's choice beside R205 (log entry 37). -/
def Obligations.PulseClasses : Prop :=
  (∀ (std od : SlaveTiming) (odSlave : Bool) (l : Nat),
    (std.rstlMin.toNat ≤ l → classifyLow std od odSlave l = .resetStd) ∧
    (l < std.rstlMin.toNat → odSlave = true → od.rstlMin.toNat ≤ l → l ≤ od.rstlMax.toNat →
      classifyLow std od odSlave l = .resetShort) ∧
    (l < std.rstlMin.toNat → odSlave = false →
      classifyLow std od odSlave l = .slot (decide (l < std.w1lMax.toNat))) ∧
    (l < std.rstlMin.toNat → odSlave = true → (l < od.rstlMin.toNat ∨ od.rstlMax.toNat < l) →
      classifyLow std od odSlave l = .slot (decide (l < od.w1lMax.toNat)))) ∧
  ∀ (t : SlaveTiming) (l : Nat),
    classifyQuiet t l = if t.waitMax.toNat < l then some .silence else none

/-- `EMU.START` and `EMU.STOP` (R200, R201); `fam` is sampled at the start (R37). That a responder's
place and the slave framer are cleared is the model's way to abandon a response (log entry 28). -/
def Obligations.SessionStartAndStop : Prop :=
  ∀ (s : State) (w : PortWord), s.fault = false →
    (w.opsel = 0x20 → decodePort s.fam w = .ok .emuStart ∧
      (s.role ≠ .off → exec .emuStart s = .next (refuse .errRole s)) ∧
      (s.role = .off → 5 < s.famIn.toNat → exec .emuStart s = .next (refuse .errUnsupported s)) ∧
      (s.role = .off → s.famIn.toNat ≤ 5 → exec .emuStart s = .next (reply true 0 []
        { s with
          role := .slave, emuInstalled := true, famHeld := s.famIn, cmdState := .idle, odSlave := false
          slErr := .none, slRstShort := false, slPhase := .waitReset, task := .none, sFramer := {} }))) ∧
    (w.opsel = 0x21 → decodePort s.fam w = .ok .emuStop ∧
      (s.role ≠ .slave → exec .emuStop s = .next (refuse .errRole s)) ∧
      (s.role = .slave → exec .emuStop s = .next (reply true 0 []
        { s with
          role := .off, emuInstalled := false, odSlave := false, slPhase := .off, owPull := false
          task := .none, sFramer := {} })))

/-- `fam` must not change under a session (R359): a change of the input is stored, and the family in
force is the one sampled at `EMU.START` until the session ends; every step of a session keeps it, but
for `EMU.STOP` and a hardware reset, which end the session. That it is in force for `MEM.RD` too is
log entry 9. -/
def Obligations.FamHeldInSession : Prop :=
  (∀ (s : State) (sel : FamSel) (rest : List Input), s.qStep = [] → s.inputs = .fam sel :: rest →
    step s = .next { s with inputs := rest, famIn := sel } ∧
    (s.role = .slave → State.fam { s with inputs := rest, famIn := sel } = s.fam) ∧
    (s.role ≠ .slave → State.fam { s with inputs := rest, famIn := sel } = sel)) ∧
  ∀ s t : State, s.role = .slave → step s = .next t →
    (t.role = .slave ∧ t.famHeld = s.famHeld ∧ t.fam = s.fam) ∨
    (t.role = .off ∧ ∃ w rest, s.inputs = .port w :: rest ∧ w.opsel = 0x21) ∨
    (t.role = .off ∧ t.epoch = s.epoch + 1)

/-- WAIT_RESET (R198): a reset pulse is handled, slots and silence are ignored; in the roles `Off` and
`Host` the block does not watch the line at all (R325). In every phase of a session a low pulse is the
action that its length makes it (R204, R206), and an action ends the wait for a falling edge. A quiet
time adds to that wait: longer than `WAIT_MAX` it is a silence (R204), else it is nothing yet; two quiet
times with no falling edge between them count as one of their sum. That the wait so far is kept in
`s_timer` from one input to the next, also in WAIT_RESET, is the model's choice (log entry 40). -/
def Obligations.WaitResetAndMeasuredLine : Prop :=
  ∀ (s : State) (rest : List Input), s.qStep = [] →
    (∀ p, s.role ≠ .slave → s.inputs = .line p :: rest → step s = .next { s with inputs := rest }) ∧
    (s.role = .slave → s.slPhase = .waitReset →
      (∀ m, s.inputs = .line (.act (.slot m)) :: rest → step s = .next (waited 0 { s with inputs := rest })) ∧
      (s.inputs = .line (.act .silence) :: rest → step s = .next (waited 0 { s with inputs := rest })) ∧
      (s.inputs = .line (.act .resetStd) :: rest →
        step s = .next (takeBusReset false { s with inputs := rest })) ∧
      (s.inputs = .line (.act .resetShort) :: rest →
        step s = .next (takeBusReset true { s with inputs := rest }))) ∧
    (s.role = .slave → ∀ us : Nat,
      let limit := (Config.tSlave s.odSlave).waitMax.toNat
      let wait := s.sFramer.timer.toNat + us
      let hearing (p : PeerInput) : State := { s with inputs := .line p :: rest }
      (s.inputs = .line (.low us) :: rest → step s =
        step (hearing (.act (classifyLow (Config.tSlave false) (Config.tSlave true) s.odSlave us)))) ∧
      (s.inputs = .line (.quiet us) :: rest →
        (limit < wait → step s = step (hearing (.act .silence))) ∧
        (wait ≤ limit → ∃ l, l.toNat = wait ∧ step s = .next (waited l { s with inputs := rest }))) ∧
      ∀ more, s.inputs = .line (.quiet us) :: .line (.quiet more) :: rest → wait ≤ limit →
        ∃ t, step s = .next t ∧ step t = step (hearing (.quiet (us + more))))

/-- Taking the bus reset (R327, R198 HANDLE_RESET) with the reset rule of each class (R221 to R223): the
event, `sl_err`, what the rule writes, and the presence pulse exactly when the rule goes on. Nothing
is saved. What is left of a response is cleared (log entry 28). -/
def Obligations.BusResetTaken : Prop :=
  ∀ (s : State) (isShort : Bool) (f : Family), s.role = .slave → familyOf s.famHeld = some f →
    let listening (t : State) : State :=
      { slavePlayed [.sReset isShort, .sPresence] t with
        slErr := .none, slPhase := .recvCmd, task := .none, sFramer := {} }
    let deaf : State :=
      { slavePlayed [.sReset isShort] s with
        slErr := .none, slPhase := .waitReset, task := .none, sFramer := {} }
    (f = .ds1971 ∨ f = .ds1992 →
      takeBusReset isShort s = if isShort then deaf else listening { s with cmdState := .idle }) ∧
    (f = .ds1996 →
      takeBusReset isShort s = listening { s with odSlave := false, cmdState := .idle }) ∧
    (f = .generic ∨ f = .ds1990 ∨ f = .ds1420 →
      takeBusReset isShort s = if isShort then deaf else listening s)

/-- A reset pulse preempts what the engine does (R203, R325, R326): a command byte that is arriving is
dropped, a response is abandoned where it stands, the slot fails with its own event and the reset is
taken. A silence ends the command, and the engine waits for a reset. That the slot that fails draws
nothing on the line is the model's choice (log entry 38). -/
def Obligations.BusResetPreempts : Prop :=
  ∀ (s : State) (rest : List Input) (a : PeerAction), s.qStep = [] → s.role = .slave →
    s.inputs = .line (.act a) :: rest → (∀ m, a ≠ .slot m) →
    ∀ e : WireEvent,
      (s.slPhase = .recvCmd ∧ e = .sRecv false false ∨
       s.slPhase = .respond ∧
        ((∃ k c, s.task = .search k .bit c ∧ e = .sSend (s.romBit k) false) ∨
         (∃ k c, s.task = .search k .complement c ∧ e = .sSend (!s.romBit k) false) ∨
         (∃ k c, s.task = .search k .choice c ∧ e = .sRecv false false) ∨
         (∃ k c, s.task = .sendRom k c ∧ e = .sSend (s.sFramer.sh.getLsbD 0) false) ∨
         (∃ lo, s.task = .recvAddr lo ∧ e = .sRecv false false) ∨
         (∃ n, s.task = .sendMem n ∧ e = .sSend (s.sFramer.sh.getLsbD 0) false))) →
      step s = .next (
        match a with
        | .resetStd => takeBusReset false (slavePlayed [e]
            { s with inputs := rest, slErr := .resetInProgress, slRstShort := false })
        | .resetShort => takeBusReset true (slavePlayed [e]
            { s with inputs := rest, slErr := .resetInProgress, slRstShort := true })
        | _ => { slavePlayed [e] s with
            inputs := rest, slErr := .timeout, slPhase := .waitReset, task := .none, sFramer := {} })

/-- A slot in a session while a command or a response is on its way, one step a slot. RECV_CMD (R195, R198,
R204): the slot shifts one bit into `s_sh` from bit 7 downwards; with StepRunsDecodedInstruction the
eighth gives the command byte. SL_RESPOND (R192, R193, R203): the slot of a search triplet (R233), one
bit of the record (R234), one bit of the address or of the memory (R235), and where the responder then
stands. The slot ends the wait that `s_timer` measures (R204; log entry 40). If the peer's
next action is waiting too, the step goes on with it (log entry 4). The responder's place is the model's own field. -/
def Obligations.SlaveSlotByStep : Prop :=
  ∀ (s : State) (m : Bool) (rest : List Input), s.qStep = [] → s.role = .slave →
    s.inputs = .line (.act (.slot m)) :: rest →
    let shifted : SlaveFramer :=
      { sh := BitVec.ofNat 8 (s.sFramer.sh.toNat / 2 + if m then 128 else 0)
        bitcnt := s.sFramer.bitcnt + 1, timer := 0 }
    let heard : State := waited 0 { s with inputs := rest, slErr := .none }
    let sent (b : Bool) : State := slavePlayed [.sSend b true] heard
    let received : State := slavePlayed [.sRecv m true] heard
    let ended (chain : Bool) (t : State) : State :=
      { t with slPhase := if chain then .recvCmd else .waitReset, task := .none, sFramer := {} }
    let loaded (v : Byte) (k : SlaveTask) (t : State) : State :=
      { t with task := k, sFramer := { sh := v, bitcnt := 0, timer := 0 } }
    let out := s.sFramer.sh.getLsbD 0
    let shiftedOut : SlaveFramer :=
      { sh := s.sFramer.sh >>> 1, bitcnt := s.sFramer.bitcnt + 1, timer := 0 }
    (s.slPhase = .recvCmd → s.sFramer.bitcnt.toNat < 7 →
      step s = .next { received with sFramer := shifted }) ∧
    (s.slPhase = .respond →
      (∀ k chain, s.task = .search k .bit chain →
        SlotLeads s rest { sent (s.romBit k) with task := .search k .complement chain }) ∧
      (∀ k chain, s.task = .search k .complement chain →
        SlotLeads s rest { sent (!s.romBit k) with task := .search k .choice chain }) ∧
      (∀ k chain, s.task = .search k .choice chain →
        SlotLeads s rest (if k < 63 then { received with task := .search (k + 1) .bit chain }
          else ended chain received)) ∧
      (∀ k chain, s.task = .sendRom k chain →
        (s.sFramer.bitcnt.toNat < 7 → SlotLeads s rest { sent out with sFramer := shiftedOut }) ∧
        (s.sFramer.bitcnt = 7 → SlotLeads s rest (
          if k < 7 then loaded (s.romAt (k + 1)) (.sendRom (k + 1) chain) (sent out)
          else ended chain (sent out)))) ∧
      (∀ lo, s.task = .recvAddr lo → s.sFramer.bitcnt.toNat < 7 →
        SlotLeads s rest { received with sFramer := shifted }) ∧
      (s.task = .recvAddr none → s.sFramer.bitcnt = 7 →
        SlotLeads s rest { received with task := .recvAddr (some shifted.sh), sFramer := {} }) ∧
      (∀ lo, s.task = .recvAddr (some lo) → s.sFramer.bitcnt = 7 →
        let address := lo.toNat + 256 * shifted.sh.toNat
        SlotLeads s rest (
          if address < memSize s.famHeld then loaded (s.memAt address) (.sendMem address) received
          else ended false received)) ∧
      (∀ a, s.task = .sendMem a →
        (s.sFramer.bitcnt.toNat < 7 → SlotLeads s rest { sent out with sFramer := shiftedOut }) ∧
        (s.sFramer.bitcnt = 7 → SlotLeads s rest (
          if a + 1 < memSize s.famHeld then loaded (s.memAt (a + 1)) (.sendMem (a + 1)) (sent out)
          else ended false (sent out)))))

/-- SEARCH_ROM answered (R225, R230, R233): 192 slots, for each bit of the record the bit, its complement
and the reader's choice, which is not looked at; a stateful family has gone to `RomCommandAccepted`
and expects a command, a stateless one waits for a reset. -/
def Obligations.SearchAnswer : Prop :=
  ∀ (s : State) (f : Family) (ms : List (Bool × Bool × Bool)) (rest : List Input),
    s.role = .slave → familyOf s.famHeld = some f → ms.length = 64 →
    s.inputs = slots (ms.flatMap fun p => [p.1, p.2.1, p.2.2]) ++ rest →
    let answer := searchEvents s.rom.toList (ms.map (·.2.2))
    (hasState f = true → s.cmdState = .idle →
      exec .searchRom s = .next { slavePlayed answer s with
        cmdState := .romCommandAccepted, slErr := .none, slPhase := .recvCmd, task := .none
        sFramer := {}, inputs := rest }) ∧
    (hasState f = false →
      exec .searchRomStateless s = .next { slavePlayed answer s with
        slErr := .none, slPhase := .waitReset, task := .none, sFramer := {}, inputs := rest })

/-- READ_ROM answered (R226, R231, R234): the eight bytes of the record, `ROM[0]` bit 0 first. -/
def Obligations.ReadRomAnswer : Prop :=
  ∀ (s : State) (f : Family) (ms : List Bool) (rest : List Input),
    s.role = .slave → familyOf s.famHeld = some f → ms.length = 64 → s.inputs = slots ms ++ rest →
    let answer := sendEvents s.rom.toList
    (hasState f = true → s.cmdState = .idle →
      exec .readRom s = .next { slavePlayed answer s with
        cmdState := .romCommandAccepted, slErr := .none, slPhase := .recvCmd, task := .none
        sFramer := {}, inputs := rest }) ∧
    (hasState f = false →
      exec .readRomStateless s = .next { slavePlayed answer s with
        slErr := .none, slPhase := .waitReset, task := .none, sFramer := {}, inputs := rest })

/-- The memory read (R225, R235): `cmd_state` first, then two address bytes, low byte first; an address
below `MEM_SIZE(fam)` is answered with the memory from there to the end of the buffer, any other with
nothing; the engine then waits for a reset. -/
def Obligations.MemoryAnswer : Prop :=
  ∀ (s : State) (f : Family) (lo hi : Byte) (ms : List Bool) (rest : List Input),
    s.role = .slave → familyOf s.famHeld = some f → hasState f = true →
    s.cmdState = .romCommandAccepted →
    let address := lo.toNat + 256 * hi.toNat
    let size := familyMemSize f
    let done (es : List WireEvent) : State := { slavePlayed es s with
      cmdState := .memoryCommandAccepted, slErr := .none, slPhase := .waitReset, task := .none
      sFramer := {}, inputs := rest }
    (address < size → ms.length = 8 * (size - address) →
      s.inputs = slots (wireBits [lo, hi]) ++ (slots ms ++ rest) →
      exec .readMem s = .next (done (receiveEvents (wireBits [lo, hi]) ++
        sendEvents (s.memBytes address (size - address))))) ∧
    (size ≤ address → s.inputs = slots (wireBits [lo, hi]) ++ rest →
      exec .readMem s = .next (done (receiveEvents (wireBits [lo, hi]))))

/-- SKIP_ROM and OVERDRIVE_SKIP_ROM (R227, R228), whatever their bytes are (R8; log entry 12): accepted from
`Idle` alone, without a slot; the engine then waits for a command, else for a reset (R198). That the
responder's place and the slave framer are clear is the model's way (log entries 4 and 28). -/
def Obligations.SkipCommands : Prop :=
  ∀ (s : State) (f : Family), s.role = .slave → familyOf s.famHeld = some f →
    (hasState f = true →
      decodeBus s.famHeld s.cmdState s.cmdBytes.skipRom s.cmdBytes = .skipRom ∧
      exec .skipRom s = .next (
        if s.cmdState = .idle then
          { s with cmdState := .romCommandAccepted, slPhase := .recvCmd, task := .none, sFramer := {} }
        else { s with slPhase := .waitReset, task := .none, sFramer := {} })) ∧
    (f = .ds1996 →
      decodeBus s.famHeld s.cmdState s.cmdBytes.overdriveSkipRom s.cmdBytes = .overdriveSkipRom ∧
      exec .overdriveSkipRom s = .next (
        if s.cmdState = .idle then
          { s with
            odSlave := true, cmdState := .romCommandAccepted, slPhase := .recvCmd, task := .none
            sFramer := {} }
        else { s with slPhase := .waitReset, task := .none, sFramer := {} }))

/-- The only paths through `cmd_state` (R237): over every step it stays, or goes one state on, which happens
only in a session of a stateful family, or goes to `Idle`, by a bus reset that the reset rule accepts
in a session (the presence pulse follows it on the wire; a short one only for DS1996), by `EMU.START`
from role `Off`, or by a hardware reset. -/
def Obligations.CmdStateEdges : Prop :=
  ∀ s t : State, step s = .next t →
    t.cmdState = s.cmdState ∨
    (s.role = .slave ∧ t.role = .slave ∧ s.stateful = true ∧
      (s.cmdState = .idle ∧ t.cmdState = .romCommandAccepted ∨
       s.cmdState = .romCommandAccepted ∧ t.cmdState = .memoryCommandAccepted)) ∨
    (t.cmdState = .idle ∧
      ((s.role = .slave ∧ t.role = .slave ∧ ∃ isShort before after,
          t.wire.reverse = s.wire.reverse ++ before ++ [.sReset isShort, .sPresence] ++ after ∧
          (isShort = true → familyOf s.famHeld = some .ds1996)) ∨
       (s.role = .off ∧ t.role = .slave ∧ ∃ w rest, s.inputs = .port w :: rest ∧ w.opsel = 0x20) ∨
       t.epoch = s.epoch + 1))

/-- `ROM`, `AREGS` and `MEM` cannot change under a session (R71, R359), but by a hardware reset. -/
def Obligations.SessionFreezesStorage : Prop :=
  ∀ s t : State, s.role = .slave → step s = .next t →
    (t.rom = s.rom ∧ t.aregs = s.aregs ∧ t.mem = s.mem ∧ t.epoch = s.epoch) ∨ t.epoch = s.epoch + 1

/-- What has been on the wire stays on record: a step only adds events. R74 asks for the record; that it is
kept newest first and outlives a hardware reset is the model's choice (log entry 26). The command byte
parameters are an argument of the step (R6, R8), which no step changes; that they stand in the state is
the model's choice (log entry 12). -/
def Obligations.WireOnlyGrows : Prop :=
  ∀ s t : State, step s = .next t → (∃ es, t.wire = es ++ s.wire) ∧ t.cmdBytes = s.cmdBytes

/-! ## Host sequences -/

/-- The Dallas-common operations that are one frame (R261 to R264, R266): the bytes on the wire and what
is stored. `ROM` is written whatever `presence` says. -/
def Obligations.SequenceFrames : Prop :=
  ∀ (s : State) (w : PortWord), HostReady s →
    (w.opsel = 0x30 → decodePort s.fam w = .ok .seqSkipRom ∧
      ∃ h, exec .seqSkipRom s =
        .next { endHost (reply true 0 [] (played (writeEvents [s.cmdBytes.skipRom]) s)) with hFramer := h }) ∧
    (w.opsel = 0x31 → decodePort s.fam w = .ok .seqReadRom ∧
      ∃ (r : Vector Byte 8) (h : HostFramer), wireBits r.toList = nextBits 64 s.oracle ∧
        exec .seqReadRom s = .next { endHost (reply s.presence 0 []
          { played (writeEvents [0x33] ++ readEvents (nextBits 64 s.oracle)) s with rom := r }) with
          hFramer := h }) ∧
    (w.opsel = 0x32 → w.din.length = w.len.toNat →
      decodePort s.fam w = .ok (.seqWriteScratch w.a16 w.din) ∧
      ∃ h, exec (.seqWriteScratch w.a16 w.din) s = .next { endHost (reply true 0 []
        (played (writeEvents ([0x0F, addrLo w.a16, addrHi w.a16] ++ w.din)) s)) with hFramer := h }) ∧
    (w.opsel = 0x33 → decodePort s.fam w = .ok (.seqReadScratch w.len) ∧
      ∃ (r : Vector Byte 3) (d : List Byte) (h : HostFramer),
        d.length = w.len.toNat ∧
        wireBits (r.toList ++ d) = nextBits (24 + 8 * w.len.toNat) s.oracle ∧
        exec (.seqReadScratch w.len) s = .next { endHost (reply true 0 d
          { played (writeEvents [0xAA] ++ readEvents (wireBits (r.toList ++ d))) s with aregs := r }) with
          hFramer := h }) ∧
    (w.opsel = 0x35 → decodePort s.fam w = .ok (.seqReadMem w.a16 w.len) ∧
      ∃ (d : List Byte) (h : HostFramer),
        d.length = w.len.toNat ∧ wireBits d = nextBits (8 * w.len.toNat) s.oracle ∧
        exec (.seqReadMem w.a16 w.len) s = .next { endHost (reply true 0 d
          (played (writeEvents [0xF0, addrLo w.a16, addrHi w.a16] ++ readEvents (wireBits d)) s)) with
          hFramer := h })

/-- `SEQ.COPY_SCRATCH` (R265) plays its moves: 0x55, the three bytes of `AREGS`, the polls. -/
def Obligations.CopyScratchResult : Prop :=
  ∀ (s : State) (w : PortWord), HostReady s → w.opsel = 0x34 →
    decodePort s.fam w = .ok (.seqCopyScratch w.t32) ∧
    ∃ h, exec (.seqCopyScratch w.t32) s = .next { endHost (reply
      (movesOk (copyScratchMoves w.t32) s) 0 [] (afterMoves (copyScratchMoves w.t32) s)) with
      hFramer := h }

/-- The polls of R265: with the peer's answers `o`, if its first 0 is answer `k` and `k * poll` is below
`t32` there are `k` ones, each with a delay `poll`, then the zero, and success; otherwise there is a
read slot and a delay for every `poll` begun of `t32`, all ones, and no success. That these are at
most 24, and 20 for a multiple of 20 from 100 on, follows the pseudocode of R265, where its derived
remark says 20 for all (log entry 18). -/
def Obligations.PollLoop : Prop :=
  ∀ (t : Micros) (o : List Bool),
    (∀ k rest, o = List.replicate k true ++ false :: rest → k * pollInterval t < t.toNat →
      playPoll (pollInterval t) (pollLimit t) o =
        (true, (List.replicate k [WireEvent.hRead true, .hDelay (pollInterval t)]).flatten ++ [.hRead false],
          rest)) ∧
    ((∀ k rest, o = List.replicate k true ++ false :: rest → t.toNat ≤ k * pollInterval t) →
      playPoll (pollInterval t) (pollLimit t) o =
        (false, (List.replicate (pollLimit t) [WireEvent.hRead true, .hDelay (pollInterval t)]).flatten,
          o.drop (pollLimit t))) ∧
    pollLimit t ≤ 24 ∧ (t = 0 → pollLimit t = 0) ∧
    (100 ≤ t.toNat → 20 ∣ t.toNat → pollLimit t = 20)

/-- `SEQ.WRITE_MEM` (R267): a page size of zero or one that does not divide the size raises the contract
violation before any slot (R322); otherwise the pages are written in ascending order, each by its
four sub-steps, and `ok` says whether every one completed. -/
def Obligations.WriteMemResult : Prop :=
  ∀ (s : State) (w : PortWord), HostReady s → w.opsel = 0x36 → w.din.length = w.len.toNat →
    decodePort s.fam w = .ok (.seqWriteMem w.t32 w.pg w.din) ∧
    (w.pg = 0 ∨ w.len.toNat % w.pg.toNat ≠ 0 →
      exec (.seqWriteMem w.t32 w.pg w.din) s = .next { s with
        fault := true, faultCode := .writeMemSize, role := .off
        status := .fault, ok := false, rdata := 0x00, dout := [] }) ∧
    (w.pg ≠ 0 → w.len.toNat % w.pg.toNat = 0 →
      let ms := writeMemMoves s.cmdBytes w.t32 w.pg.toNat w.din
      ∃ h, exec (.seqWriteMem w.t32 w.pg w.din) s =
        .next { endHost (reply (movesOk ms s) 0 [] (afterMoves ms s)) with hFramer := h })

/-- `FAM.READ` for every family but DS1996 (R268): no presence, nothing stored; otherwise the record, and
for a family with memory the memory from address 0, all from the peer's answers. -/
def Obligations.FamReadResult : Prop :=
  ∀ (s : State) (w : PortWord) (f : Family), HostReady s → familyOf s.famIn = some f → f ≠ .ds1996 →
    w.opsel = 0x38 →
    decodePort s.fam w = .ok .famRead ∧
    (s.oracle.headD false = false → ∃ h, exec .famRead s = .next { endHost (reply false 0 []
      { played [.hReset false] s with presence := false }) with hFramer := h }) ∧
    (s.oracle.headD false = true →
      let n := familyMemSize f
      let bits := nextBits (64 + 8 * n) (s.oracle.drop 1)
      ∃ (r : Vector Byte 8) (d : List Byte) (h : HostFramer),
        wireBits (r.toList ++ d) = bits ∧ d.length = n ∧
        exec .famRead s = .next { endHost (reply true 0 []
          { played ([.hReset true] ++ writeEvents [0x33] ++ readEvents (wireBits r.toList) ++
              (if 0 < n then writeEvents [0xF0, 0x00, 0x00] ++ readEvents (wireBits d) else [])) s with
            presence := true, rom := r, mem := memWriteBytes s.epoch s.mem 0 d }) with hFramer := h })

/-- `FAM.READ` for DS1996 (R269): the ROM phase at the speed in force, the memory phase in overdrive,
and standard speed afterwards on every path. -/
def Obligations.FamReadDs1996Result : Prop :=
  ∀ (s : State) (w : PortWord), HostReady s → familyOf s.famIn = some .ds1996 → w.opsel = 0x38 →
    decodePort s.fam w = .ok .famReadDs1996 ∧
    (s.oracle.headD false = false → ∃ h, exec .famReadDs1996 s = .next { endHost (reply false 0 []
      { played [.hReset false] s with presence := false, odHost := false }) with hFramer := h }) ∧
    (s.oracle.headD false = true →
      ∃ (r : Vector Byte 8), wireBits r.toList = nextBits 64 (s.oracle.drop 1) ∧
        let romPhase := [.hReset true] ++ writeEvents [0x33] ++ readEvents (wireBits r.toList)
        let second := (s.oracle.drop 65).headD false
        (second = false → ∃ h, exec .famReadDs1996 s = .next { endHost (reply false 0 []
          { played (romPhase ++ [.hReset false]) s with
            presence := false, rom := r, odHost := false }) with hFramer := h }) ∧
        (second = true → ∃ (d : List Byte) (h : HostFramer),
          d.length = 8192 ∧ wireBits d = nextBits 65536 (s.oracle.drop 66) ∧
          exec .famReadDs1996 s = .next { endHost (reply true 0 []
            { played (writeEvents [0xF0, 0x00, 0x00] ++ readEvents (wireBits d))
                { played (romPhase ++ [.hReset true] ++ writeEvents [s.cmdBytes.overdriveSkipRom]) s with
                  odHost := true } with
              presence := true, rom := r, mem := memWriteBytes s.epoch s.mem 0 d
              odHost := false }) with hFramer := h }))

/-- `FAM.READ` depends on the peer's answers and on `fam` alone (R68): from two states that agree in these
a successful read leaves the same record and the same memory, whatever `ROM` and `MEM` held. -/
def Obligations.FamReadDependsOnPeerOnly : Prop :=
  ∀ (s u s' u' : State) (w : PortWord) (i : Instr), HostReady s → HostReady u →
    s.famIn = u.famIn → s.oracle = u.oracle →
    Memory.wf s.epoch s.mem = true → Memory.wf u.epoch u.mem = true →
    w.opsel = 0x38 → decodePort s.fam w = .ok i →
    exec i s = .next s' → exec i u = .next u' → s'.ok = true →
    u'.ok = true ∧ u'.rom = s'.rom ∧ ∀ a, a < memSize s.famIn → u'.memAt a = s'.memAt a

/-- `FAM.WRITE_COPY` (R270, R271, R273): DS1992 writes 32 pages of 4 bytes; DS1996 writes 256 pages of 32
bytes inside the overdrive wrap, with standard speed afterwards on every path; a family without the
operation refuses it. -/
def Obligations.WriteCopyResult : Prop :=
  ∀ (s : State) (w : PortWord), HostReady s → w.opsel = 0x39 →
    (familyOf s.famIn = some .ds1992 → decodePort s.fam w = .ok (.famWriteCopyDs1992 w.t32) ∧
      let ms := writeMemMoves s.cmdBytes w.t32 4 (s.memBytes 0 128)
      ∃ h, exec (.famWriteCopyDs1992 w.t32) s =
        .next { endHost (reply (movesOk ms s) 0 [] (afterMoves ms s)) with hFramer := h }) ∧
    (familyOf s.famIn = some .ds1996 → decodePort s.fam w = .ok (.famWriteCopyDs1996 w.t32) ∧
      (s.oracle.headD false = false →
        ∃ h, exec (.famWriteCopyDs1996 w.t32) s = .next { endHost (reply false 0 []
          { played [.hReset false] s with presence := false, odHost := false }) with hFramer := h }) ∧
      (s.oracle.headD false = true →
        let u : State := { played ([.hReset true] ++ writeEvents [s.cmdBytes.overdriveSkipRom]) s with
          presence := true, odHost := true }
        let ms := writeMemMoves s.cmdBytes w.t32 32 (s.memBytes 0 8192)
        ∃ h, exec (.famWriteCopyDs1996 w.t32) s = .next { endHost (reply (movesOk ms u) 0 []
          { afterMoves ms u with odHost := false }) with hFramer := h })) ∧
    (familyOf s.famIn ∈ [none, some .generic, some .ds1990, some .ds1420] →
      decodePort s.fam w = .ok (.famWriteCopyAbsent w.t32) ∧
      exec (.famWriteCopyAbsent w.t32) s = .next (refuse .errUnsupported s))

/-- `FAM.WRITE_COPY` for DS1971 (R272), for whatever the open frame is. That it runs over an opaque frame,
where R272 lets a model without a value refuse, is the model's choice (log entry 17). First: it changes
nothing but the wire, `presence` and the response, and succeeds only if the wire shows the payload
written, the same 32 bytes read back, and after that 0xA5 and 250 us. Second: up to the comparison it
plays the moves of `ds1971HeadMoves`; if one of them fails, an unequal read-back say, nothing follows
and `ok` = 0. Third: these moves are the reset, the ROM-level command, the scratchpad write carrying the
payload, moves that lead to the read-back, and the comparison; beside the payload no byte sent in them
is 0xA5. Fourth: for every frame without delays of its own the 250 us come only after an equal
read-back. -/
def Obligations.Ds1971WriteCopy : Prop :=
  let Shows (data : List Byte) (es : List WireEvent) : Prop :=
    ∃ e1 e2 e3 e4, es = [.hReset true] ++ e1 ++ writeEvents data ++ e2 ++ readEvents (wireBits data) ++
      e3 ++ writeEvents [0xA5] ++ [.hDelay 250] ++ e4
  (∀ (s : State) (w : PortWord), HostReady s → familyOf s.famIn = some .ds1971 → w.opsel = 0x39 →
    decodePort s.fam w = .ok (.famWriteCopyDs1971 w.t32) ∧
    (∃ (ok : Bool) (p : Bool) (es : List WireEvent) (h : HostFramer),
      exec (.famWriteCopyDs1971 w.t32) s =
        .next { endHost (reply ok 0 [] { played es s with presence := p }) with hFramer := h } ∧
      (ok = true → Shows (s.memBytes 0 32) es) ∧
      (s.oracle.headD false = false → ok = false ∧ es = [.hReset false] ∧ p = false)) ∧
    let ms := ds1971HeadMoves Config.ds1971CopyFrame (s.memBytes 0 32)
    (movesOk ms s = false → ∃ h, exec (.famWriteCopyDs1971 w.t32) s =
      .next { endHost (reply false 0 [] (afterMoves ms s)) with hFramer := h }) ∧
    (movesOk ms s = true → ∃ (ok p : Bool) (es : List WireEvent) (h : HostFramer),
      exec (.famWriteCopyDs1971 w.t32) s =
        .next { endHost (reply ok 0 [] { played es (afterMoves ms s) with presence := p }) with
          hFramer := h } ∧
      (ok = true → ∃ e1 e2, es = e1 ++ writeEvents [0xA5] ++ [.hDelay 250] ++ e2))) ∧
  (∀ (f : CopyFrame) (data : List Byte), ∃ (rom : List Byte) (n : Nat) (head : List Byte) (back : List Move),
    ds1971HeadMoves f data =
      [.reset, .say (writeEvents rom), .skip n, .say (writeEvents (head ++ data))] ++ back ++
        [.expect data] ∧
    0xA5 ∉ rom ∧ 0xA5 ∉ head ∧
    ∀ m ∈ back, m = .reset ∨ m = .skip 1 ∨ (∃ mask v, m = .check mask v) ∨ (∃ us, m = .say [.hDelay us]) ∨
      ∃ v, v ≠ 0xA5 ∧ m = .say (writeEvents [v])) ∧
  ∀ (f : CopyFrame) (s : State),
    (∀ m ∈ f.readBackHead, ∀ us, m ≠ .delay us) → (∀ m ∈ f.copyHead ++ f.finalCheck, ∀ us, m ≠ .delay us) →
    ∃ es, (writeCopyDs1971 f s).2.wire = es.reverse ++ s.wire ∧
      ((writeCopyDs1971 f s).1 = true → Shows (s.memBytes 0 32) es) ∧
      (WireEvent.hDelay 250 ∈ es → Shows (s.memBytes 0 32) es)

/-- The blank writers (R302 to R304) play their moves: unlock, bulk write, lock, verify; or the TM2004
exchange, which ends at the first byte stored wrong. -/
def Obligations.BlankWriterResults : Prop :=
  ∀ (s : State) (w : PortWord), HostReady s → w.din.length = w.len.toNat →
    (w.opsel = 0x3C → decodePort s.fam w = .ok (.bwRw1990V1 w.din) ∧
      ∃ h, exec (.bwRw1990V1 w.din) s = .next { endHost (reply (movesOk (writeV1Moves w.din) s) 0 []
        (afterMoves (writeV1Moves w.din) s)) with hFramer := h }) ∧
    (w.opsel = 0x3D → decodePort s.fam w = .ok (.bwRw1990V2 w.din) ∧
      ∃ h, exec (.bwRw1990V2 w.din) s = .next { endHost (reply (movesOk (writeV2Moves w.din) s) 0 []
        (afterMoves (writeV2Moves w.din) s)) with hFramer := h }) ∧
    (w.opsel = 0x3E → decodePort s.fam w = .ok (.bwTm2004 w.din) ∧
      ∃ h, exec (.bwTm2004 w.din) s = .next { endHost (reply (movesOk (writeTm2004Moves w.din) s) 0 []
        (afterMoves (writeTm2004Moves w.din) s)) with hFramer := h })

/-- `FAM.WRITE_ID` (R305): the writers of the family in their order on the eight bytes of `ROM`, the first
success ends the operation; DS1992 and the reserved values refuse it. -/
def Obligations.WriteIdFallback : Prop :=
  ∀ (s : State) (w : PortWord), HostReady s → w.opsel = 0x3A →
    let d := s.rom.toList
    let v1 := afterMoves (writeV1Moves d) s
    let v2 := afterMoves (writeV2Moves d) v1
    let ends (ok : Bool) (t : State) : Prop :=
      ∃ h, exec .famWriteId s = .next { endHost (reply ok 0 [] t) with hFramer := h }
    decodePort s.fam w = .ok .famWriteId ∧
    (familyOf s.famIn ∈ [some .generic, some .ds1971, some .ds1996] →
      ends (movesOk (writeTm2004Moves d) s) (afterMoves (writeTm2004Moves d) s)) ∧
    (familyOf s.famIn ∈ [some .ds1990, some .ds1420] →
      (movesOk (writeV1Moves d) s = true → ends true v1) ∧
      (movesOk (writeV1Moves d) s = false → movesOk (writeV2Moves d) v1 = true → ends true v2) ∧
      (movesOk (writeV1Moves d) s = false → movesOk (writeV2Moves d) v1 = false →
        ends (movesOk (writeTm2004Moves d) v2) (afterMoves (writeTm2004Moves d) v2))) ∧
    (familyOf s.famIn ∈ [none, some .ds1992] →
      exec .famWriteId s = .next (refuse .errUnsupported s))

/-- The command bytes the block sends (R97, R100), each a sub-step of a running sequence: the byte and what
follows it on the wire, and what is stored. The form of a sub-step, `dout` as the place of a payload
that is read, and that a sub-step that fails drops the rest of the sequence are the model's choice (log
entry 20); so is 0x1E as a row that does nothing (log entry 21). The hidden registers are left out. -/
def Obligations.SentCommandFrames : Prop :=
  ∀ s : State, s.role = .host →
    (∃ (r : Vector Byte 8) (t : State), wireBits r.toList = nextBits 64 s.oracle ∧
      exec .hostReadRom s = .next t ∧
      SameButHidden t { played (writeEvents [0x33] ++ readEvents (wireBits r.toList)) s with rom := r }) ∧
    (∀ a data, ∃ t, exec (.hostWriteScratch a data) s = .next t ∧
      SameButHidden t (played (writeEvents ([0x0F, addrLo a, addrHi a] ++ data)) s)) ∧
    (∀ len : Half, ∃ (r : Vector Byte 3) (d : List Byte) (t : State),
      wireBits (r.toList ++ d) = nextBits (24 + 8 * len.toNat) s.oracle ∧ d.length = len.toNat ∧
      exec (.hostReadScratch len) s = .next t ∧
      SameButHidden t { played (writeEvents [0xAA] ++ readEvents (wireBits (r.toList ++ d))) s with
        aregs := r, dout := d }) ∧
    (∀ us, ∃ t, exec (.hostCopyScratch us) s = .next t ∧
      SameButHidden t { afterMoves (copyScratchMoves us) s with
        qStep := if movesOk (copyScratchMoves us) s then s.qStep else [] }) ∧
    (∀ a len : Half, ∃ (d : List Byte) (t : State),
      wireBits d = nextBits (8 * len.toNat) s.oracle ∧ d.length = len.toNat ∧
      exec (.hostReadMem a len) s = .next t ∧
      SameButHidden t { played (writeEvents [0xF0, addrLo a, addrHi a] ++ readEvents (wireBits d)) s with
        dout := d }) ∧
    (∃ t, exec .hostSkipRom s = .next t ∧ SameButHidden t (played (writeEvents [s.cmdBytes.skipRom]) s)) ∧
    (∃ t, exec .hostOverdriveSkipRom s = .next t ∧
      SameButHidden t { played (writeEvents [s.cmdBytes.overdriveSkipRom]) s with odHost := true }) ∧
    (∃ t, exec .hostDs1971Finalization s = .next t ∧
      SameButHidden t (played (writeEvents [0xA5] ++ [.hDelay 250]) s)) ∧
    (∀ b, ∃ t, exec (.hostRw1990V1UnlockLock b) s = .next t ∧
      SameButHidden t (played (writeEvents [0xD1] ++
        (if b then [.hWrite true, .hDelay 10000]
         else [.hDelay Config.tRwShort, .hWrite false, .hDelay 5000])) s)) ∧
    (∀ data, ∃ t, exec (.hostRw1990WriteCommand data) s = .next t ∧
      SameButHidden t (played (writeEvents [0xD5] ++ data.flatMap rwByteEvents) s)) ∧
    (∀ b, ∃ t, exec (.hostRw1990V2UnlockLock b) s = .next t ∧
      SameButHidden t (played (writeEvents [0x1D] ++
        (if b then [.hDelay Config.tRwShort, .hWrite true, .hDelay 5000]
         else [.hWrite false, .hDelay 10000])) s)) ∧
    exec .hostRw1990V2Unused s = .next s ∧
    (∀ data, ∃ t, exec (.hostTm2004Write data) s = .next t ∧
      SameButHidden t { afterMoves (tmWriteMoves data) s with
        qStep := if movesOk (tmWriteMoves data) s then s.qStep else [] })

/-- The dwell times that the rules add up to (R363, R301 to R304): 70 ms a data byte, 575 ms plus
`T_RW_SHORT` for eight bytes of an RW1990 whose two first resets are answered, whatever its verify step
finds, 404.8 ms for eight bytes of a TM2004 that stores them all. -/
def Obligations.DwellTimes : Prop :=
  (∀ b, delayTotal (rwByteEvents b) = 70000) ∧
  ∀ (data : List Byte) (o : List Bool) (r : List Byte), data.length = 8 →
    (∀ ms ∈ [writeV1Moves data, writeV2Moves data],
      o.headD false = true → (o.drop 1).headD false = true →
      delayTotal (playMoves ms o r).events = 575000 + Config.tRwShort) ∧
    ((playMoves (writeTm2004Moves data) o r).ok = true →
      delayTotal (playMoves (writeTm2004Moves data) o r).events = 404800)
end

