-- ==== Sys2Proof/Laws/State.lean ====
section
/-! SUPPORT. What each named update does to each field of the state: one lemma per update, a conjunct per
field, true by rfl, so that no later proof unfolds a record update. -/

namespace Sys2Proof.Machine

/-- The parameters are no byte that the dispatcher has a constant for, nor each other (R8). -/
theorem commandBytes_ne (p : CommandBytes) :
    p.skipRom ≠ 0xF0 ∧ p.skipRom ≠ 0x33 ∧ p.overdriveSkipRom ≠ 0xF0 ∧ p.overdriveSkipRom ≠ 0x33 ∧
    p.overdriveSkipRom ≠ p.skipRom := by
  have h := p.distinct
  simp only [List.nodup_cons, List.mem_cons, List.not_mem_nil, or_false, not_or, Config.cmdSearchRom,
    Config.cmdReadRom] at h
  exact ⟨fun e => h.1.2.1 e.symm, fun e => h.2.1.1 e.symm, fun e => h.1.2.2 e.symm,
    fun e => h.2.1.2 e.symm, fun e => h.2.2.1 e.symm⟩

variable (s : State)

@[simp] theorem reply_fields (b : Bool) (v : Byte) (d : List Byte) :
    (reply b v d s).crc = s.crc ∧ (reply b v d s).rom = s.rom ∧ (reply b v d s).aregs = s.aregs ∧
    (reply b v d s).mem = s.mem ∧ (reply b v d s).cmdState = s.cmdState ∧
    (reply b v d s).role = s.role ∧ (reply b v d s).odHost = s.odHost ∧
    (reply b v d s).odSlave = s.odSlave ∧ (reply b v d s).presence = s.presence ∧
    (reply b v d s).status = (if b then .ok else .fail) ∧ (reply b v d s).ok = b ∧
    (reply b v d s).rdata = v ∧ (reply b v d s).dout = d ∧ (reply b v d s).fault = s.fault ∧
    (reply b v d s).faultCode = s.faultCode ∧ (reply b v d s).slErr = s.slErr ∧
    (reply b v d s).slRstShort = s.slRstShort ∧ (reply b v d s).emuInstalled = s.emuInstalled ∧
    (reply b v d s).slPhase = s.slPhase ∧ (reply b v d s).hFramer = s.hFramer ∧
    (reply b v d s).sFramer = s.sFramer ∧ (reply b v d s).qStep = s.qStep ∧
    (reply b v d s).qPage = s.qPage ∧ (reply b v d s).qIdx = s.qIdx ∧
    (reply b v d s).qElapsed = s.qElapsed ∧ (reply b v d s).qMismatch = s.qMismatch ∧
    (reply b v d s).owPull = s.owPull ∧ (reply b v d s).famIn = s.famIn ∧
    (reply b v d s).famHeld = s.famHeld ∧ (reply b v d s).task = s.task ∧
    (reply b v d s).inputs = s.inputs ∧ (reply b v d s).oracle = s.oracle ∧
    (reply b v d s).wire = s.wire ∧ (reply b v d s).line = s.line ∧ (reply b v d s).epoch = s.epoch ∧
    (reply b v d s).cmdBytes = s.cmdBytes := by
  repeat' constructor

@[simp] theorem replyVerdict_fields (b : Bool) (v : Byte) :
    (replyVerdict b v s).crc = s.crc ∧ (replyVerdict b v s).rom = s.rom ∧
    (replyVerdict b v s).aregs = s.aregs ∧ (replyVerdict b v s).mem = s.mem ∧
    (replyVerdict b v s).cmdState = s.cmdState ∧ (replyVerdict b v s).role = s.role ∧
    (replyVerdict b v s).odHost = s.odHost ∧ (replyVerdict b v s).odSlave = s.odSlave ∧
    (replyVerdict b v s).presence = s.presence ∧ (replyVerdict b v s).status = .ok ∧
    (replyVerdict b v s).ok = b ∧ (replyVerdict b v s).rdata = v ∧ (replyVerdict b v s).dout = [] ∧
    (replyVerdict b v s).fault = s.fault ∧ (replyVerdict b v s).faultCode = s.faultCode ∧
    (replyVerdict b v s).slErr = s.slErr ∧ (replyVerdict b v s).slRstShort = s.slRstShort ∧
    (replyVerdict b v s).emuInstalled = s.emuInstalled ∧ (replyVerdict b v s).slPhase = s.slPhase ∧
    (replyVerdict b v s).hFramer = s.hFramer ∧ (replyVerdict b v s).sFramer = s.sFramer ∧
    (replyVerdict b v s).qStep = s.qStep ∧ (replyVerdict b v s).qPage = s.qPage ∧
    (replyVerdict b v s).qIdx = s.qIdx ∧ (replyVerdict b v s).qElapsed = s.qElapsed ∧
    (replyVerdict b v s).qMismatch = s.qMismatch ∧ (replyVerdict b v s).owPull = s.owPull ∧
    (replyVerdict b v s).famIn = s.famIn ∧ (replyVerdict b v s).famHeld = s.famHeld ∧
    (replyVerdict b v s).task = s.task ∧ (replyVerdict b v s).inputs = s.inputs ∧
    (replyVerdict b v s).oracle = s.oracle ∧ (replyVerdict b v s).wire = s.wire ∧
    (replyVerdict b v s).line = s.line ∧ (replyVerdict b v s).epoch = s.epoch ∧
    (replyVerdict b v s).cmdBytes = s.cmdBytes := by
  repeat' constructor

@[simp] theorem refuse_fields (st : Status) :
    (refuse st s).crc = s.crc ∧ (refuse st s).rom = s.rom ∧ (refuse st s).aregs = s.aregs ∧
    (refuse st s).mem = s.mem ∧ (refuse st s).cmdState = s.cmdState ∧ (refuse st s).role = s.role ∧
    (refuse st s).odHost = s.odHost ∧ (refuse st s).odSlave = s.odSlave ∧
    (refuse st s).presence = s.presence ∧ (refuse st s).status = st ∧ (refuse st s).ok = false ∧
    (refuse st s).rdata = 0 ∧ (refuse st s).dout = [] ∧ (refuse st s).fault = s.fault ∧
    (refuse st s).faultCode = s.faultCode ∧ (refuse st s).slErr = s.slErr ∧
    (refuse st s).slRstShort = s.slRstShort ∧ (refuse st s).emuInstalled = s.emuInstalled ∧
    (refuse st s).slPhase = s.slPhase ∧ (refuse st s).hFramer = s.hFramer ∧
    (refuse st s).sFramer = s.sFramer ∧ (refuse st s).qStep = s.qStep ∧
    (refuse st s).qPage = s.qPage ∧ (refuse st s).qIdx = s.qIdx ∧
    (refuse st s).qElapsed = s.qElapsed ∧ (refuse st s).qMismatch = s.qMismatch ∧
    (refuse st s).owPull = s.owPull ∧ (refuse st s).famIn = s.famIn ∧
    (refuse st s).famHeld = s.famHeld ∧ (refuse st s).task = s.task ∧
    (refuse st s).inputs = s.inputs ∧ (refuse st s).oracle = s.oracle ∧
    (refuse st s).wire = s.wire ∧ (refuse st s).line = s.line ∧ (refuse st s).epoch = s.epoch ∧
    (refuse st s).cmdBytes = s.cmdBytes := by
  repeat' constructor

@[simp] theorem clearSeq_fields :
    (clearSeq s).crc = s.crc ∧ (clearSeq s).rom = s.rom ∧ (clearSeq s).aregs = s.aregs ∧
    (clearSeq s).mem = s.mem ∧ (clearSeq s).cmdState = s.cmdState ∧ (clearSeq s).role = s.role ∧
    (clearSeq s).odHost = s.odHost ∧ (clearSeq s).odSlave = s.odSlave ∧
    (clearSeq s).presence = s.presence ∧ (clearSeq s).status = s.status ∧ (clearSeq s).ok = s.ok ∧
    (clearSeq s).rdata = s.rdata ∧ (clearSeq s).dout = s.dout ∧ (clearSeq s).fault = s.fault ∧
    (clearSeq s).faultCode = s.faultCode ∧ (clearSeq s).slErr = s.slErr ∧
    (clearSeq s).slRstShort = s.slRstShort ∧ (clearSeq s).emuInstalled = s.emuInstalled ∧
    (clearSeq s).slPhase = s.slPhase ∧ (clearSeq s).hFramer = s.hFramer ∧
    (clearSeq s).sFramer = s.sFramer ∧ (clearSeq s).qStep = s.qStep ∧ (clearSeq s).qPage = 0 ∧
    (clearSeq s).qIdx = 0 ∧ (clearSeq s).qElapsed = 0 ∧ (clearSeq s).qMismatch = false ∧
    (clearSeq s).owPull = s.owPull ∧ (clearSeq s).famIn = s.famIn ∧
    (clearSeq s).famHeld = s.famHeld ∧ (clearSeq s).task = s.task ∧
    (clearSeq s).inputs = s.inputs ∧ (clearSeq s).oracle = s.oracle ∧ (clearSeq s).wire = s.wire ∧
    (clearSeq s).line = s.line ∧ (clearSeq s).epoch = s.epoch ∧
    (clearSeq s).cmdBytes = s.cmdBytes := by
  repeat' constructor

@[simp] theorem beginHost_fields :
    (beginHost s).crc = s.crc ∧ (beginHost s).rom = s.rom ∧ (beginHost s).aregs = s.aregs ∧
    (beginHost s).mem = s.mem ∧ (beginHost s).cmdState = s.cmdState ∧ (beginHost s).role = .host ∧
    (beginHost s).odHost = s.odHost ∧ (beginHost s).odSlave = s.odSlave ∧
    (beginHost s).presence = s.presence ∧ (beginHost s).status = s.status ∧
    (beginHost s).ok = s.ok ∧ (beginHost s).rdata = s.rdata ∧ (beginHost s).dout = s.dout ∧
    (beginHost s).fault = s.fault ∧ (beginHost s).faultCode = s.faultCode ∧
    (beginHost s).slErr = s.slErr ∧ (beginHost s).slRstShort = s.slRstShort ∧
    (beginHost s).emuInstalled = s.emuInstalled ∧ (beginHost s).slPhase = s.slPhase ∧
    (beginHost s).hFramer = s.hFramer ∧ (beginHost s).sFramer = s.sFramer ∧
    (beginHost s).qStep = s.qStep ∧ (beginHost s).qPage = 0 ∧ (beginHost s).qIdx = 0 ∧
    (beginHost s).qElapsed = 0 ∧ (beginHost s).qMismatch = false ∧
    (beginHost s).owPull = s.owPull ∧ (beginHost s).famIn = s.famIn ∧
    (beginHost s).famHeld = s.famHeld ∧ (beginHost s).task = s.task ∧
    (beginHost s).inputs = s.inputs ∧ (beginHost s).oracle = s.oracle ∧
    (beginHost s).wire = s.wire ∧ (beginHost s).line = s.line ∧ (beginHost s).epoch = s.epoch ∧
    (beginHost s).cmdBytes = s.cmdBytes := by
  repeat' constructor

@[simp] theorem endHost_fields :
    (endHost s).crc = s.crc ∧ (endHost s).rom = s.rom ∧ (endHost s).aregs = s.aregs ∧
    (endHost s).mem = s.mem ∧ (endHost s).cmdState = s.cmdState ∧ (endHost s).role = .off ∧
    (endHost s).odHost = s.odHost ∧ (endHost s).odSlave = s.odSlave ∧
    (endHost s).presence = s.presence ∧ (endHost s).status = s.status ∧ (endHost s).ok = s.ok ∧
    (endHost s).rdata = s.rdata ∧ (endHost s).dout = s.dout ∧ (endHost s).fault = s.fault ∧
    (endHost s).faultCode = s.faultCode ∧ (endHost s).slErr = s.slErr ∧
    (endHost s).slRstShort = s.slRstShort ∧ (endHost s).emuInstalled = s.emuInstalled ∧
    (endHost s).slPhase = s.slPhase ∧ (endHost s).hFramer = s.hFramer ∧
    (endHost s).sFramer = s.sFramer ∧ (endHost s).qStep = s.qStep ∧ (endHost s).qPage = 0 ∧
    (endHost s).qIdx = 0 ∧ (endHost s).qElapsed = 0 ∧ (endHost s).qMismatch = false ∧
    (endHost s).owPull = false ∧ (endHost s).famIn = s.famIn ∧ (endHost s).famHeld = s.famHeld ∧
    (endHost s).task = s.task ∧ (endHost s).inputs = s.inputs ∧ (endHost s).oracle = s.oracle ∧
    (endHost s).wire = s.wire ∧ (endHost s).line = s.line ∧ (endHost s).epoch = s.epoch ∧
    (endHost s).cmdBytes = s.cmdBytes := by
  repeat' constructor

@[simp] theorem emit_fields (e : WireEvent) (w : List LinePiece) :
    (emit e w s).crc = s.crc ∧ (emit e w s).rom = s.rom ∧ (emit e w s).aregs = s.aregs ∧
    (emit e w s).mem = s.mem ∧ (emit e w s).cmdState = s.cmdState ∧ (emit e w s).role = s.role ∧
    (emit e w s).odHost = s.odHost ∧ (emit e w s).odSlave = s.odSlave ∧
    (emit e w s).presence = s.presence ∧ (emit e w s).status = s.status ∧ (emit e w s).ok = s.ok ∧
    (emit e w s).rdata = s.rdata ∧ (emit e w s).dout = s.dout ∧ (emit e w s).fault = s.fault ∧
    (emit e w s).faultCode = s.faultCode ∧ (emit e w s).slErr = s.slErr ∧
    (emit e w s).slRstShort = s.slRstShort ∧ (emit e w s).emuInstalled = s.emuInstalled ∧
    (emit e w s).slPhase = s.slPhase ∧ (emit e w s).hFramer = s.hFramer ∧
    (emit e w s).sFramer = s.sFramer ∧ (emit e w s).qStep = s.qStep ∧
    (emit e w s).qPage = s.qPage ∧ (emit e w s).qIdx = s.qIdx ∧
    (emit e w s).qElapsed = s.qElapsed ∧ (emit e w s).qMismatch = s.qMismatch ∧
    (emit e w s).owPull = s.owPull ∧ (emit e w s).famIn = s.famIn ∧
    (emit e w s).famHeld = s.famHeld ∧ (emit e w s).task = s.task ∧
    (emit e w s).inputs = s.inputs ∧ (emit e w s).oracle = s.oracle ∧
    (emit e w s).wire = e :: s.wire ∧ (emit e w s).line = w :: s.line ∧
    (emit e w s).epoch = s.epoch ∧
    (emit e w s).cmdBytes = s.cmdBytes := by
  repeat' constructor

@[simp] theorem storeMem_fields (a : Nat) (v : List Byte) :
    (storeMem a v s).crc = s.crc ∧ (storeMem a v s).rom = s.rom ∧
    (storeMem a v s).aregs = s.aregs ∧ (storeMem a v s).mem = memWriteBytes s.epoch s.mem a v ∧
    (storeMem a v s).cmdState = s.cmdState ∧ (storeMem a v s).role = s.role ∧
    (storeMem a v s).odHost = s.odHost ∧ (storeMem a v s).odSlave = s.odSlave ∧
    (storeMem a v s).presence = s.presence ∧ (storeMem a v s).status = s.status ∧
    (storeMem a v s).ok = s.ok ∧ (storeMem a v s).rdata = s.rdata ∧
    (storeMem a v s).dout = s.dout ∧ (storeMem a v s).fault = s.fault ∧
    (storeMem a v s).faultCode = s.faultCode ∧ (storeMem a v s).slErr = s.slErr ∧
    (storeMem a v s).slRstShort = s.slRstShort ∧ (storeMem a v s).emuInstalled = s.emuInstalled ∧
    (storeMem a v s).slPhase = s.slPhase ∧ (storeMem a v s).hFramer = s.hFramer ∧
    (storeMem a v s).sFramer = s.sFramer ∧ (storeMem a v s).qStep = s.qStep ∧
    (storeMem a v s).qPage = s.qPage ∧ (storeMem a v s).qIdx = s.qIdx ∧
    (storeMem a v s).qElapsed = s.qElapsed ∧ (storeMem a v s).qMismatch = s.qMismatch ∧
    (storeMem a v s).owPull = s.owPull ∧ (storeMem a v s).famIn = s.famIn ∧
    (storeMem a v s).famHeld = s.famHeld ∧ (storeMem a v s).task = s.task ∧
    (storeMem a v s).inputs = s.inputs ∧ (storeMem a v s).oracle = s.oracle ∧
    (storeMem a v s).wire = s.wire ∧ (storeMem a v s).line = s.line ∧
    (storeMem a v s).epoch = s.epoch ∧
    (storeMem a v s).cmdBytes = s.cmdBytes := by
  repeat' constructor

@[simp] theorem storeRom_fields (i : Nat) (v : Byte) :
    (storeRom i v s).crc = s.crc ∧ (storeRom i v s).rom = s.rom.setIfInBounds i v ∧
    (storeRom i v s).aregs = s.aregs ∧ (storeRom i v s).mem = s.mem ∧
    (storeRom i v s).cmdState = s.cmdState ∧ (storeRom i v s).role = s.role ∧
    (storeRom i v s).odHost = s.odHost ∧ (storeRom i v s).odSlave = s.odSlave ∧
    (storeRom i v s).presence = s.presence ∧ (storeRom i v s).status = s.status ∧
    (storeRom i v s).ok = s.ok ∧ (storeRom i v s).rdata = s.rdata ∧
    (storeRom i v s).dout = s.dout ∧ (storeRom i v s).fault = s.fault ∧
    (storeRom i v s).faultCode = s.faultCode ∧ (storeRom i v s).slErr = s.slErr ∧
    (storeRom i v s).slRstShort = s.slRstShort ∧ (storeRom i v s).emuInstalled = s.emuInstalled ∧
    (storeRom i v s).slPhase = s.slPhase ∧ (storeRom i v s).hFramer = s.hFramer ∧
    (storeRom i v s).sFramer = s.sFramer ∧ (storeRom i v s).qStep = s.qStep ∧
    (storeRom i v s).qPage = s.qPage ∧ (storeRom i v s).qIdx = s.qIdx ∧
    (storeRom i v s).qElapsed = s.qElapsed ∧ (storeRom i v s).qMismatch = s.qMismatch ∧
    (storeRom i v s).owPull = s.owPull ∧ (storeRom i v s).famIn = s.famIn ∧
    (storeRom i v s).famHeld = s.famHeld ∧ (storeRom i v s).task = s.task ∧
    (storeRom i v s).inputs = s.inputs ∧ (storeRom i v s).oracle = s.oracle ∧
    (storeRom i v s).wire = s.wire ∧ (storeRom i v s).line = s.line ∧
    (storeRom i v s).epoch = s.epoch ∧
    (storeRom i v s).cmdBytes = s.cmdBytes := by
  repeat' constructor

@[simp] theorem storeAreg_fields (i : Nat) (v : Byte) :
    (storeAreg i v s).crc = s.crc ∧ (storeAreg i v s).rom = s.rom ∧
    (storeAreg i v s).aregs = s.aregs.setIfInBounds i v ∧ (storeAreg i v s).mem = s.mem ∧
    (storeAreg i v s).cmdState = s.cmdState ∧ (storeAreg i v s).role = s.role ∧
    (storeAreg i v s).odHost = s.odHost ∧ (storeAreg i v s).odSlave = s.odSlave ∧
    (storeAreg i v s).presence = s.presence ∧ (storeAreg i v s).status = s.status ∧
    (storeAreg i v s).ok = s.ok ∧ (storeAreg i v s).rdata = s.rdata ∧
    (storeAreg i v s).dout = s.dout ∧ (storeAreg i v s).fault = s.fault ∧
    (storeAreg i v s).faultCode = s.faultCode ∧ (storeAreg i v s).slErr = s.slErr ∧
    (storeAreg i v s).slRstShort = s.slRstShort ∧ (storeAreg i v s).emuInstalled = s.emuInstalled ∧
    (storeAreg i v s).slPhase = s.slPhase ∧ (storeAreg i v s).hFramer = s.hFramer ∧
    (storeAreg i v s).sFramer = s.sFramer ∧ (storeAreg i v s).qStep = s.qStep ∧
    (storeAreg i v s).qPage = s.qPage ∧ (storeAreg i v s).qIdx = s.qIdx ∧
    (storeAreg i v s).qElapsed = s.qElapsed ∧ (storeAreg i v s).qMismatch = s.qMismatch ∧
    (storeAreg i v s).owPull = s.owPull ∧ (storeAreg i v s).famIn = s.famIn ∧
    (storeAreg i v s).famHeld = s.famHeld ∧ (storeAreg i v s).task = s.task ∧
    (storeAreg i v s).inputs = s.inputs ∧ (storeAreg i v s).oracle = s.oracle ∧
    (storeAreg i v s).wire = s.wire ∧ (storeAreg i v s).line = s.line ∧
    (storeAreg i v s).epoch = s.epoch ∧
    (storeAreg i v s).cmdBytes = s.cmdBytes := by
  repeat' constructor

@[simp] theorem hostSetOverdrive_fields (b : Bool) :
    (hostSetOverdrive b s).crc = s.crc ∧ (hostSetOverdrive b s).rom = s.rom ∧
    (hostSetOverdrive b s).aregs = s.aregs ∧ (hostSetOverdrive b s).mem = s.mem ∧
    (hostSetOverdrive b s).cmdState = s.cmdState ∧ (hostSetOverdrive b s).role = s.role ∧
    (hostSetOverdrive b s).odHost = b ∧ (hostSetOverdrive b s).odSlave = s.odSlave ∧
    (hostSetOverdrive b s).presence = s.presence ∧ (hostSetOverdrive b s).status = s.status ∧
    (hostSetOverdrive b s).ok = s.ok ∧ (hostSetOverdrive b s).rdata = s.rdata ∧
    (hostSetOverdrive b s).dout = s.dout ∧ (hostSetOverdrive b s).fault = s.fault ∧
    (hostSetOverdrive b s).faultCode = s.faultCode ∧ (hostSetOverdrive b s).slErr = s.slErr ∧
    (hostSetOverdrive b s).slRstShort = s.slRstShort ∧
    (hostSetOverdrive b s).emuInstalled = s.emuInstalled ∧
    (hostSetOverdrive b s).slPhase = s.slPhase ∧ (hostSetOverdrive b s).hFramer = s.hFramer ∧
    (hostSetOverdrive b s).sFramer = s.sFramer ∧ (hostSetOverdrive b s).qStep = s.qStep ∧
    (hostSetOverdrive b s).qPage = s.qPage ∧ (hostSetOverdrive b s).qIdx = s.qIdx ∧
    (hostSetOverdrive b s).qElapsed = s.qElapsed ∧ (hostSetOverdrive b s).qMismatch = s.qMismatch ∧
    (hostSetOverdrive b s).owPull = s.owPull ∧ (hostSetOverdrive b s).famIn = s.famIn ∧
    (hostSetOverdrive b s).famHeld = s.famHeld ∧ (hostSetOverdrive b s).task = s.task ∧
    (hostSetOverdrive b s).inputs = s.inputs ∧ (hostSetOverdrive b s).oracle = s.oracle ∧
    (hostSetOverdrive b s).wire = s.wire ∧ (hostSetOverdrive b s).line = s.line ∧
    (hostSetOverdrive b s).epoch = s.epoch ∧
    (hostSetOverdrive b s).cmdBytes = s.cmdBytes := by
  repeat' constructor

@[simp] theorem slSetOverdrive_fields (b : Bool) :
    (slSetOverdrive b s).crc = s.crc ∧ (slSetOverdrive b s).rom = s.rom ∧
    (slSetOverdrive b s).aregs = s.aregs ∧ (slSetOverdrive b s).mem = s.mem ∧
    (slSetOverdrive b s).cmdState = s.cmdState ∧ (slSetOverdrive b s).role = s.role ∧
    (slSetOverdrive b s).odHost = s.odHost ∧ (slSetOverdrive b s).odSlave = b ∧
    (slSetOverdrive b s).presence = s.presence ∧ (slSetOverdrive b s).status = s.status ∧
    (slSetOverdrive b s).ok = s.ok ∧ (slSetOverdrive b s).rdata = s.rdata ∧
    (slSetOverdrive b s).dout = s.dout ∧ (slSetOverdrive b s).fault = s.fault ∧
    (slSetOverdrive b s).faultCode = s.faultCode ∧ (slSetOverdrive b s).slErr = s.slErr ∧
    (slSetOverdrive b s).slRstShort = s.slRstShort ∧
    (slSetOverdrive b s).emuInstalled = s.emuInstalled ∧ (slSetOverdrive b s).slPhase = s.slPhase ∧
    (slSetOverdrive b s).hFramer = s.hFramer ∧ (slSetOverdrive b s).sFramer = s.sFramer ∧
    (slSetOverdrive b s).qStep = s.qStep ∧ (slSetOverdrive b s).qPage = s.qPage ∧
    (slSetOverdrive b s).qIdx = s.qIdx ∧ (slSetOverdrive b s).qElapsed = s.qElapsed ∧
    (slSetOverdrive b s).qMismatch = s.qMismatch ∧ (slSetOverdrive b s).owPull = s.owPull ∧
    (slSetOverdrive b s).famIn = s.famIn ∧ (slSetOverdrive b s).famHeld = s.famHeld ∧
    (slSetOverdrive b s).task = s.task ∧ (slSetOverdrive b s).inputs = s.inputs ∧
    (slSetOverdrive b s).oracle = s.oracle ∧ (slSetOverdrive b s).wire = s.wire ∧
    (slSetOverdrive b s).line = s.line ∧ (slSetOverdrive b s).epoch = s.epoch ∧
    (slSetOverdrive b s).cmdBytes = s.cmdBytes := by
  repeat' constructor

@[simp] theorem raiseContract_fields :
    (raiseContract s).crc = s.crc ∧ (raiseContract s).rom = s.rom ∧
    (raiseContract s).aregs = s.aregs ∧ (raiseContract s).mem = s.mem ∧
    (raiseContract s).cmdState = s.cmdState ∧ (raiseContract s).role = .off ∧
    (raiseContract s).odHost = s.odHost ∧ (raiseContract s).odSlave = s.odSlave ∧
    (raiseContract s).presence = s.presence ∧ (raiseContract s).status = .fault ∧
    (raiseContract s).ok = false ∧ (raiseContract s).rdata = 0 ∧ (raiseContract s).dout = [] ∧
    (raiseContract s).fault = true ∧ (raiseContract s).faultCode = .writeMemSize ∧
    (raiseContract s).slErr = s.slErr ∧ (raiseContract s).slRstShort = s.slRstShort ∧
    (raiseContract s).emuInstalled = s.emuInstalled ∧ (raiseContract s).slPhase = s.slPhase ∧
    (raiseContract s).hFramer = s.hFramer ∧ (raiseContract s).sFramer = s.sFramer ∧
    (raiseContract s).qStep = s.qStep ∧ (raiseContract s).qPage = s.qPage ∧
    (raiseContract s).qIdx = s.qIdx ∧ (raiseContract s).qElapsed = s.qElapsed ∧
    (raiseContract s).qMismatch = s.qMismatch ∧ (raiseContract s).owPull = s.owPull ∧
    (raiseContract s).famIn = s.famIn ∧ (raiseContract s).famHeld = s.famHeld ∧
    (raiseContract s).task = s.task ∧ (raiseContract s).inputs = s.inputs ∧
    (raiseContract s).oracle = s.oracle ∧ (raiseContract s).wire = s.wire ∧
    (raiseContract s).line = s.line ∧ (raiseContract s).epoch = s.epoch ∧
    (raiseContract s).cmdBytes = s.cmdBytes := by
  repeat' constructor

@[simp] theorem waitForReset_fields :
    (waitForReset s).crc = s.crc ∧ (waitForReset s).rom = s.rom ∧
    (waitForReset s).aregs = s.aregs ∧ (waitForReset s).mem = s.mem ∧
    (waitForReset s).cmdState = s.cmdState ∧ (waitForReset s).role = s.role ∧
    (waitForReset s).odHost = s.odHost ∧ (waitForReset s).odSlave = s.odSlave ∧
    (waitForReset s).presence = s.presence ∧ (waitForReset s).status = s.status ∧
    (waitForReset s).ok = s.ok ∧ (waitForReset s).rdata = s.rdata ∧
    (waitForReset s).dout = s.dout ∧ (waitForReset s).fault = s.fault ∧
    (waitForReset s).faultCode = s.faultCode ∧ (waitForReset s).slErr = s.slErr ∧
    (waitForReset s).slRstShort = s.slRstShort ∧ (waitForReset s).emuInstalled = s.emuInstalled ∧
    (waitForReset s).slPhase = .waitReset ∧ (waitForReset s).hFramer = s.hFramer ∧
    (waitForReset s).sFramer = {} ∧ (waitForReset s).qStep = s.qStep ∧
    (waitForReset s).qPage = s.qPage ∧ (waitForReset s).qIdx = s.qIdx ∧
    (waitForReset s).qElapsed = s.qElapsed ∧ (waitForReset s).qMismatch = s.qMismatch ∧
    (waitForReset s).owPull = s.owPull ∧ (waitForReset s).famIn = s.famIn ∧
    (waitForReset s).famHeld = s.famHeld ∧ (waitForReset s).task = .none ∧
    (waitForReset s).inputs = s.inputs ∧ (waitForReset s).oracle = s.oracle ∧
    (waitForReset s).wire = s.wire ∧ (waitForReset s).line = s.line ∧
    (waitForReset s).epoch = s.epoch ∧
    (waitForReset s).cmdBytes = s.cmdBytes := by
  repeat' constructor

@[simp] theorem waitForCommand_fields :
    (waitForCommand s).crc = s.crc ∧ (waitForCommand s).rom = s.rom ∧
    (waitForCommand s).aregs = s.aregs ∧ (waitForCommand s).mem = s.mem ∧
    (waitForCommand s).cmdState = s.cmdState ∧ (waitForCommand s).role = s.role ∧
    (waitForCommand s).odHost = s.odHost ∧ (waitForCommand s).odSlave = s.odSlave ∧
    (waitForCommand s).presence = s.presence ∧ (waitForCommand s).status = s.status ∧
    (waitForCommand s).ok = s.ok ∧ (waitForCommand s).rdata = s.rdata ∧
    (waitForCommand s).dout = s.dout ∧ (waitForCommand s).fault = s.fault ∧
    (waitForCommand s).faultCode = s.faultCode ∧ (waitForCommand s).slErr = s.slErr ∧
    (waitForCommand s).slRstShort = s.slRstShort ∧
    (waitForCommand s).emuInstalled = s.emuInstalled ∧ (waitForCommand s).slPhase = .recvCmd ∧
    (waitForCommand s).hFramer = s.hFramer ∧ (waitForCommand s).sFramer = {} ∧
    (waitForCommand s).qStep = s.qStep ∧ (waitForCommand s).qPage = s.qPage ∧
    (waitForCommand s).qIdx = s.qIdx ∧ (waitForCommand s).qElapsed = s.qElapsed ∧
    (waitForCommand s).qMismatch = s.qMismatch ∧ (waitForCommand s).owPull = s.owPull ∧
    (waitForCommand s).famIn = s.famIn ∧ (waitForCommand s).famHeld = s.famHeld ∧
    (waitForCommand s).task = .none ∧ (waitForCommand s).inputs = s.inputs ∧
    (waitForCommand s).oracle = s.oracle ∧ (waitForCommand s).wire = s.wire ∧
    (waitForCommand s).line = s.line ∧ (waitForCommand s).epoch = s.epoch ∧
    (waitForCommand s).cmdBytes = s.cmdBytes := by
  repeat' constructor

@[simp] theorem loadByte_fields (v : Byte) (k : SlaveTask) :
    (loadByte v k s).crc = s.crc ∧ (loadByte v k s).rom = s.rom ∧
    (loadByte v k s).aregs = s.aregs ∧ (loadByte v k s).mem = s.mem ∧
    (loadByte v k s).cmdState = s.cmdState ∧ (loadByte v k s).role = s.role ∧
    (loadByte v k s).odHost = s.odHost ∧ (loadByte v k s).odSlave = s.odSlave ∧
    (loadByte v k s).presence = s.presence ∧ (loadByte v k s).status = s.status ∧
    (loadByte v k s).ok = s.ok ∧ (loadByte v k s).rdata = s.rdata ∧
    (loadByte v k s).dout = s.dout ∧ (loadByte v k s).fault = s.fault ∧
    (loadByte v k s).faultCode = s.faultCode ∧ (loadByte v k s).slErr = s.slErr ∧
    (loadByte v k s).slRstShort = s.slRstShort ∧ (loadByte v k s).emuInstalled = s.emuInstalled ∧
    (loadByte v k s).slPhase = s.slPhase ∧ (loadByte v k s).hFramer = s.hFramer ∧
    (loadByte v k s).sFramer = { sh := v } ∧ (loadByte v k s).qStep = s.qStep ∧
    (loadByte v k s).qPage = s.qPage ∧ (loadByte v k s).qIdx = s.qIdx ∧
    (loadByte v k s).qElapsed = s.qElapsed ∧ (loadByte v k s).qMismatch = s.qMismatch ∧
    (loadByte v k s).owPull = s.owPull ∧ (loadByte v k s).famIn = s.famIn ∧
    (loadByte v k s).famHeld = s.famHeld ∧ (loadByte v k s).task = k ∧
    (loadByte v k s).inputs = s.inputs ∧ (loadByte v k s).oracle = s.oracle ∧
    (loadByte v k s).wire = s.wire ∧ (loadByte v k s).line = s.line ∧
    (loadByte v k s).epoch = s.epoch ∧
    (loadByte v k s).cmdBytes = s.cmdBytes := by
  repeat' constructor

@[simp] theorem played_fields (es : List WireEvent) :
    (played es s).crc = s.crc ∧ (played es s).rom = s.rom ∧ (played es s).aregs = s.aregs ∧
    (played es s).mem = s.mem ∧ (played es s).cmdState = s.cmdState ∧ (played es s).role = s.role ∧
    (played es s).odHost = s.odHost ∧ (played es s).odSlave = s.odSlave ∧
    (played es s).presence = s.presence ∧ (played es s).status = s.status ∧
    (played es s).ok = s.ok ∧ (played es s).rdata = s.rdata ∧ (played es s).dout = s.dout ∧
    (played es s).fault = s.fault ∧ (played es s).faultCode = s.faultCode ∧
    (played es s).slErr = s.slErr ∧ (played es s).slRstShort = s.slRstShort ∧
    (played es s).emuInstalled = s.emuInstalled ∧ (played es s).slPhase = s.slPhase ∧
    (played es s).hFramer = s.hFramer ∧ (played es s).sFramer = s.sFramer ∧
    (played es s).qStep = s.qStep ∧ (played es s).qPage = s.qPage ∧ (played es s).qIdx = s.qIdx ∧
    (played es s).qElapsed = s.qElapsed ∧ (played es s).qMismatch = s.qMismatch ∧
    (played es s).owPull = s.owPull ∧ (played es s).famIn = s.famIn ∧
    (played es s).famHeld = s.famHeld ∧ (played es s).task = s.task ∧
    (played es s).inputs = s.inputs ∧ (played es s).oracle = s.oracle.drop (answersUsed es) ∧
    (played es s).wire = es.reverse ++ s.wire ∧
    (played es s).line = (es.map (waveOf (Config.tHost s.odHost))).reverse ++ s.line ∧
    (played es s).epoch = s.epoch ∧
    (played es s).cmdBytes = s.cmdBytes := by
  repeat' constructor

end Sys2Proof.Machine
end

