-- ==== Sys2Proof/Laws/HostFraming.lean ====
section
/-! SUPPORT. The host framer's primitives in closed form: what each leaves is the state after its wire
events (`played`), up to the framer's shift register and the sequencer's registers. -/

namespace Sys2Proof.Machine

/-! ## Lists of events -/

@[simp] theorem answersUsed_append (a b : List WireEvent) :
    answersUsed (a ++ b) = answersUsed a + answersUsed b := by
  induction a with
  | nil => simp [answersUsed]
  | cons e a ih => cases e <;> simp [answersUsed, ih] <;> omega

@[simp] theorem lastPresence_append (p : Bool) (a b : List WireEvent) :
    lastPresence p (a ++ b) = lastPresence (lastPresence p a) b := by
  induction a generalizing p with
  | nil => rfl
  | cons e a ih => cases e <;> simp [lastPresence, ih]

@[simp] theorem delayTotal_append (a b : List WireEvent) :
    delayTotal (a ++ b) = delayTotal a + delayTotal b := by
  induction a with
  | nil => simp [delayTotal]
  | cons e a ih => cases e <;> simp [delayTotal, ih]; omega

@[simp] theorem answersUsed_writes (bits : List Bool) : answersUsed (bits.map .hWrite) = 0 := by
  induction bits with
  | nil => rfl
  | cons b bits ih => simp [answersUsed, ih]

@[simp] theorem lastPresence_writes (p : Bool) (bits : List Bool) :
    lastPresence p (bits.map .hWrite) = p := by
  induction bits with
  | nil => rfl
  | cons b bits ih => simp [lastPresence, ih]

@[simp] theorem delayTotal_writes (bits : List Bool) : delayTotal (bits.map .hWrite) = 0 := by
  induction bits with
  | nil => rfl
  | cons b bits ih => simp [delayTotal, ih]

@[simp] theorem answersUsed_readEvents (bits : List Bool) :
    answersUsed (readEvents bits) = bits.length := by
  unfold readEvents
  induction bits with
  | nil => rfl
  | cons b bits ih => simp [answersUsed, ih]

@[simp] theorem lastPresence_readEvents (p : Bool) (bits : List Bool) :
    lastPresence p (readEvents bits) = p := by
  unfold readEvents
  induction bits with
  | nil => rfl
  | cons b bits ih => simp [lastPresence, ih]

@[simp] theorem delayTotal_readEvents (bits : List Bool) : delayTotal (readEvents bits) = 0 := by
  unfold readEvents
  induction bits with
  | nil => rfl
  | cons b bits ih => simp [delayTotal, ih]

@[simp] theorem answersUsed_writeEvents (v : List Byte) : answersUsed (writeEvents v) = 0 :=
  answersUsed_writes _

@[simp] theorem lastPresence_writeEvents (p : Bool) (v : List Byte) :
    lastPresence p (writeEvents v) = p := lastPresence_writes _ _

@[simp] theorem delayTotal_writeEvents (v : List Byte) : delayTotal (writeEvents v) = 0 :=
  delayTotal_writes _

theorem wireBits_cons (b : Byte) (v : List Byte) : wireBits (b :: v) = bitsOf b ++ wireBits v := rfl

theorem wireBits_append (a b : List Byte) : wireBits (a ++ b) = wireBits a ++ wireBits b := by
  simp [wireBits]

theorem writeEvents_append (a b : List Byte) :
    writeEvents (a ++ b) = writeEvents a ++ writeEvents b := by
  simp [writeEvents, wireBits_append]

theorem writeEvents_cons (b : Byte) (v : List Byte) :
    writeEvents (b :: v) = writeEvents [b] ++ writeEvents v := writeEvents_append [b] v

@[simp] theorem writeEvents_nil : writeEvents [] = [] := rfl

theorem readEvents_append (a b : List Bool) : readEvents (a ++ b) = readEvents a ++ readEvents b := by
  simp [readEvents]

@[simp] theorem bitsOf_length (b : Byte) : (bitsOf b).length = 8 := rfl

@[simp] theorem wireBits_length (v : List Byte) : (wireBits v).length = 8 * v.length := by
  induction v with
  | nil => rfl
  | cons b v ih => rw [wireBits_cons]; simp [ih]; omega

/-! ## The peer's answers -/

@[simp] theorem nextBits_length (n : Nat) (o : List Bool) : (nextBits n o).length = n := by
  simp [nextBits]

@[simp] theorem nextBits_zero (o : List Bool) : nextBits 0 o = [] := by simp [nextBits]

theorem nextBits_succ (n : Nat) (o : List Bool) :
    nextBits (n + 1) o = o.headD true :: nextBits n (o.drop 1) := by
  cases o with
  | nil => simp [nextBits, List.replicate_succ]
  | cons b o =>
    simp only [nextBits, List.replicate_succ', ← List.append_assoc, List.headD_cons,
      List.drop_succ_cons, List.drop_zero, List.cons_append, List.take_succ_cons, List.cons.injEq,
      true_and]
    rw [List.take_append_of_le_length (by simp)]

theorem nextBits_add (m n : Nat) (o : List Bool) :
    nextBits (m + n) o = nextBits m o ++ nextBits n (o.drop m) := by
  induction m generalizing o with
  | zero => simp
  | succ m ih =>
    rw [show m + 1 + n = (m + n) + 1 by omega, nextBits_succ, nextBits_succ, ih]
    simp

/-- The listed answers come first. -/
theorem nextBits_of_append (a b : List Bool) : nextBits a.length (a ++ b) = a := by
  simp [nextBits]

theorem bytesOf_nextBits_succ (n : Nat) (o : List Bool) :
    bytesOf (n + 1) (nextBits (8 * (n + 1)) o) =
      byteOf (nextBits 8 o) :: bytesOf n (nextBits (8 * n) (o.drop 8)) := by
  rw [show 8 * (n + 1) = 8 + 8 * n by omega, nextBits_add, bytesOf]
  rw [List.take_append_of_le_length (by simp), List.take_of_length_le (by simp),
    List.drop_append_of_le_length (by simp), List.drop_of_length_le (by simp), List.nil_append]

@[simp] theorem bytesOf_length (n : Nat) (bits : List Bool) : (bytesOf n bits).length = n := by
  induction n generalizing bits with
  | zero => rfl
  | succ n ih => simp [bytesOf, ih]

/-- The bits of a byte read back in wire order give the byte. -/
theorem byteOf_bitsOf (b : Byte) : byteOf (bitsOf b) = b := by
  revert b; decide

theorem bytesOf_wireBits (v : List Byte) : bytesOf v.length (wireBits v) = v := by
  induction v with
  | nil => rfl
  | cons b v ih =>
    rw [wireBits_cons, List.length_cons, bytesOf, List.take_append_of_le_length (by simp),
      List.take_of_length_le (by simp), byteOf_bitsOf, List.drop_append_of_le_length (by simp),
      List.drop_of_length_le (by simp), List.nil_append, ih]

/-! ## States that differ in hidden registers alone -/

theorem SameButHidden.refl (u : State) : SameButHidden u u := ⟨_, _, _, _, _, rfl, id⟩

theorem SameButHidden.trans {t u v : State} (h : SameButHidden t u) (k : SameButHidden u v) :
    SameButHidden t v := by
  obtain ⟨a, b, c, d, e, rfl, hi⟩ := h
  obtain ⟨a', b', c', d', e', rfl, ki⟩ := k
  exact ⟨a, b, c, d, e, rfl, fun x => hi (ki x)⟩

/-- Playing events does not look at the hidden registers. -/
theorem SameButHidden.played {t u : State} (h : SameButHidden t u) (es : List WireEvent) :
    SameButHidden (Machine.played es t) (Machine.played es u) := by
  obtain ⟨a, b, c, d, e, rfl, hi⟩ := h
  exact ⟨a, b, c, d, e, rfl, hi⟩

/-- The end of an operation clears the sequencer, so only the framer's register can differ. -/
theorem SameButHidden.endHost {t u : State} (h : SameButHidden t u) (b : Bool) (v : Byte)
    (d : List Byte) :
    ∃ f, Machine.endHost (reply b v d t) = { Machine.endHost (reply b v d u) with hFramer := f } ∧
      (u.hFramer.Idle → f.Idle) := by
  obtain ⟨f, _, _, _, _, rfl, hi⟩ := h
  exact ⟨f, rfl, hi⟩

theorem SameButHidden.beginHost (s : State) : SameButHidden (Machine.beginHost s) { s with role := .host } :=
  ⟨_, _, _, _, _, rfl, id⟩

/-! ## Playing events -/

@[simp] theorem played_nil (s : State) : played [] s = s := by
  simp [played, answersUsed]

theorem played_append (a b : List WireEvent) (s : State) :
    played (a ++ b) s = played b (played a s) := by
  simp [played, List.drop_drop]

theorem popAnswer_eq (d : Bool) (s : State) :
    popAnswer d s = (s.oracle.headD d, { s with oracle := s.oracle.drop 1 }) := by
  unfold popAnswer
  split <;> rename_i h <;> simp [h]
  simp [← h]

/-- One reset, R152. -/
theorem hostReset_eq (s : State) :
    hostReset s = (s.oracle.headD false,
      { played [.hReset (s.oracle.headD false)] s with presence := s.oracle.headD false }) := by
  simp [hostReset, popAnswer_eq, emit, played, answersUsed, waveOf, State.hostTable]

/-- One read slot, R154. -/
theorem hostReadBit_eq (s : State) :
    hostReadBit s = (s.oracle.headD true, played [.hRead (s.oracle.headD true)] s) := by
  simp [hostReadBit, popAnswer_eq, emit, played, answersUsed, waveOf, State.hostTable]

/-- One write slot, R153. -/
theorem hostWriteBit_eq (b : Bool) (s : State) : hostWriteBit b s = played [.hWrite b] s := by
  simp [hostWriteBit, emit, played, answersUsed, waveOf, State.hostTable]

/-- A delay, R160. -/
theorem hostDelay_eq (n : Nat) (s : State) : hostDelay n s = played [.hDelay n] s := by
  simp [hostDelay, emit, played, answersUsed, waveOf]

theorem hostWriteBits_eq (bits : List Bool) (s : State) :
    hostWriteBits bits s = played (bits.map .hWrite) s := by
  induction bits generalizing s with
  | nil => simp [hostWriteBits]
  | cons b bits ih =>
    rw [hostWriteBits, ih, hostWriteBit_eq, ← played_append]; rfl

theorem hostReadBits_eq (n : Nat) (s : State) :
    hostReadBits n s = (nextBits n s.oracle, played (readEvents (nextBits n s.oracle)) s) := by
  induction n generalizing s with
  | zero => simp [hostReadBits, readEvents]
  | succ n ih =>
    rw [hostReadBits, hostReadBit_eq, nextBits_succ]
    simp only [ih]
    simp only [played_fields, answersUsed, zero_add]
    rw [← played_append]; rfl

/-- One written byte, R155. -/
theorem hostWriteByte_eq (v : Byte) (s : State) :
    hostWriteByte v s = { played (writeEvents [v]) s with hFramer := {} } := by
  simp [hostWriteByte, hostWriteBits_eq, writeEvents, wireBits]

/-- One read byte, R156. -/
theorem hostReadByte_eq (s : State) :
    hostReadByte s = (byteOf (nextBits 8 s.oracle),
      { played (readEvents (nextBits 8 s.oracle)) s with
        hFramer := { sh := byteOf (nextBits 8 s.oracle) } }) := by
  simp [hostReadByte, hostReadBits_eq]

/-- Written bytes, R157. -/
theorem hostWriteBytes_same (v : List Byte) (s : State) :
    SameButHidden (hostWriteBytes v s) (played (writeEvents v) s) := by
  induction v generalizing s with
  | nil => exact (played_nil s).symm ▸ .refl s
  | cons b v ih =>
    rw [hostWriteBytes, writeEvents_cons, played_append]
    refine (ih _).trans (SameButHidden.played ?_ _)
    rw [hostWriteByte_eq]
    exact ⟨_, _, _, _, _, rfl, fun _ => ⟨rfl, rfl, rfl⟩⟩

/-- Read bytes, R158: the bytes. -/
theorem hostReadBytes_fst (n : Nat) (s : State) :
    (hostReadBytes n s).1 = bytesOf n (nextBits (8 * n) s.oracle) := by
  induction n generalizing s with
  | zero => rfl
  | succ n ih =>
    rw [hostReadBytes, bytesOf_nextBits_succ, hostReadByte_eq]
    simp only [ih]
    simp

/-- Read bytes, R158: the state. -/
theorem hostReadBytes_same (n : Nat) (s : State) :
    SameButHidden (hostReadBytes n s).2 (played (readEvents (nextBits (8 * n) s.oracle)) s) := by
  induction n generalizing s with
  | zero => simpa [hostReadBytes, readEvents] using SameButHidden.refl s
  | succ n ih =>
    rw [hostReadBytes, show 8 * (n + 1) = 8 + 8 * n by omega, nextBits_add, readEvents_append,
      played_append]
    refine (ih _).trans ?_
    rw [hostReadByte_eq]
    have ho : s.oracle.drop 8 = s.oracle.drop (answersUsed (readEvents (nextBits 8 s.oracle))) := by
      simp
    rw [ho]
    exact SameButHidden.played ⟨_, _, _, _, _, rfl, fun _ => ⟨rfl, rfl, rfl⟩⟩ _

end Sys2Proof.Machine
end

