-- ==== Sys2Proof/Laws/Sequences.lean ====
section
/-! SUPPORT. The host sequences as moves: every sequence of Ops.lean succeeds exactly when its moves do and
leaves what they leave (`Plays`), and the rules that put such facts together. -/

namespace Sys2Proof.Machine

/-! ## Playing moves -/

theorem playPoll_oracle (poll n : Nat) (o : List Bool) :
    (playPoll poll n o).2.2 = o.drop (answersUsed (playPoll poll n o).2.1) := by
  induction n generalizing o with
  | zero => simp [playPoll, answersUsed]
  | succ n ih =>
    rw [playPoll]
    split
    · simp only [answersUsed, ih, List.drop_drop]
      congr 1; omega
    · simp [answersUsed]

/-- A move uses as many answers as its events say. -/
theorem playMove_oracle (m : Move) (o : List Bool) (r : List Byte)
    (hsay : ∀ es, m = .say es → answersUsed es = 0) :
    (playMove m o r).oracle = o.drop (answersUsed (playMove m o r).events) := by
  cases m with
  | say es => simp [playMove, hsay es rfl]
  | poll t => exact playPoll_oracle _ _ _
  | reset => simp [playMove, answersUsed]
  | _ => simp [playMove, answersUsed]

/-- Moves whose writes and delays hold no reset and no read. -/
def Quiet (ms : List Move) : Prop :=
  ∀ es, Move.say es ∈ ms → answersUsed es = 0 ∧ ∀ p, lastPresence p es = p

theorem Quiet.tail {m : Move} {ms : List Move} (h : Quiet (m :: ms)) : Quiet ms :=
  fun es hes => h es (List.mem_cons_of_mem _ hes)

theorem Quiet.append {a b : List Move} (ha : Quiet a) (hb : Quiet b) : Quiet (a ++ b) := by
  intro es h
  rcases List.mem_append.1 h with h | h
  · exact ha es h
  · exact hb es h

theorem Quiet.head {m : Move} {ms : List Move} (h : Quiet (m :: ms)) :
    ∀ es, m = .say es → answersUsed es = 0 := by
  rintro es rfl
  exact (h es (by simp)).1

theorem playMoves_oracle (ms : List Move) (o : List Bool) (r : List Byte) (hq : Quiet ms) :
    (playMoves ms o r).oracle = o.drop (answersUsed (playMoves ms o r).events) := by
  induction ms generalizing o r with
  | nil => simp [playMoves, answersUsed]
  | cons m ms ih =>
    rw [playMoves]
    have hm := playMove_oracle m o r hq.head
    simp only
    split
    · simp only [ih _ _ hq.tail, hm, List.drop_drop, answersUsed_append]
    · exact hm

theorem playMove_regs (m : Move) (o : List Bool) (r : List Byte) (h : r.length = 3) :
    (playMove m o r).regs.length = 3 := by
  cases m <;> simp [playMove, h]

theorem playMoves_regs (ms : List Move) (o : List Bool) (r : List Byte) (h : r.length = 3) :
    (playMoves ms o r).regs.length = 3 := by
  induction ms generalizing o r with
  | nil => exact h
  | cons m ms ih =>
    rw [playMoves]
    simp only
    split
    · exact ih _ _ (playMove_regs m o r h)
    · exact playMove_regs m o r h

theorem playMoves_append (a b : List Move) (o : List Bool) (r : List Byte) :
    playMoves (a ++ b) o r =
      if (playMoves a o r).ok then
        { playMoves b (playMoves a o r).oracle (playMoves a o r).regs with
          events := (playMoves a o r).events ++
            (playMoves b (playMoves a o r).oracle (playMoves a o r).regs).events }
      else playMoves a o r := by
  induction a generalizing o r with
  | nil => simp [playMoves]
  | cons m a ih =>
    rw [List.cons_append, playMoves, playMoves]
    simp only [ih]
    split
    · simp only
      split <;> simp
    · rfl

/-- Three bytes as a vector and back. -/
theorem aregs_toList (v : Vector Byte 3) :
    (#v[v.toList.getD 0 0, v.toList.getD 1 0, v.toList.getD 2 0] : Vector Byte 3) = v := by
  obtain ⟨⟨l⟩, h⟩ := v
  match l, h with
  | [a, b, c], _ => rfl

theorem toList_aregs (l : List Byte) (h : l.length = 3) :
    (#v[l.getD 0 0, l.getD 1 0, l.getD 2 0] : Vector Byte 3).toList = l := by
  match l, h with
  | [a, b, c], _ => rfl

theorem aregs_length (s : State) : s.aregs.toList.length = 3 := by simp

theorem aregAt_list (s : State) : s.aregs.toList = [s.aregAt 0, s.aregAt 1, s.aregAt 2] := by
  unfold State.aregAt
  obtain ⟨⟨l⟩, h⟩ := s.aregs
  match l, h with
  | [a, b, c], _ => rfl

/-! ## Sequences that play moves -/

/-- `f` does what the moves do: it answers whether they succeed and leaves what they leave. -/
def Plays (ms : List Move) (f : State → Bool × State) : Prop :=
  Quiet ms ∧ ∀ s, (f s).1 = movesOk ms s ∧ SameButHidden (f s).2 (afterMoves ms s)

/-- `f` writes and delays as these events say. -/
def Says (es : List WireEvent) (f : State → State) : Prop :=
  (answersUsed es = 0 ∧ ∀ p, lastPresence p es = p) ∧ ∀ s, SameButHidden (f s) (played es s)

theorem movesOk_same {t u : State} (h : SameButHidden t u) (ms : List Move) :
    movesOk ms t = movesOk ms u := by
  obtain ⟨_, _, _, _, _, rfl, _⟩ := h; rfl

theorem afterMoves_same {t u : State} (h : SameButHidden t u) (ms : List Move) :
    SameButHidden (afterMoves ms t) (afterMoves ms u) := by
  obtain ⟨a, b, c, d, e, rfl, hi⟩ := h
  exact ⟨a, b, c, d, e, rfl, hi⟩

/-- The play that goes on after a play. -/
def Play.andThen (a b : Play) : Play := { b with events := a.events ++ b.events }

theorem leave_andThen (a b : Play) (s : State) : leave (a.andThen b) s = leave b (leave a s) := by
  simp [leave, played, Play.andThen, List.drop_drop]

/-- The play from the state that a play leaves goes on from that play. -/
theorem playFrom_leave (a b : List Move) (s : State) (ha : Quiet a) :
    playFrom b (afterMoves a s) = playMoves b (playFrom a s).oracle (playFrom a s).regs := by
  have h1 : (afterMoves a s).oracle = (playFrom a s).oracle :=
    (playMoves_oracle a _ _ ha).symm
  have h2 : (afterMoves a s).aregs.toList = (playFrom a s).regs :=
    toList_aregs _ (playMoves_regs _ _ _ (aregs_length s))
  rw [playFrom, h1, h2]

theorem playFrom_append (a b : List Move) (s : State) (ha : Quiet a) :
    playFrom (a ++ b) s =
      if movesOk a s then (playFrom a s).andThen (playFrom b (afterMoves a s)) else playFrom a s := by
  rw [playFrom_leave a b s ha]
  exact playMoves_append a b _ _

theorem movesOk_append (a b : List Move) (s : State) (ha : Quiet a) :
    movesOk (a ++ b) s = (movesOk a s && movesOk b (afterMoves a s)) := by
  rw [movesOk, playFrom_append a b s ha]
  cases h : movesOk a s
  · simpa [movesOk] using h
  · rfl

theorem afterMoves_append (a b : List Move) (s : State) (ha : Quiet a) (hok : movesOk a s = true) :
    afterMoves (a ++ b) s = afterMoves b (afterMoves a s) := by
  rw [afterMoves, playFrom_append a b s ha, if_pos hok, leave_andThen]; rfl

theorem afterMoves_append_fail (a b : List Move) (s : State) (ha : Quiet a)
    (hok : movesOk a s = false) : afterMoves (a ++ b) s = afterMoves a s := by
  rw [afterMoves, playFrom_append a b s ha, if_neg (by simp [hok])]; rfl

/-- One step's success gates the next (R260). -/
theorem Plays.gate {a b : List Move} {f g : State → Bool × State} (hf : Plays a f) (hg : Plays b g) :
    Plays (a ++ b) (fun s => Machine.gate (f s) g) := by
  refine ⟨hf.1.append hg.1, fun s => ?_⟩
  obtain ⟨h1, h2⟩ := hf.2 s
  obtain ⟨k1, k2⟩ := hg.2 (f s).2
  rw [movesOk_append a b s hf.1]
  simp only [Machine.gate, h1]
  cases hok : movesOk a s with
  | true =>
    simp only [if_true, Bool.true_and]
    rw [afterMoves_append a b s hf.1 hok]
    exact ⟨k1.trans (movesOk_same h2 b), k2.trans (afterMoves_same h2 b)⟩
  | false =>
    rw [afterMoves_append_fail a b s hf.1 hok]
    simpa [h1, hok] using h2

theorem leave_events (p : Play) (s : State) (hr : p.regs = s.aregs.toList)
    (hp : lastPresence s.presence p.events = s.presence) : leave p s = played p.events s := by
  unfold leave
  rw [hr, aregs_toList, hp]
  rfl

theorem playFrom_single (m : Move) (s : State) :
    playFrom [m] s = playMove m s.oracle s.aregs.toList := by
  simp only [playFrom, playMoves, List.append_nil]
  split
  · rename_i h
    generalize playMove m s.oracle s.aregs.toList = p at h
    cases p
    simp_all
  · rfl

/-- A move that neither resets nor touches `AREGS` leaves its events. -/
theorem afterMoves_single (m : Move) (s : State)
    (hr : (playMove m s.oracle s.aregs.toList).regs = s.aregs.toList)
    (hp : lastPresence s.presence (playMove m s.oracle s.aregs.toList).events = s.presence) :
    afterMoves [m] s = played (playMove m s.oracle s.aregs.toList).events s := by
  rw [afterMoves, playFrom_single]
  exact leave_events _ _ hr hp

theorem Says.plays {es : List WireEvent} {f : State → State} (h : Says es f) :
    Plays [.say es] (fun s => (true, f s)) := by
  refine ⟨fun es' he => ?_, fun s => ⟨?_, ?_⟩⟩
  · obtain rfl : es' = es := by simpa using he
    exact h.1
  · simp [movesOk, playFrom_single, playMove]
  · rw [afterMoves_single (.say es) s rfl (h.1.2 _)]
    exact h.2 s

theorem Says.nil : Says [] (fun s => s) :=
  ⟨⟨rfl, fun _ => rfl⟩, fun s => (played_nil s).symm ▸ .refl s⟩

theorem Says.comp {a b : List WireEvent} {f g : State → State} (hf : Says a f) (hg : Says b g) :
    Says (a ++ b) (fun s => g (f s)) := by
  refine ⟨⟨by simp [hf.1.1, hg.1.1], fun p => by simp [hf.1.2, hg.1.2]⟩, fun s => ?_⟩
  rw [played_append]
  exact (hg.2 _).trans ((hf.2 s).played b)

/-- Say, then play. -/
theorem Says.then {es : List WireEvent} {f : State → State} {ms : List Move}
    {g : State → Bool × State} (hf : Says es f) (hg : Plays ms g) :
    Plays (.say es :: ms) (fun s => g (f s)) :=
  hf.plays.gate hg

/-- Play, then say: the answer is the play's. -/
theorem Plays.hidden {ms : List Move} {f : State → Bool × State} (hf : Plays ms f) {g : State → State}
    (hg : ∀ s, SameButHidden (g s) s) : Plays ms (fun s => f (g s)) :=
  ⟨hf.1, fun s => ⟨(hf.2 _).1.trans (movesOk_same (hg s) ms),
    (hf.2 _).2.trans (afterMoves_same (hg s) ms)⟩⟩

theorem says_writeByte (v : Byte) : Says (writeEvents [v]) (hostWriteByte v) :=
  ⟨⟨by simp, by simp⟩, fun s => by rw [hostWriteByte_eq]; exact ⟨_, _, _, _, _, rfl, fun _ => ⟨rfl, rfl, rfl⟩⟩⟩

theorem says_writeBytes (v : List Byte) : Says (writeEvents v) (hostWriteBytes v) :=
  ⟨⟨by simp, by simp⟩, hostWriteBytes_same v⟩

theorem says_writeBit (b : Bool) : Says [.hWrite b] (hostWriteBit b) :=
  ⟨⟨rfl, fun _ => rfl⟩, fun s => by rw [hostWriteBit_eq]; exact .refl _⟩

theorem says_delay (n : Nat) : Says [.hDelay n] (hostDelay n) :=
  ⟨⟨rfl, fun _ => rfl⟩, fun s => by rw [hostDelay_eq]; exact .refl _⟩

theorem says_hidden {g : State → State} (hg : ∀ s, SameButHidden (g s) s) : Says [] g :=
  ⟨⟨rfl, fun _ => rfl⟩, fun s => by rw [played_nil]; exact hg s⟩

theorem Says.of_eq {a b : List WireEvent} {f : State → State} (h : Says a f) (e : a = b) : Says b f :=
  e ▸ h

theorem plays_reset : Plays [.reset] hostReset := by
  refine ⟨fun es he => by simp at he, fun s => ?_⟩
  rw [hostReset_eq]
  refine ⟨by simp [movesOk, playFrom_single, playMove], ?_⟩
  rw [afterMoves, playFrom_single]
  simp only [playMove, leave, aregs_toList, lastPresence]
  exact .refl _

theorem plays_skip (n : Nat) : Plays [.skip n] (fun s => (true, (hostReadBytes n s).2)) := by
  refine ⟨fun es he => by simp at he, fun s => ⟨by simp [movesOk, playFrom_single, playMove], ?_⟩⟩
  rw [afterMoves_single (.skip n) s rfl (by simp [playMove])]
  exact hostReadBytes_same n s

theorem plays_expect (bytes : List Byte) :
    Plays [.expect bytes] (fun s =>
      (decide ((hostReadBytes bytes.length s).1 = bytes), (hostReadBytes bytes.length s).2)) := by
  refine ⟨fun es he => by simp at he, fun s => ⟨?_, ?_⟩⟩
  · simp [movesOk, playFrom_single, playMove, hostReadBytes_fst]
  · rw [afterMoves_single (.expect bytes) s rfl (by simp [playMove])]
    exact hostReadBytes_same _ s

theorem plays_readRegs :
    Plays [.readRegs] (fun s =>
      (true, storeAregs (hostReadBytes 3 s).1 (hostReadBytes 3 s).2)) := by
  refine ⟨fun es he => by simp at he, fun s => ⟨by simp [movesOk, playFrom_single, playMove], ?_⟩⟩
  rw [afterMoves, playFrom_single]
  obtain ⟨a, b, c, d, e, h, hi⟩ := hostReadBytes_same 3 s
  simp only [playMove, leave, lastPresence_readEvents, storeAregs, hostReadBytes_fst]
  rw [h]
  exact ⟨a, b, c, d, e, rfl, hi⟩

theorem plays_sayRegs :
    Plays [.sayRegs] (fun s => (true, hostWriteBytes [s.aregAt 0, s.aregAt 1, s.aregAt 2] s)) := by
  refine ⟨fun es he => by simp at he, fun s => ⟨by simp [movesOk, playFrom_single, playMove], ?_⟩⟩
  rw [afterMoves_single .sayRegs s rfl (by simp [playMove])]
  show SameButHidden (hostWriteBytes [s.aregAt 0, s.aregAt 1, s.aregAt 2] s)
    (played (writeEvents s.aregs.toList) s)
  rw [aregAt_list]
  exact hostWriteBytes_same _ s

theorem plays_authorized : Plays [.authorized] (fun s => (s.authorized, s)) := by
  refine ⟨fun es he => by simp at he, fun s => ⟨?_, ?_⟩⟩
  · simp only [movesOk, playFrom_single, playMove, State.authorized, aregAt_list]; rfl
  · rw [afterMoves_single .authorized s rfl rfl]
    simpa [playMove] using SameButHidden.refl s

end Sys2Proof.Machine
end

