-- ==== Sys2Proof/Laws/HostSequences.lean ====
section
/-! SUPPORT. What the host sequences of Ops.lean do, once and for all: each plays its moves of Safety.lean
(R261 to R273, R301 to R306), so it answers whether they succeed and leaves what they leave. -/

namespace Sys2Proof.Machine

theorem gate_true (s : State) (k : State → Bool × State) : gate (true, s) k = k s := rfl

theorem gate_assoc (r : Bool × State) (k l : State → Bool × State) :
    gate (gate r k) l = gate r (fun s => gate (k s) l) := by
  unfold gate
  split <;> simp_all

theorem Plays.congr {ms : List Move} {f g : State → Bool × State} (hf : Plays ms f)
    (h : ∀ s, f s = g s) : Plays ms g := (funext h : f = g) ▸ hf

theorem Plays.moves {a b : List Move} {f : State → Bool × State} (hf : Plays a f) (h : b = a) :
    Plays b f := h ▸ hf

theorem Says.to {a b : List WireEvent} {f g : State → State} (hf : Says a f) (h : b = a)
    (k : ∀ s, g s = f s) : Says b g := by
  obtain rfl : g = f := funext k
  exact h ▸ hf

/-- A change of hidden registers after a play is not seen. -/
theorem Plays.after {ms : List Move} {f g : State → Bool × State} (hf : Plays ms f)
    (h : ∀ s, (g s).1 = (f s).1 ∧ SameButHidden (g s).2 (f s).2) : Plays ms g :=
  ⟨hf.1, fun s => ⟨(h s).1.trans (hf.2 s).1, (h s).2.trans (hf.2 s).2⟩⟩

/-! ## The frames -/

theorem plays_resetSkip (b : CommandBytes) : Plays (skipMoves b) (resetSkip b) :=
  plays_reset.gate (says_writeByte b.skipRom).plays

theorem says_writeScratch (a : Half) (data : List Byte) :
    Says (writeEvents ([0x0F, addrLo a, addrHi a] ++ data)) (frameWriteScratch a data) := by
  have h := (((says_writeByte 0x0F).comp (says_writeByte (addrLo a))).comp
    (says_writeByte (addrHi a))).comp (says_writeBytes data)
  refine h.of_eq ?_
  simp only [← writeEvents_append, List.cons_append, List.nil_append]

/-- The scratchpad read-back compared with a page (R264, R267): the payload is dropped, the verdict kept. -/
theorem plays_readBack (page : List Byte) :
    Plays [.say (writeEvents [0xAA]), .readRegs, .expect page] (fun s =>
      (decide ((frameReadScratch page.length s).1 = page), (frameReadScratch page.length s).2)) :=
  (says_writeByte 0xAA).then (plays_readRegs.gate (plays_expect page))

theorem plays_readAgain (n : Nat) :
    Plays [.say (writeEvents [0xAA]), .readRegs, .skip n, .authorized] (fun s =>
      ((frameReadScratch n s).2.authorized, (frameReadScratch n s).2)) :=
  (says_writeByte 0xAA).then (plays_readRegs.gate ((plays_skip n).gate plays_authorized))

theorem pollInterval_pos (t : Micros) : 0 < pollInterval t := by unfold pollInterval; omega

theorem pollLimit_mul (t : Micros) :
    t.toNat ≤ pollLimit t * pollInterval t ∧ pollLimit t * pollInterval t < t.toNat + pollInterval t := by
  have hp := pollInterval_pos t
  have h := Nat.div_add_mod (t.toNat + pollInterval t - 1) (pollInterval t)
  have hm := Nat.mod_lt (t.toNat + pollInterval t - 1) hp
  rw [Nat.mul_comm] at h
  unfold pollLimit
  omega

theorem pollInterval_lt (t : Micros) : pollInterval t < 2 ^ 30 := by
  have := t.isLt
  unfold pollInterval
  omega

/-- The poll loop over its register is the poll of the moves (R265). -/
theorem pollCopy_plays (t : Micros) (n k : Nat) (s : State) (hk : k + n = pollLimit t)
    (he : s.qElapsed = BitVec.ofNat 33 (k * pollInterval t)) :
    (pollCopy t.toNat (pollInterval t) n s).1 = (playPoll (pollInterval t) n s.oracle).1 ∧
    SameButHidden (pollCopy t.toNat (pollInterval t) n s).2
      (played (playPoll (pollInterval t) n s.oracle).2.1 s) := by
  have hl := pollLimit_mul t
  have hp := pollInterval_pos t
  have hi := pollInterval_lt t
  have ht := t.isLt
  induction n generalizing k s with
  | zero =>
    have hlt : k * pollInterval t < 2 ^ 33 := by
      rw [show k = pollLimit t by omega]; omega
    have hn : ¬ s.qElapsed.toNat < t.toNat := by
      rw [he, BitVec.toNat_ofNat, Nat.mod_eq_of_lt hlt, show k = pollLimit t by omega]
      omega
    simp only [pollCopy, playPoll, hn, decide_false, played_nil, true_and]
    exact .refl s
  | succ n ih =>
    have hkl : k + 1 ≤ pollLimit t := by omega
    have hmul : (k + 1) * pollInterval t ≤ pollLimit t * pollInterval t := Nat.mul_le_mul_right _ hkl
    rw [Nat.add_mul, Nat.one_mul] at hmul
    have hlt : k * pollInterval t < 2 ^ 33 := by omega
    have hy : s.qElapsed.toNat < t.toNat := by
      rw [he, BitVec.toNat_ofNat, Nat.mod_eq_of_lt hlt]; omega
    rw [pollCopy, if_pos hy, playPoll, hostReadBit_eq]
    simp only
    cases hb : s.oracle.headD true with
    | false => simpa using SameButHidden.refl _
    | true =>
      simp only [if_true]
      set s1 : State := played [.hDelay (pollInterval t)] (played [.hRead true] s) with hs1
      have hstate : ({ hostDelay (pollInterval t) (played [.hRead true] s) with
          qElapsed := (played [.hRead true] s).qElapsed + BitVec.ofNat 33 (pollInterval t) } : State) =
          { s1 with qElapsed := s.qElapsed + BitVec.ofNat 33 (pollInterval t) } := by
        rw [hostDelay_eq]; rfl
      rw [hstate]
      have ho : s1.oracle = s.oracle.drop 1 := by simp [hs1, answersUsed]
      obtain ⟨h1, h2⟩ := ih (k + 1) { s1 with qElapsed := s.qElapsed + BitVec.ofNat 33 (pollInterval t) }
        (by omega) (by simp only [he]; rw [← BitVec.ofNat_add]; congr 1; ring)
      refine ⟨by rw [h1]; simp only [ho], h2.trans ?_⟩
      simp only [ho]
      have hsplit : ∀ es : List WireEvent,
          played (.hRead true :: .hDelay (pollInterval t) :: es) s = played es s1 := by
        intro es
        rw [hs1, ← played_append, ← played_append]; rfl
      rw [hsplit]
      exact SameButHidden.played ⟨_, _, _, _, _, rfl, id⟩ _

/-- The polls of a copy command from a cleared `q_elapsed`. -/
theorem plays_poll (t : Micros) :
    Plays [.poll t] (fun s =>
      pollCopy t.toNat (pollInterval t) (pollLimit t) { s with qElapsed := 0 }) := by
  have hpres : ∀ (p : Bool) (n : Nat) (o : List Bool),
      lastPresence p (playPoll (pollInterval t) n o).2.1 = p := by
    intro p n
    induction n with
    | zero => intro o; rfl
    | succ n ih =>
      intro o
      rw [playPoll]
      split
      · simpa [lastPresence] using ih _
      · rfl
  refine ⟨fun es he => by simp at he, fun s => ?_⟩
  obtain ⟨h1, h2⟩ := pollCopy_plays t (pollLimit t) 0 { s with qElapsed := 0 } (by omega) (by simp)
  refine ⟨?_, ?_⟩
  · rw [h1]; simp [movesOk, playFrom_single, playMove]
  · rw [afterMoves_single (.poll t) s rfl (hpres _ _ _)]
    exact h2.trans (SameButHidden.played ⟨_, _, _, _, _, rfl, id⟩ _)

theorem plays_copyScratch (t : Micros) : Plays (copyScratchMoves t) (frameCopyScratch t) := by
  refine ((says_writeByte 0x55).then (plays_sayRegs.gate (plays_poll t))).congr fun s => ?_
  simp only [gate_true, frameCopyScratch, hostWriteByte_eq, State.aregAt]
  rfl

/-! ## `write_mem` -/

/-- One page plays its four sub-steps (R267). -/
theorem plays_writePage (b : CommandBytes) (t : Micros) (a : Half) (page : List Byte) :
    Plays (writePageMoves b t a page) (writePage b t a page) := by
  have h := (plays_resetSkip b).gate ((says_writeScratch a page).plays.gate ((plays_resetSkip b).gate
    ((((plays_readBack page).after (g := fun s =>
        (decide ((frameReadScratch page.length s).1 = page),
         { (frameReadScratch page.length s).2 with
           qMismatch := decide ((frameReadScratch page.length s).1 ≠ page) }))
        fun s => ⟨rfl, _, _, _, _, _, rfl, id⟩).gate ((plays_resetSkip b).gate
    ((plays_copyScratch t).gate ((plays_resetSkip b).gate (plays_readAgain page.length))))))))
  refine (h.moves ?_).congr fun s => ?_
  · simp only [writePageMoves, List.append_assoc]
  simp only [writePage, gate_true]
  congr 1
  funext s1
  congr 1
  funext s2
  by_cases hp : (frameReadScratch page.length s2).1 = page
  · simp [gate, hp]
  · simp [gate, hp]

theorem plays_writePages (b : CommandBytes) (t : Micros) (pg : Nat) (din : List Byte) (k p : Nat) :
    Plays ((List.range' p k).flatMap fun p => writePageMoves b t (pageAddr pg p) (pageOf pg din p))
      (writePages b t pg din k p) := by
  induction k generalizing p with
  | zero =>
    exact ⟨fun es he => by simp at he, fun s => ⟨rfl, by
      rw [afterMoves]; simp only [playFrom, playMoves, List.range'_zero, List.flatMap_nil, writePages]
      rw [leave_events _ _ rfl rfl, played_nil]; exact .refl s⟩⟩
  | succ k ih =>
    rw [List.range'_succ, List.flatMap_cons]
    exact (((plays_writePage b t (pageAddr pg p) (pageOf pg din p)).hidden
      (g := fun s => { s with qPage := BitVec.ofNat 16 p }) fun s => ⟨_, _, _, _, _, rfl, id⟩).gate (ih (p + 1)))

/-- `write_mem` plays the pages in ascending order (R267). -/
theorem plays_writeMem (b : CommandBytes) (t : Micros) (pg : Nat) (din : List Byte) :
    Plays (writeMemMoves b t pg din) (writeMem b t pg din) := by
  rw [writeMemMoves, List.range_eq_range']
  exact plays_writePages b t pg din _ 0

/-! ## The blank writers -/

theorem says_rwWriteByte (b : Byte) : Says (rwByteEvents b) (rwWriteByte b) := by
  have hb : ∀ bits : List Bool, Says (bits.flatMap fun k => [.hWrite k, .hDelay Config.tRwBit])
      (fun s => bits.foldl (fun s k => hostDelay Config.tRwBit (hostWriteBit k s)) s) := by
    intro bits
    induction bits with
    | nil => exact Says.nil
    | cons k bits ih =>
      have h := ((says_writeBit k).comp (says_delay Config.tRwBit)).comp ih
      exact h.to (by simp only [List.flatMap_cons, List.cons_append, List.nil_append]) fun _ => rfl
  have h := (hb (bitsOf b)).comp (says_delay Config.tRwByte)
  exact h.to rfl fun _ => rfl

theorem says_rwWriteBytes (data : List Byte) :
    Says (data.flatMap rwByteEvents) (rwWriteBytes data) := by
  induction data with
  | nil => exact Says.nil
  | cons b data ih =>
    have h := ((says_rwWriteByte b).comp (says_hidden (g := fun s => { s with qIdx := s.qIdx + 1 })
      fun s => ⟨_, _, _, _, _, rfl, id⟩)).comp ih
    exact h.to (by simp only [List.flatMap_cons, List.append_nil]) fun _ => rfl

theorem says_rwWrite (data : List Byte) :
    Says (writeEvents [0xD5] ++ data.flatMap rwByteEvents) (frameRwWrite data) := by
  have h := ((says_writeByte 0xD5).comp (says_hidden (g := fun s => { s with qIdx := 0 })
    fun s => ⟨_, _, _, _, _, rfl, id⟩)).comp (says_rwWriteBytes data)
  exact h.to (by simp only [List.append_nil]) fun _ => rfl

theorem says_rwUnlock (cmd : Byte) (bit : Bool) :
    Says (writeEvents [cmd] ++ [.hDelay Config.tRwShort, .hWrite bit, .hDelay Config.tRwBit])
      (frameRwLock cmd true bit) := by
  have h := (((says_writeByte cmd).comp (says_delay Config.tRwShort)).comp (says_writeBit bit)).comp
    (says_delay Config.tRwBit)
  exact h.to (by simp only [List.append_assoc, List.cons_append, List.nil_append]) fun _ => rfl

theorem says_rwLock (cmd : Byte) (bit : Bool) :
    Says (writeEvents [cmd] ++ [.hWrite bit, .hDelay Config.tRwLock]) (frameRwLock cmd false bit) := by
  have h := ((says_writeByte cmd).comp (says_writeBit bit)).comp (says_delay Config.tRwLock)
  exact h.to (by simp only [List.append_assoc, List.cons_append, List.nil_append]) fun _ => rfl

/-- `Verify`, R306. -/
theorem plays_verify (data : List Byte) : Plays (verifyMoves data) (verifyRom data) := by
  have h := plays_reset.gate ((says_writeByte 0x33).then (plays_expect data))
  exact (h.moves rfl).congr fun _ => rfl

theorem plays_writeV1 (data : List Byte) : Plays (writeV1Moves data) (writeV1 data) := by
  have h := plays_reset.gate ((says_rwUnlock 0xD1 false).then (plays_reset.gate
    ((says_rwWrite (data.map fun b => ~~~b)).then ((says_rwLock 0xD1 true).then (plays_verify data)))))
  rw [List.flatMap_map] at h
  exact (h.moves rfl).congr fun _ => rfl

theorem plays_writeV2 (data : List Byte) : Plays (writeV2Moves data) (writeV2 data) := by
  have h := plays_reset.gate ((says_rwUnlock 0x1D true).then (plays_reset.gate
    ((says_rwWrite data).then ((says_rwLock 0x1D false).then (plays_verify data)))))
  exact (h.moves rfl).congr fun _ => rfl

theorem plays_readByte : Plays [.skip 1] (fun s => (true, (hostReadByte s).2)) := plays_skip 1

theorem plays_storedByte (b : Byte) :
    Plays [.expect [b]] (fun s => (decide ((hostReadByte s).1 = b), (hostReadByte s).2)) := by
  refine (plays_expect [b]).congr fun s => ?_
  simp [hostReadBytes]

/-- The exchange of the bytes of a TM2004 write, R304. -/
theorem plays_tmWriteBytes (data : List Byte) :
    Plays (data.flatMap tmByteMoves) (tmWriteBytes data) := by
  induction data with
  | nil =>
    exact ⟨fun es he => by simp at he, fun s => ⟨rfl, by
      rw [afterMoves]; simp only [playFrom, playMoves, List.flatMap_nil, tmWriteBytes]
      rw [leave_events _ _ rfl rfl, played_nil]; exact .refl s⟩⟩
  | cons b data ih =>
    rw [List.flatMap_cons]
    have hs : Says [.hDelay Config.tTmPulse, .hWrite true, .hDelay Config.tTmByte]
        (fun s => hostDelay Config.tTmByte (hostWriteBit true (hostDelay Config.tTmPulse s))) :=
      ((says_delay Config.tTmPulse).comp (says_writeBit true)).comp (says_delay Config.tTmByte)
    have h := (says_writeByte b).then (plays_readByte.gate (hs.then (plays_storedByte b)))
    refine (h.gate (ih.hidden (g := fun s => { s with qIdx := s.qIdx + 1 })
      fun s => ⟨_, _, _, _, _, rfl, id⟩)).congr fun s => ?_
    simp only [tmWriteBytes, gate]
    split <;> simp_all

theorem plays_tm2004 (data : List Byte) : Plays (tmWriteMoves data) (frameTm2004 data) := by
  have h3 : Says (writeEvents [0x3C, 0x00, 0x00])
      (fun s => ({ hostWriteByte 0x00 (hostWriteByte 0x00 (hostWriteByte 0x3C s)) with qIdx := 0 } :
        State)) := by
    have h := (((says_writeByte 0x3C).comp (says_writeByte 0x00)).comp (says_writeByte 0x00)).comp
      (says_hidden (g := fun s => { s with qIdx := 0 }) fun s => ⟨_, _, _, _, _, rfl, id⟩)
    exact h.to (by simp only [← writeEvents_append, List.append_nil, List.cons_append,
      List.nil_append]) fun _ => rfl
  have h := h3.then (plays_tmWriteBytes data)
  exact (h.moves rfl).congr fun _ => rfl

theorem plays_writeTm2004 (data : List Byte) :
    Plays (writeTm2004Moves data) (writeTm2004 data) :=
  plays_reset.gate (plays_tm2004 data)

/-! ## The DS1971 write-copy -/

/-- A move of the frame on its way to the comparison plays its move (R272). -/
theorem plays_headMove (m : HeadMove) (kept : List Byte) :
    Plays [headMove m] (fun s => ((copyMove m.toCopy kept s).1, (copyMove m.toCopy kept s).2.2)) := by
  cases m with
  | reset => exact plays_reset
  | write v => exact (says_writeByte v.val).plays
  | read => exact plays_readByte
  | delay us => exact (says_delay us).plays
  | verify mask value =>
    refine ⟨fun es he => by simp [headMove] at he, fun s => ⟨?_, ?_⟩⟩
    · simp [headMove, HeadMove.toCopy, copyMove, movesOk, playFrom_single, playMove, hostReadByte_eq]
    · rw [headMove, afterMoves_single (.check mask value) s rfl (by simp [playMove])]
      exact hostReadBytes_same 1 s

/-- What a head move does to the state has nothing to do with the bytes kept: it writes none back. -/
theorem headMoves_kept (ms : List HeadMove) (kept kept' : List Byte) (s : State) :
    (copyMoves (ms.map HeadMove.toCopy) kept s).1 = (copyMoves (ms.map HeadMove.toCopy) kept' s).1 ∧
    (copyMoves (ms.map HeadMove.toCopy) kept s).2.2 =
      (copyMoves (ms.map HeadMove.toCopy) kept' s).2.2 := by
  induction ms generalizing kept kept' s with
  | nil => exact ⟨rfl, rfl⟩
  | cons m ms ih =>
    have h : (copyMove m.toCopy kept s).1 = (copyMove m.toCopy kept' s).1 ∧
        (copyMove m.toCopy kept s).2.2 = (copyMove m.toCopy kept' s).2.2 := by
      cases m <;> exact ⟨rfl, rfl⟩
    simp only [List.map_cons, copyMoves, h.1]
    split
    · rw [h.2]; exact ih ..
    · exact h

theorem plays_headMoves (ms : List HeadMove) (kept : List Byte) :
    Plays (ms.map headMove) (fun s =>
      ((copyMoves (ms.map HeadMove.toCopy) kept s).1, (copyMoves (ms.map HeadMove.toCopy) kept s).2.2)) := by
  induction ms generalizing kept with
  | nil =>
    refine ⟨fun es he => by simp at he, fun s => ⟨rfl, ?_⟩⟩
    have h : afterMoves [] s = s := (leave_events _ s rfl rfl).trans (played_nil s)
    exact h.symm ▸ .refl s
  | cons m ms ih =>
    refine ((plays_headMove m kept).gate (ih kept)).congr fun s => ?_
    simp only [List.map_cons, copyMoves, gate]
    split
    · have h := headMoves_kept ms kept (copyMove m.toCopy kept s).2.1 (copyMove m.toCopy kept s).2.2
      rw [h.1, h.2]
    · rfl

/-- Up to the comparison the DS1971 write-copy plays its moves (R272 a, b). -/
theorem plays_copyToCompare (f : CopyFrame) (data : List Byte) :
    Plays (ds1971HeadMoves f data) (fun s =>
      ((copyToCompare f data s).1, (copyToCompare f data s).2.2)) := by
  have hw := says_writeBytes (f.romCommand.map (·.val))
  have hp := says_writeBytes (f.writeHead.map (·.val) ++ data)
  have h := plays_reset.gate (hw.then ((plays_skip f.romReads).gate (hp.then
    ((plays_headMoves f.readBackHead []).gate (plays_expect data)))))
  refine (h.moves (by simp [ds1971HeadMoves])).after fun s => ?_
  simp only [copyToCompare, gate, if_true]
  split
  · split
    · exact ⟨rfl, _, _, _, _, _, rfl, id⟩
    · exact ⟨rfl, .refl _⟩
  · exact ⟨(Bool.eq_false_iff.2 ‹_›).symm, .refl _⟩

end Sys2Proof.Machine
end

