-- ==== Sys2Proof/Laws/Frames.lean ====
section
/-! SUPPORT. What the frames of the host sequences do, each said once, and the ends of the host operations
that are built of them. -/

namespace Sys2Proof.Machine

/-- Where a host operation may run, it is its sequence between the two writes of `role`. -/
theorem hostOp_ready {s : State} (h : HostReady s) (run : State → State) :
    hostOp true run s = .next (endHost (run (beginHost s))) := by
  simp [hostOp, portOp, h.1, RolePolicy.allows, h.2]

/-- Where a port operation may run, it is its body. -/
theorem portOp_ready {s : State} (h : HostReady s) (run : State → State) :
    portOp .notSlave true true run s = .next (run s) := by
  simp [portOp, h.1, RolePolicy.allows, h.2]

/-- A byte put together from eight bits has these bits. -/
theorem bits_byte (bits : List Bool) (h : bits.length = 8) : bitsOf (byteOf bits) = bits := by
  match bits, h with
  | [a,b,c,d,e,f,g,i], _ => revert a b c d e f g i; decide

/-- Bytes put together from bits in wire order have these bits. -/
theorem wireBits_bytesOf : ∀ (n : Nat) (bits : List Bool), bits.length = 8 * n →
    wireBits (bytesOf n bits) = bits
  | 0, bits, h => by 
    have : bits = [] := List.length_eq_zero_iff.1 (by omega)
    subst this; rfl
  | n + 1, bits, h => by
    rw [bytesOf, wireBits_cons, bits_byte _ (by simp; omega), wireBits_bytesOf n _ (by simp; omega),
      List.take_append_drop]

/-- The end of a host operation whose sequence writes and delays as these events say. -/
theorem endSays {es : List WireEvent} {f : State → State} (hf : Says es f) (s : State) (b v d) :
    ∃ h, endHost (reply b v d (f (beginHost s))) =
      { endHost (reply b v d (played es s)) with hFramer := h } := by
  have h1 := (hf.2 (beginHost s)).trans ((SameButHidden.beginHost s).played es)
  obtain ⟨h, e, _⟩ := h1.endHost b v d
  exact ⟨h, e⟩

/-- The end of a host operation whose sequence plays these moves. -/
theorem endPlays {ms : List Move} {f : State → Bool × State} (hf : Plays ms f) (s : State) :
    ∃ h, endHost (let r := f (beginHost s); reply r.1 0 [] r.2) =
      { endHost (reply (movesOk ms s) 0 [] (afterMoves ms s)) with hFramer := h } := by
  obtain ⟨h1, h2⟩ := hf.2 (beginHost s)
  obtain ⟨h, e, _⟩ :=
    (h2.trans (afterMoves_same (SameButHidden.beginHost s) ms)).endHost (f (beginHost s)).1 0 []
  refine ⟨h, ?_⟩
  show endHost (reply (f (beginHost s)).1 0 [] (f (beginHost s)).2) = _
  rw [e, h1]; rfl

/-- The end of a host operation that reads so many bytes. -/
theorem endReads (n : Nat) (s : State) (b v d) :
    ∃ h, endHost (reply b v d (hostReadBytes n (beginHost s)).2) =
      { endHost (reply b v d (played (readEvents (nextBits (8 * n) s.oracle)) s)) with hFramer := h } := by
  have h1 := (hostReadBytes_same n (beginHost s)).trans ((SameButHidden.beginHost s).played _)
  obtain ⟨h, e, _⟩ := h1.endHost b v d
  exact ⟨h, e⟩

/-- A frame that ends in a read: the bytes and what is left. -/
theorem readFrame (n : Nat) (es : List WireEvent) (f : State → State) (hf : Says es f) (s : State) :
    (hostReadBytes n (f s)).1 = bytesOf n (nextBits (8 * n) s.oracle) ∧
    SameButHidden (hostReadBytes n (f s)).2 (played (es ++ readEvents (nextBits (8 * n) s.oracle)) s) := by
  have h1 := hf.2 s
  have ho : (f s).oracle = s.oracle := by
    obtain ⟨_, _, _, _, _, e, _⟩ := h1
    rw [e]; simp [played, hf.1.1]
  refine ⟨by rw [hostReadBytes_fst, ho], ?_⟩
  have h2 := hostReadBytes_same n (f s)
  rw [ho] at h2
  rw [played_append]
  exact h2.trans (h1.played _)

/-- Eight bytes stored into the record. -/
theorem storeRecord_eq (l : List Byte) (h : l.length = 8) :
    ∃ r : Vector Byte 8, r.toList = l ∧ ∀ s, storeRecord l s = { s with rom := r } := by
  match l, h with
  | [a,b,c,d,e,f,g,i], _ => exact ⟨#v[a,b,c,d,e,f,g,i], rfl, fun s => rfl⟩

/-- Three bytes stored into `AREGS`. -/
theorem storeAregs_eq (l : List Byte) (h : l.length = 3) :
    ∃ r : Vector Byte 3, r.toList = l ∧ ∀ s, storeAregs l s = { s with aregs := r } := by
  match l, h with
  | [a,b,c], _ => exact ⟨#v[a,b,c], rfl, fun s => rfl⟩

/-- Everything the read-ROM frame does. -/
theorem frameReadRom_same (s : State) :
    ∃ r : Vector Byte 8, wireBits r.toList = nextBits 64 s.oracle ∧ SameButHidden (frameReadRom s)
      { played (writeEvents [0x33] ++ readEvents (nextBits 64 s.oracle)) s with rom := r } := by
  obtain ⟨h1, h2⟩ := readFrame 8 _ _ (says_writeByte 0x33) s
  obtain ⟨r, e1, e2⟩ := storeRecord_eq (bytesOf 8 (nextBits (8 * 8) s.oracle)) (by simp)
  refine ⟨r, by rw [e1, wireBits_bytesOf _ _ (by simp)], ?_⟩
  unfold frameReadRom
  simp only [h1, e2]
  obtain ⟨h, p, i, e, m, e3, hi⟩ := h2
  rw [e3]
  exact ⟨h, p, i, e, m, rfl, hi⟩

/-- Everything the read-scratchpad frame does. -/
theorem frameReadScratch_same (n : Nat) (s : State) :
    ∃ (r : Vector Byte 3) (d : List Byte), d.length = n ∧
    wireBits (r.toList ++ d) = nextBits (24 + 8 * n) s.oracle ∧ (frameReadScratch n s).1 = d ∧
    SameButHidden (frameReadScratch n s).2
      { played (writeEvents [0xAA] ++ readEvents (wireBits (r.toList ++ d))) s with aregs := r } := by
  obtain ⟨h1, h2⟩ := readFrame 3 _ _ (says_writeByte 0xAA) s
  obtain ⟨r, e1, e2⟩ := storeAregs_eq (bytesOf 3 (nextBits (8 * 3) s.oracle)) (by simp)
  have hw : wireBits r.toList = nextBits 24 s.oracle := by rw [e1, wireBits_bytesOf _ _ (by simp)]
  have e4 : frameReadScratch n s =
      hostReadBytes n { (hostReadBytes 3 (hostWriteByte 0xAA s)).2 with aregs := r } := by
    unfold frameReadScratch; simp only [h1, e2]
  set q := (hostReadBytes 3 (hostWriteByte 0xAA s)).2 with hq
  have ho : q.oracle = s.oracle.drop 24 := by
    obtain ⟨h, p, i, e, m, e3, hi⟩ := h2
    rw [e3]; simp [played]
  have hw2 : wireBits (bytesOf n (nextBits (8 * n) (s.oracle.drop 24))) =
      nextBits (8 * n) (s.oracle.drop 24) := wireBits_bytesOf _ _ (by simp)
  refine ⟨r, bytesOf n (nextBits (8 * n) (s.oracle.drop 24)), by simp, ?_, ?_, ?_⟩
  · rw [wireBits_append, hw, nextBits_add, hw2]
  · rw [e4, hostReadBytes_fst]
    show bytesOf n (nextBits (8 * n) q.oracle) = _
    rw [ho]
  · rw [e4]
    refine (hostReadBytes_same n _).trans ?_
    show SameButHidden (played (readEvents (nextBits (8 * n) q.oracle)) { q with aregs := r }) _
    rw [ho, wireBits_append, hw, hw2, readEvents_append, ← List.append_assoc, played_append]
    change SameButHidden q (played (writeEvents [0xAA] ++ readEvents (nextBits 24 s.oracle)) s) at h2
    obtain ⟨h, p, i, e, m, e3, hi⟩ := h2
    rw [e3]
    have hau : answersUsed (writeEvents [0xAA] ++ readEvents (nextBits 24 s.oracle)) = 24 := by simp
    generalize writeEvents [0xAA] ++ readEvents (nextBits 24 s.oracle) = es at *
    generalize readEvents (nextBits (8 * n) (List.drop 24 s.oracle)) = es'
    refine ⟨h, p, i, e, m, ?_, hi⟩
    simp only [played, hau]

/-- The head of the read-memory frame. -/
theorem says_readHead (a : Half) : Says (writeEvents [0xF0, addrLo a, addrHi a])
    (fun s => hostWriteByte (addrHi a) (hostWriteByte (addrLo a) (hostWriteByte 0xF0 s))) := by
  have := ((says_writeByte 0xF0).comp (says_writeByte (addrLo a))).comp (says_writeByte (addrHi a))
  exact this.of_eq (by rw [← writeEvents_append, ← writeEvents_append]; rfl)

/-- Everything the read-memory frame does. -/
theorem frameReadMem_same (a : Half) (n : Nat) (s : State) :
    ∃ d : List Byte, d.length = n ∧ wireBits d = nextBits (8 * n) s.oracle ∧
    (frameReadMem a n s).1 = d ∧
    SameButHidden (frameReadMem a n s).2
      (played (writeEvents [0xF0, addrLo a, addrHi a] ++ readEvents (wireBits d)) s) := by
  obtain ⟨h1, h2⟩ := readFrame n _ _ (says_readHead a) s
  have hw := wireBits_bytesOf n (nextBits (8 * n) s.oracle) (by simp)
  refine ⟨_, by simp, hw, h1, ?_⟩
  rw [hw]; exact h2

/-- A sub-step that cannot fail. -/
theorem hostCommand_ok {s : State} (h : s.role = .host) (f : State → State) :
    hostCommand (fun s => (true, f s)) s = .next (f s) := by
  simp [hostCommand, h]

end Sys2Proof.Machine
end

