-- ==== Sys2Proof/Laws/Memory.lean ====
section
/-! SUPPORT. MEM as a list of cells: the canonical form says addresses strictly rise and no entry reads as
an unwritten byte; every operation keeps it; a read after a write. -/

namespace Sys2Proof.Machine

/-- A cell that the canonical form may hold. -/
abbrev CellOk (e : Nat) (c : Host.Cell) : Prop :=
  c.2 ≠ unwritten e c.1 ∧ c.1 < Config.memArraySize

/-- The canonical form, said of the list as a whole. -/
theorem wf_iff (e : Nat) (m : List Host.Cell) :
    Memory.wf e m = true ↔ m.Pairwise (fun c d => c.1 < d.1) ∧ ∀ c ∈ m, CellOk e c := by
  induction m with
  | nil => simp [Memory.wf]
  | cons c r ih =>
    obtain ⟨k, v⟩ := c
    cases r with
    | nil => simp [Memory.wf, and_comm]
    | cons d r =>
      obtain ⟨k', v'⟩ := d
      simp only [Memory.wf, Bool.and_eq_true, decide_eq_true_eq, ih]
      constructor
      · rintro ⟨⟨hk, hv⟩, hp, hc⟩
        have h' := hc (k', v') (by simp)
        refine ⟨List.pairwise_cons.2 ⟨?_, hp⟩, ?_⟩
        · intro c hcm
          rcases List.mem_cons.1 hcm with rfl | hcm
          · exact hk
          · exact lt_trans hk ((List.pairwise_cons.1 hp).1 c hcm)
        · intro c hcm
          rcases List.mem_cons.1 hcm with rfl | hcm
          · exact ⟨hv, lt_trans hk h'.2⟩
          · exact hc c hcm
      · rintro ⟨hp, hc⟩
        have hp' := List.pairwise_cons.1 hp
        exact ⟨⟨hp'.1 (k', v') (by simp), (hc (k, v) (by simp)).1⟩, hp'.2,
          fun c hcm => hc c (List.mem_cons_of_mem _ hcm)⟩

theorem wf_nil (e : Nat) : Memory.wf e [] = true := rfl

theorem wf_tail {e : Nat} {c : Host.Cell} {m : List Host.Cell} (h : Memory.wf e (c :: m) = true) :
    Memory.wf e m = true := by
  rw [wf_iff] at h ⊢
  exact ⟨(List.pairwise_cons.1 h.1).2, fun d hd => h.2 d (List.mem_cons_of_mem _ hd)⟩

theorem mem_memErase {a : Nat} {m : List Host.Cell} {c : Host.Cell} (h : c ∈ memErase a m) :
    c ∈ m := by
  induction m with
  | nil => simp [memErase] at h
  | cons d r ih =>
    obtain ⟨k, v⟩ := d
    simp only [memErase] at h
    split at h
    · exact List.mem_cons_of_mem _ h
    · rcases List.mem_cons.1 h with rfl | h
      · simp
      · exact List.mem_cons_of_mem _ (ih h)

theorem mem_memInsert {a : Nat} {v : Byte} {m : List Host.Cell} {c : Host.Cell}
    (h : c ∈ memInsert a v m) : c = (a, v) ∨ c ∈ m := by
  induction m with
  | nil => simpa [memInsert] using h
  | cons d r ih =>
    obtain ⟨k, w⟩ := d
    simp only [memInsert] at h
    split at h
    · simpa using h
    · split at h
      · rcases List.mem_cons.1 h with rfl | h
        · exact .inl rfl
        · exact .inr (List.mem_cons_of_mem _ h)
      · rcases List.mem_cons.1 h with rfl | h
        · simp
        · rcases ih h with h | h
          · exact .inl h
          · exact .inr (List.mem_cons_of_mem _ h)

theorem wf_memErase {e a : Nat} {m : List Host.Cell} (h : Memory.wf e m = true) :
    Memory.wf e (memErase a m) = true := by
  rw [wf_iff] at h ⊢
  refine ⟨?_, fun c hc => h.2 c (mem_memErase hc)⟩
  obtain ⟨hp, -⟩ := h
  induction m with
  | nil => simp [memErase]
  | cons d r ih =>
    obtain ⟨k, v⟩ := d
    have hp' := List.pairwise_cons.1 hp
    simp only [memErase]
    split
    · exact hp'.2
    · exact List.pairwise_cons.2 ⟨fun c hc => hp'.1 c (mem_memErase hc), ih hp'.2⟩

theorem wf_memInsert {e a : Nat} {v : Byte} {m : List Host.Cell} (h : Memory.wf e m = true)
    (hv : v ≠ unwritten e a) (ha : a < Config.memArraySize) :
    Memory.wf e (memInsert a v m) = true := by
  rw [wf_iff] at h ⊢
  refine ⟨?_, fun c hc => ?_⟩
  · obtain ⟨hp, -⟩ := h
    induction m with
    | nil => simp [memInsert]
    | cons d r ih =>
      obtain ⟨k, w⟩ := d
      have hp' := List.pairwise_cons.1 hp
      simp only [memInsert]
      split
      · rename_i hak
        refine List.pairwise_cons.2 ⟨fun c hc => ?_, hp⟩
        rcases List.mem_cons.1 hc with rfl | hc
        · exact hak
        · exact lt_trans hak (hp'.1 c hc)
      · split
        · rename_i _ hka
          subst hka
          exact List.pairwise_cons.2 ⟨hp'.1, hp'.2⟩
        · refine List.pairwise_cons.2 ⟨fun c hc => ?_, ih hp'.2⟩
          rcases mem_memInsert hc with rfl | hc
          · show k < a
            omega
          · exact hp'.1 c hc
  · rcases mem_memInsert hc with rfl | hc
    · exact ⟨hv, ha⟩
    · exact h.2 c hc

/-- A write inside the array keeps the canonical form. -/
theorem wf_memWrite {e a : Nat} {v : Byte} {m : List Host.Cell} (h : Memory.wf e m = true)
    (ha : a < Config.memArraySize) : Memory.wf e (memWrite e m a v) = true := by
  unfold memWrite
  split
  · exact wf_memErase h
  · exact wf_memInsert h ‹_› ha

/-- A block write inside the array keeps the canonical form. -/
theorem wf_memWriteBytes {e : Nat} (vs : List Byte) : ∀ {a : Nat} {m : List Host.Cell},
    Memory.wf e m = true → a + vs.length ≤ Config.memArraySize →
      Memory.wf e (memWriteBytes e m a vs) = true := by
  induction vs with
  | nil => intro a m h _; exact h
  | cons v vs ih =>
    intro a m h ha
    simp only [List.length_cons] at ha
    exact ih (wf_memWrite h (by omega)) (by omega)

/-- Below the first address of a canonical list every byte is unwritten. -/
theorem memRead_below {e a : Nat} {m : List Host.Cell} (h : ∀ c ∈ m, a < c.1) :
    memRead e m a = unwritten e a := by
  induction m with
  | nil => rfl
  | cons d r ih =>
    obtain ⟨k, v⟩ := d
    have := h (k, v) (by simp)
    simp only [memRead]
    rw [if_neg (by simp at this; omega)]
    exact ih fun c hc => h c (List.mem_cons_of_mem _ hc)

theorem memRead_memErase {e a b : Nat} {m : List Host.Cell} (h : Memory.wf e m = true) :
    memRead e (memErase a m) b = if b = a then unwritten e a else memRead e m b := by
  induction m with
  | nil => simp [memErase, memRead]; rintro rfl; rfl
  | cons d r ih =>
    obtain ⟨k, v⟩ := d
    have ht := wf_tail h
    rw [wf_iff] at h
    have hp := (List.pairwise_cons.1 h.1).1
    simp only [memErase]
    split
    · rename_i hka
      subst hka
      simp only [memRead]
      split
      · rename_i hb
        subst hb
        exact memRead_below hp
      · rw [if_neg (fun h => ‹¬b = k› h.symm)]
    · simp only [memRead, ih ht]
      split
      · rename_i hkb
        subst hkb
        rw [if_neg ‹¬k = a›]
      · rfl

theorem memRead_memInsert {e a b : Nat} {v : Byte} {m : List Host.Cell} :
    memRead e (memInsert a v m) b = if b = a then v else memRead e m b := by
  induction m with
  | nil =>
    simp only [memInsert, memRead]
    by_cases h : a = b
    · simp [h]
    · rw [if_neg h, if_neg (Ne.symm h)]
  | cons d r ih =>
    obtain ⟨k, w⟩ := d
    simp only [memInsert]
    split
    · by_cases h : a = b
      · simp [memRead, h]
      · rw [if_neg (Ne.symm h), memRead, if_neg h]
    · split
      · rename_i _ hka
        subst hka
        by_cases h : k = b
        · simp [memRead, h]
        · rw [if_neg (Ne.symm h), memRead, memRead, if_neg h, if_neg h]
      · simp only [memRead, ih]
        split
        · rename_i hkb
          subst hkb
          rw [if_neg ‹¬k = a›]
        · rfl

/-- Read after write: the address written gives the value, every other address what it gave. -/
theorem memRead_memWrite {e a b : Nat} {v : Byte} {m : List Host.Cell}
    (h : Memory.wf e m = true) :
    memRead e (memWrite e m a v) b = if b = a then v else memRead e m b := by
  unfold memWrite
  split
  · rename_i hv
    rw [memRead_memErase h, hv]
  · exact memRead_memInsert

/-- Read after a block write inside the array. -/
theorem memRead_memWriteBytes {e : Nat} (vs : List Byte) : ∀ {a : Nat} {m : List Host.Cell} (b : Nat),
    Memory.wf e m = true → a + vs.length ≤ Config.memArraySize →
      memRead e (memWriteBytes e m a vs) b =
        if a ≤ b ∧ b < a + vs.length then vs.getD (b - a) 0 else memRead e m b := by
  induction vs with
  | nil => intro a m b _ _; simp [memWriteBytes]
  | cons v vs ih =>
    intro a m b h ha
    simp only [List.length_cons] at ha ⊢
    rw [memWriteBytes, ih b (wf_memWrite h (by omega)) (by omega), memRead_memWrite h]
    by_cases hb : b = a
    · subst hb; simp
    · by_cases h1 : a + 1 ≤ b ∧ b < a + 1 + vs.length
      · rw [if_pos h1, if_pos (by omega)]
        obtain ⟨d, rfl⟩ : ∃ d, b = a + 1 + d := ⟨b - (a + 1), by omega⟩
        simp [show a + 1 + d - a = d + 1 by omega]
      · rw [if_neg h1, if_neg hb, if_neg (by omega)]

theorem memReadBytes_length (e : Nat) (m : List Host.Cell) : ∀ (n a : Nat),
    (memReadBytes e m a n).length = n := by
  intro n
  induction n with
  | zero => intro a; rfl
  | succ n ih => intro a; simp [memReadBytes, ih]

end Sys2Proof.Machine
end

