-- ==== Sys2Proof/Laws/Slave.lean ====
section
/-! SUPPORT. What the slave-role engine does over the peer's actions (R192 to R204, R233 to R235): a slot of
a responder, a byte of it, and the whole of each answer in closed form. -/

namespace Sys2Proof.Machine

/-! ## Slave-role events -/

@[simp] theorem slavePlayed_fields (es : List WireEvent) (s : State) :
    (slavePlayed es s).rom = s.rom ∧ (slavePlayed es s).aregs = s.aregs ∧
    (slavePlayed es s).mem = s.mem ∧ (slavePlayed es s).cmdState = s.cmdState ∧
    (slavePlayed es s).role = s.role ∧ (slavePlayed es s).odSlave = s.odSlave ∧
    (slavePlayed es s).slErr = s.slErr ∧ (slavePlayed es s).slRstShort = s.slRstShort ∧
    (slavePlayed es s).slPhase = s.slPhase ∧ (slavePlayed es s).sFramer = s.sFramer ∧
    (slavePlayed es s).famHeld = s.famHeld ∧ (slavePlayed es s).famIn = s.famIn ∧
    (slavePlayed es s).task = s.task ∧ (slavePlayed es s).inputs = s.inputs ∧
    (slavePlayed es s).epoch = s.epoch ∧
    (slavePlayed es s).cmdBytes = s.cmdBytes := by
  repeat' constructor

@[simp] theorem slavePlayed_nil (s : State) : slavePlayed [] s = s := rfl

theorem slavePlayed_append (a b : List WireEvent) (s : State) :
    slavePlayed (a ++ b) s = slavePlayed b (slavePlayed a s) := by
  simp [slavePlayed]

theorem sendEvents_cons (v : Byte) (vs : List Byte) :
    sendEvents (v :: vs) = sendEvents [v] ++ sendEvents vs := by
  simp [sendEvents, wireBits]

theorem slots_append (a b : List Bool) : slots (a ++ b) = slots a ++ slots b := by simp [slots]

/-! ## One slot -/

/-- A sent bit in a slot (R192). -/
theorem sendSlot_slot (b m : Bool) (k : State → State) (s : State) :
    sendSlot b (.slot m) k s = k (slavePlayed [.sSend b true] { s with slErr := .none }) := rfl

/-- A received bit in a slot (R193). -/
theorem receiveSlot_slot (m : Bool) (k : Bool → State → State) (s : State) :
    receiveSlot (.slot m) k s = k m (slavePlayed [.sRecv m true] { s with slErr := .none }) := rfl

@[simp] theorem hear_act (a : PeerAction) (s : State) : hear (.act a) s = (some a, waited 0 s) := rfl

/-- What an input on the line can be (R204): an action, with the wait over, or a wait that goes on and is
no longer than `WAIT_MAX`. -/
theorem hear_cases (p : PeerInput) (s : State) :
    (∃ a, hear p s = (some a, waited 0 s)) ∨
    ∃ l, hear p s = (none, waited l s) ∧ l ≤ (Config.tSlave s.odSlave).waitMax := by
  cases p with
  | act a => exact .inl ⟨_, rfl⟩
  | low us => exact .inl ⟨_, rfl⟩
  | quiet us =>
    simp only [hear, classifyQuiet]
    by_cases h : (Config.tSlave s.odSlave).waitMax.toNat < s.sFramer.timer.toNat + us
    · exact .inl ⟨_, by rw [if_pos h]⟩
    · refine .inr ⟨_, by rw [if_neg h], ?_⟩
      rw [BitVec.le_def, BitVec.toNat_ofNat]
      exact (Nat.mod_le _ _).trans (Nat.le_of_not_lt h)

theorem hear_slPhase (p : PeerInput) (s : State) : (hear p s).2.slPhase = s.slPhase := by
  rcases hear_cases p s with ⟨a, e⟩ | ⟨l, e, _⟩ <;> rw [e] <;> rfl

/-- The peer's inputs are taken as long as the responder runs. -/
theorem runResponse_act {s : State} (h : s.slPhase = .respond) (a : PeerAction) (rest : List Input) :
    runResponse (.line (.act a) :: rest) s = runResponse rest (slaveSlot a (waited 0 s)) := by
  simp [runResponse, h]

/-- When the responder is done, what is left of the inputs waits. -/
theorem runResponse_done {s : State} (h : s.slPhase ≠ .respond) (ins : List Input) :
    runResponse ins s = { s with inputs := ins } := by
  match ins with
  | [] => rfl
  | .line p :: rest => simp [runResponse, h]
  | .port _ :: _ => rfl
  | .fam _ :: _ => rfl
  | .rst :: _ => rfl
  | .portCut _ _ _ :: _ => rfl

theorem endCommand_phase (c : Bool) (s : State) : (endCommand c s).slPhase ≠ .respond := by
  cases c <;> simp [endCommand, waitForCommand, waitForReset]

/-- The end of a command forgets the shift register and the task. -/
theorem endCommand_forgets (c : Bool) (f : SlaveFramer) (t : SlaveTask) (s : State) :
    endCommand c { s with sFramer := f, task := t } = endCommand c s := by
  cases c <;> rfl

/-! ## One byte -/

/-- The states a responder passes through from `s0`: only these fields move. -/
def Within (s0 s : State) : Prop :=
  ∃ w l e f t, s = { s0 with wire := w, line := l, slErr := e, sFramer := f, task := t }

theorem Within.refl (s : State) : Within s s := ⟨_, _, _, _, _, rfl⟩

theorem Within.waited {s0 s : State} (h : Within s0 s) (t : BitVec 16) : Within s0 (waited t s) := by
  obtain ⟨_, _, _, _, _, rfl⟩ := h
  exact ⟨_, _, _, _, _, rfl⟩

theorem Within.shiftSent {s0 s : State} (h : Within s0 s) (es : List WireEvent) (e : SlErr) :
    Within s0 (shiftSent (slavePlayed es { s with slErr := e })) := by
  obtain ⟨_, _, _, _, _, rfl⟩ := h
  exact ⟨_, _, _, _, _, rfl⟩

theorem Within.loadByte {s0 s : State} (h : Within s0 s) (es : List WireEvent) (e : SlErr)
    (f : SlaveFramer) (v : Byte) (t : SlaveTask) :
    Within s0 (loadByte v t (slavePlayed es { s with slErr := e, sFramer := f })) := by
  obtain ⟨_, _, _, _, _, rfl⟩ := h
  exact ⟨_, _, _, _, _, rfl⟩

/-- A responder that sends the byte in `s_sh` and then does `fin`. -/
def SendsByte (s0 : State) (t : SlaveTask) (fin : State → State) : Prop :=
  ∀ m s, Within s0 s → s.task = t →
    slaveSlot (.slot m) s =
      (fun u => if u.sFramer.bitcnt = 8 then fin u else u)
        (shiftSent (slavePlayed [.sSend (s.sFramer.sh.getLsbD 0) true] { s with slErr := .none }))

/-- The bits of a shift register that are still to be sent. -/
theorem sendsByte_bits {s0 : State} {t : SlaveTask} {fin : State → State} (h : SendsByte s0 t fin)
    (h0 : s0.slPhase = .respond) (rest : List Input) (ms : List Bool) :
    ∀ s, Within s0 s → s.task = t → 0 < ms.length → ms.length ≤ 8 →
      s.sFramer.bitcnt = BitVec.ofNat 4 (8 - ms.length) →
      runResponse (slots ms ++ rest) s =
        runResponse rest (fin (slavePlayed
          ((List.range ms.length).map fun i => .sSend (s.sFramer.sh.getLsbD i) true)
          { s with slErr := .none, sFramer := { sh := s.sFramer.sh >>> ms.length, bitcnt := 8, timer := 0 } })) := by
  induction ms with
  | nil => intro s _ _ h; simp at h
  | cons m ms ih =>
    intro s hw ht _ hl hc
    have hph : s.slPhase = .respond := by obtain ⟨_, _, _, _, _, rfl⟩ := hw; exact h0
    have hcount : (8 : BitVec 4) = BitVec.ofNat 4 8 := rfl
    have hs : runResponse (slots (m :: ms) ++ rest) s =
        runResponse (slots ms ++ rest) (slaveSlot (.slot m) (waited 0 s)) := runResponse_act hph _ _
    have hd : shiftSent (slavePlayed [.sSend ((waited 0 s).sFramer.sh.getLsbD 0) true]
          { waited 0 s with slErr := .none }) =
        shiftSent (slavePlayed [.sSend (s.sFramer.sh.getLsbD 0) true] { s with slErr := .none }) := rfl
    rw [hs, h _ _ (hw.waited 0) ht, hd]
    beta_reduce
    have hb : s.sFramer.bitcnt + 1 = BitVec.ofNat 4 (8 - ms.length) := by
      rw [hc, show (1 : BitVec 4) = BitVec.ofNat 4 1 from rfl, ← BitVec.ofNat_add]
      congr 1
      simp only [List.length_cons] at hl ⊢
      omega
    match hms : ms with
    | [] =>
      have h8 : (shiftSent (slavePlayed [.sSend (s.sFramer.sh.getLsbD 0) true]
          { s with slErr := .none })).sFramer.bitcnt = 8 := hb
      rw [if_pos h8]
      have hf : shiftSent (slavePlayed [.sSend (s.sFramer.sh.getLsbD 0) true] { s with slErr := .none }) =
          slavePlayed [.sSend (s.sFramer.sh.getLsbD 0) true]
            { s with slErr := .none, sFramer := { sh := s.sFramer.sh >>> 1, bitcnt := 8, timer := 0 } } := by
        have : s.sFramer.bitcnt + 1 = 8 := hb
        simp only [shiftSent, slavePlayed, this]
      rw [hf]
      rfl
    | m' :: ms' =>
      have hl' : (m' :: ms').length < 8 := by simp only [List.length_cons] at hl ⊢; omega
      have h8 : (shiftSent (slavePlayed [.sSend (s.sFramer.sh.getLsbD 0) true]
          { s with slErr := .none })).sFramer.bitcnt ≠ 8 := by
        show s.sFramer.bitcnt + 1 ≠ 8
        rw [hb]
        intro he
        have := congrArg BitVec.toNat he
        rw [BitVec.toNat_ofNat, Nat.mod_eq_of_lt (by omega)] at this
        simp only [List.length_cons] at this
        have h8n : (8 : BitVec 4).toNat = 8 := rfl
        omega
      rw [if_neg h8]
      rw [ih (shiftSent (slavePlayed [.sSend (s.sFramer.sh.getLsbD 0) true] { s with slErr := .none }))
        (hw.shiftSent _ _) ht (by simp) (by omega) hb]
      have hev : ((List.range (m :: m' :: ms').length).map
          fun i => WireEvent.sSend (s.sFramer.sh.getLsbD i) true) =
          [.sSend (s.sFramer.sh.getLsbD 0) true] ++ (List.range (m' :: ms').length).map
            fun i => .sSend ((s.sFramer.sh >>> 1).getLsbD i) true := by
        rw [List.length_cons, List.range_succ_eq_map, List.map_cons, List.map_map]
        simp [Function.comp_def, Nat.add_comm]
      have hsh : s.sFramer.sh >>> (m :: m' :: ms').length = (s.sFramer.sh >>> 1) >>> (m' :: ms').length := by
        rw [← BitVec.shiftRight_add, Nat.add_comm]; rfl
      rw [hev, slavePlayed_append, hsh]
      rfl

/-- One whole byte: eight slots (R194, R204). -/
theorem sendsByte_byte {s0 : State} {t : SlaveTask} {fin : State → State} (h : SendsByte s0 t fin)
    (h0 : s0.slPhase = .respond) (rest : List Input) (ms : List Bool) (hm : ms.length = 8) (v : Byte)
    (s : State) (hw : Within s0 s) (ht : s.task = t) (hf : s.sFramer = { sh := v }) :
    runResponse (slots ms ++ rest) s = runResponse rest (fin (slavePlayed (sendEvents [v])
      { s with slErr := .none, sFramer := { sh := v >>> 8, bitcnt := 8, timer := 0 } })) := by
  rw [sendsByte_bits h h0 rest ms s hw ht (by omega) (by omega) (by rw [hf, hm]; rfl), hm, hf]
  rfl

/-- A responder that sends the bytes `bytes i` for `i` below `n`, one after another. -/
def Streams (s0 : State) (n : Nat) (task : Nat → SlaveTask) (bytes : Nat → Byte) (chain : Bool) : Prop :=
  ∀ i, i < n → SendsByte s0 (task i) fun s =>
    if i + 1 < n then loadByte (bytes (i + 1)) (task (i + 1)) s else endCommand chain s

/-- A stream to its end, from byte `i` on. -/
theorem streams_run {s0 : State} {n : Nat} {task : Nat → SlaveTask} {bytes : Nat → Byte} {chain : Bool}
    (h : Streams s0 n task bytes chain) (h0 : s0.slPhase = .respond) (rest : List Input) :
    ∀ k i ms s, i + (k + 1) = n → ms.length = 8 * (k + 1) → Within s0 s → s.task = task i →
      s.sFramer = { sh := bytes i } →
      runResponse (slots ms ++ rest) s =
        { endCommand chain (slavePlayed (sendEvents ((List.range' i (k + 1)).map bytes))
            { s with slErr := .none }) with inputs := rest } := by
  intro k
  induction k with
  | zero =>
    intro i ms s hn hm hw ht hf
    rw [sendsByte_byte (h i (by omega)) h0 rest ms hm _ s hw ht hf, if_neg (by omega),
      runResponse_done (endCommand_phase _ _)]
    cases chain <;> rfl
  | succ k ih =>
    intro i ms s hn hm hw ht hf
    have hsplit : slots ms ++ rest = slots (ms.take 8) ++ (slots (ms.drop 8) ++ rest) := by
      rw [← List.append_assoc, ← slots_append, List.take_append_drop]
    rw [hsplit, sendsByte_byte (h i (by omega)) h0 _ (ms.take 8) (by simp [hm]) _ s hw ht hf,
      if_pos (by omega)]
    rw [ih (i + 1) (ms.drop 8) (loadByte (bytes (i + 1)) (task (i + 1))
        (slavePlayed (sendEvents [bytes i])
          { s with slErr := .none, sFramer := { sh := bytes i >>> 8, bitcnt := 8, timer := 0 } }))
      (by omega) (by simp [hm]; omega) (hw.loadByte _ _ _ _ _) rfl rfl]
    rw [show List.range' i (k + 1 + 1) = i :: List.range' (i + 1) (k + 1) from List.range'_succ,
      List.map_cons, sendEvents_cons (bytes i) ((List.range' (i + 1) (k + 1)).map bytes), slavePlayed_append]
    cases chain <;> simp [endCommand, loadByte, slavePlayed, waitForReset, waitForCommand]

/-! ## The answers -/

/-- The ROM answer (R234): the record streams, then the command ends. -/
theorem readRom_run (chain : Bool) (rest : List Input) (ms : List Bool) (hm : ms.length = 64) (s : State)
    (h0 : s.slPhase = .respond) (ht : s.task = .sendRom 0 chain) (hf : s.sFramer = { sh := s.romAt 0 }) :
    runResponse (slots ms ++ rest) s =
      { endCommand chain (slavePlayed (sendEvents s.rom.toList) { s with slErr := .none }) with
        inputs := rest } := by
  have h : Streams s 8 (fun k => .sendRom k chain) s.romAt chain := by
    rintro i hi m u ⟨w, l, e, f, t, rfl⟩ (rfl : t = _)
    rfl
  have hl : s.rom.toList = (List.range' 0 (7 + 1)).map s.romAt := by
    unfold State.romAt
    obtain ⟨⟨l⟩, hl⟩ := s.rom
    match l, hl with
    | [_, _, _, _, _, _, _, _], _ => rfl
  rw [streams_run h h0 rest 7 0 ms s rfl hm (.refl s) ht hf, hl]

theorem memReadBytes_eq (e : Nat) (m : List Host.Cell) (n a : Nat) :
    memReadBytes e m a n = (List.range' a n).map (memRead e m) := by
  induction n generalizing a with
  | zero => rfl
  | succ n ih => rw [memReadBytes, ih, List.range'_succ, List.map_cons]

/-- The memory stream (R235): from `a` to the end of the buffer, then the command ends. -/
theorem sendMem_run (a k : Nat) (rest : List Input) (ms : List Bool) (s : State)
    (ha : a + (k + 1) = memSize s.fam) (hm : ms.length = 8 * (k + 1)) (h0 : s.slPhase = .respond)
    (ht : s.task = .sendMem a) (hf : s.sFramer = { sh := s.memAt a }) :
    runResponse (slots ms ++ rest) s =
      { endCommand false (slavePlayed (sendEvents (s.memBytes a (k + 1))) { s with slErr := .none }) with
        inputs := rest } := by
  have h : Streams s (memSize s.fam) .sendMem s.memAt false := by
    rintro i hi m u ⟨w, l, e, f, t, rfl⟩ (rfl : t = _)
    rfl
  rw [streams_run h h0 rest k a ms s ha hm (.refl s) ht hf, State.memBytes, memReadBytes_eq]
  rfl

/-- A slot of the address phase; the wait before it is over. -/
theorem slaveSlot_recvAddr {lo : Option Byte} {s : State} (m : Bool) (h : s.task = .recvAddr lo) :
    slaveSlot (.slot m) (waited 0 s) = recvAddrSlot lo (.slot m) s := by
  unfold slaveSlot
  rw [show (waited 0 s).task = .recvAddr lo from h]
  cases lo <;> rfl

/-- A slot of a search triplet. -/
theorem slaveSlot_search {k : Nat} {part : TripletPart} {chain : Bool} {s : State} (m : Bool)
    (h : s.task = .search k part chain) :
    slaveSlot (.slot m) (waited 0 s) = searchSlot k part chain (.slot m) (waited 0 s) := by
  unfold slaveSlot
  rw [show (waited 0 s).task = .search k part chain from h]

/-- What a received address byte leads to: the next byte, or the range check and the stream. -/
def afterAddrByte (lo : Option Byte) (w : State) : State :=
  match lo with
  | none => { w with task := .recvAddr (some w.sFramer.sh), sFramer := {} }
  | some x => startMemoryStream (addrOf x w.sFramer.sh) w

/-- The state after the low or high byte of an address is in (R195, R204): eight slots. -/
theorem recvAddr_byte (lo : Option Byte) (v : Byte) (rest : List Input) (s : State)
    (h0 : s.slPhase = .respond) (ht : s.task = .recvAddr lo) (hf : s.sFramer = {}) :
    runResponse (slots (bitsOf v) ++ rest) s =
      runResponse rest (afterAddrByte lo (slavePlayed (receiveEvents (bitsOf v))
        { s with slErr := .none, sFramer := { sh := v, bitcnt := 8, timer := 0 } })) := by
  have key : ∀ (rest : List Input) (ms : List Bool) (u : State), u.slPhase = .respond → u.task = .recvAddr lo →
      u.sFramer.bitcnt.toNat + ms.length < 8 →
      runResponse (slots ms ++ rest) u = runResponse rest
        (slavePlayed (receiveEvents ms)
          { u with
            slErr := if ms = [] then u.slErr else .none
            sFramer := if ms = [] then u.sFramer else
              { sh := ms.foldl (fun sh b => shiftIn b sh) u.sFramer.sh
                bitcnt := u.sFramer.bitcnt + BitVec.ofNat 4 ms.length, timer := 0 } }) := by
    intro rest ms
    induction ms with
    | nil => intro u _ _ _; rfl
    | cons m ms ih =>
      intro u hp hu hc
      simp only [List.length_cons] at hc
      have hs : runResponse (slots (m :: ms) ++ rest) u =
          runResponse (slots ms ++ rest) (slaveSlot (.slot m) (waited 0 u)) := runResponse_act hp _ _
      have hb : (u.sFramer.bitcnt + 1).toNat = u.sFramer.bitcnt.toNat + 1 := by
        rw [BitVec.toNat_add]; simp; omega
      have hn : u.sFramer.bitcnt + 1 ≠ 8 := by
        intro he
        have := congrArg BitVec.toNat he
        have h8n : (8 : BitVec 4).toNat = 8 := rfl
        omega
      have hstep : slaveSlot (.slot m) (waited 0 u) = shiftReceived m
          (slavePlayed [.sRecv m true] { u with slErr := .none }) := by
        rw [slaveSlot_recvAddr m hu]
        exact if_neg hn
      rw [hs, hstep, ih (shiftReceived m (slavePlayed [.sRecv m true] { u with slErr := .none })) hp hu
        (by show (u.sFramer.bitcnt + 1).toNat + ms.length < 8; omega)]
      congr 1
      have hc2 : u.sFramer.bitcnt + 1 + BitVec.ofNat 4 ms.length =
          u.sFramer.bitcnt + BitVec.ofNat 4 (ms.length + 1) := by
        rw [Nat.add_comm ms.length 1, BitVec.ofNat_add, ← BitVec.add_assoc]; rfl
      cases ms with
      | nil => simp [shiftReceived, slavePlayed, receiveEvents]
      | cons m' ms' =>
        simp only [shiftReceived, slavePlayed, receiveEvents, hc2]
        simp
  have hfold : ∀ v : Byte, shiftIn (v.getLsbD 7) (((bitsOf v).take 7).foldl (fun sh b => shiftIn b sh) 0) = v := by
    decide
  have h7 : slots (bitsOf v) ++ rest =
      slots ((bitsOf v).take 7) ++ (.line (.act (.slot (v.getLsbD 7))) :: rest) := rfl
  set u : State := slavePlayed (receiveEvents ((bitsOf v).take 7))
    { s with
      slErr := .none
      sFramer := { sh := ((bitsOf v).take 7).foldl (fun sh b => shiftIn b sh) 0, bitcnt := 7, timer := 0 } }
    with hu
  have hk : runResponse (slots ((bitsOf v).take 7) ++ (.line (.act (.slot (v.getLsbD 7))) :: rest)) s =
      runResponse (.line (.act (.slot (v.getLsbD 7))) :: rest) u := by
    rw [key _ _ s h0 ht (by rw [hf]; show 0 + 7 < 8; omega), hf]
    rfl
  have hut : u.task = .recvAddr lo := ht
  have hw : shiftReceived (v.getLsbD 7) (slavePlayed [.sRecv (v.getLsbD 7) true] { u with slErr := .none }) =
      slavePlayed (receiveEvents (bitsOf v))
        { s with slErr := .none, sFramer := { sh := v, bitcnt := 8, timer := 0 } } := by
    rw [hu]
    simp only [shiftReceived, slavePlayed, hfold]
    rfl
  have hlast : slaveSlot (.slot (v.getLsbD 7)) (waited 0 u) = recvAddrSlot lo (.slot (v.getLsbD 7)) u := by
    exact slaveSlot_recvAddr _ hut
  rw [h7, hk, runResponse_act (by exact h0), hlast]
  rw [show recvAddrSlot lo (.slot (v.getLsbD 7)) u = afterAddrByte lo (shiftReceived (v.getLsbD 7)
    (slavePlayed [.sRecv (v.getLsbD 7) true] { u with slErr := .none })) by cases lo <;> rfl, hw]

/-- The address of a memory read arrives (R235): two bytes, low byte first. -/
theorem recvAddr_run (lo hi : Byte) (rest : List Input) (s : State)
    (h0 : s.slPhase = .respond) (ht : s.task = .recvAddr none) (hf : s.sFramer = {}) :
    runResponse (slots (wireBits [lo, hi]) ++ rest) s =
      runResponse rest (startMemoryStream (addrOf lo hi)
        (slavePlayed (receiveEvents (wireBits [lo, hi]))
          { s with
            slErr := .none, task := .recvAddr (some lo), sFramer := { sh := hi, bitcnt := 8, timer := 0 } })) := by
  have hsplit : slots (wireBits [lo, hi]) ++ rest = slots (bitsOf lo) ++ (slots (bitsOf hi) ++ rest) := by
    simp [slots, wireBits]
  rw [hsplit, recvAddr_byte none lo _ s h0 ht hf]
  exact recvAddr_byte (some lo) hi rest
    { slavePlayed (receiveEvents (bitsOf lo)) { s with slErr := .none } with
      task := .recvAddr (some lo), sFramer := {} } h0 rfl rfl

/-- Bit `k` of the record in wire order (R101, R102). -/
theorem wireBits_rom (r : Vector Byte 8) (k : Nat) (hk : k < 64) :
    (wireBits r.toList).drop k =
      (r[k / 8]?.getD 0).getLsbD (k % 8) :: (wireBits r.toList).drop (k + 1) := by
  obtain ⟨⟨l⟩, hl⟩ := r
  match l, hl with
  | [a0, a1, a2, a3, a4, a5, a6, a7], _ => interval_cases k <;> rfl

/-- The search answer (R233): 64 triplets, whatever the choices, then the command ends. -/
theorem search_run (chain : Bool) (rest : List Input) :
    ∀ (n k : Nat) (ms : List (Bool × Bool × Bool)) (s : State), k + (n + 1) = 64 → ms.length = n + 1 →
      s.slPhase = .respond → s.task = .search k .bit chain →
      runResponse (slots (ms.flatMap fun p => [p.1, p.2.1, p.2.2]) ++ rest) s =
        { endCommand chain (slavePlayed
            (((wireBits s.rom.toList).drop k).zip (ms.map (·.2.2)) |>.flatMap
              fun p => [.sSend p.1 true, .sSend (!p.1) true, .sRecv p.2 true])
            { s with slErr := .none }) with inputs := rest } := by
  have hbit : ∀ (s : State) (k : Nat), k < 64 →
      (wireBits s.rom.toList).drop k = s.romBit k :: (wireBits s.rom.toList).drop (k + 1) :=
    fun s k hk => wireBits_rom s.rom k hk
  have one : ∀ (m1 m2 m3 : Bool) (k : Nat) (tail : List Input) (s : State), s.slPhase = .respond →
      s.task = .search k .bit chain →
      runResponse (slots [m1, m2, m3] ++ tail) s = runResponse tail
        ((fun s => if k + 1 < 64 then { s with task := .search (k + 1) .bit chain } else endCommand chain s)
          (slavePlayed [.sSend (s.romBit k) true, .sSend (!s.romBit k) true, .sRecv m3 true]
            { waited 0 s with slErr := .none, task := .search k .choice chain })) := by
    intro m1 m2 m3 k tail s hp ht
    obtain ⟨s1, h1⟩ : ∃ t : State, t = { slavePlayed [.sSend (s.romBit k) true]
        { waited 0 s with slErr := .none } with task := .search k .complement chain } := ⟨_, rfl⟩
    obtain ⟨s2, h2⟩ : ∃ t : State, t = { slavePlayed [.sSend (!s.romBit k) true] s1 with
        task := .search k .choice chain } := ⟨_, rfl⟩
    have e1 : slaveSlot (.slot m1) (waited 0 s) = s1 := (slaveSlot_search m1 ht).trans h1.symm
    have e2 : slaveSlot (.slot m2) (waited 0 s1) = s2 := by
      rw [slaveSlot_search m2 (by rw [h1]), h2, h1]; rfl
    have e3 : slaveSlot (.slot m3) (waited 0 s2) =
        (fun s => if k + 1 < 64 then { s with task := .search (k + 1) .bit chain } else endCommand chain s)
          (slavePlayed [.sRecv m3 true] { waited 0 s2 with slErr := .none }) := by
      rw [slaveSlot_search m3 (k := k) (part := .choice) (chain := chain) (by rw [h2])]; rfl
    have e4 : slavePlayed [.sRecv m3 true] { waited 0 s2 with slErr := .none } =
        slavePlayed [.sSend (s.romBit k) true, .sSend (!s.romBit k) true, .sRecv m3 true]
          { waited 0 s with slErr := .none, task := .search k .choice chain } := by
      simp only [h2, h1, slavePlayed, waited, List.map_cons, List.map_nil, List.reverse_cons,
        List.reverse_nil, List.nil_append, List.cons_append]
    show runResponse (.line (.act (.slot m1)) :: .line (.act (.slot m2)) :: .line (.act (.slot m3)) :: tail) s = _
    rw [runResponse_act hp, e1, runResponse_act (by rw [h1]; exact hp), e2,
      runResponse_act (by rw [h2, h1]; exact hp), e3, e4]
  intro n
  induction n with
  | zero =>
    intro k ms s hk hm hp ht
    match ms, hm with
    | [p], _ =>
      have h63 : k = 63 := by omega
      rw [show slots ([p].flatMap fun p => [p.1, p.2.1, p.2.2]) = slots [p.1, p.2.1, p.2.2] by simp,
        one _ _ _ k rest s hp ht]
      simp only [h63]
      rw [if_neg (by omega), runResponse_done (endCommand_phase _ _), hbit s 63 (by omega)]
      cases chain <;> simp [endCommand, slavePlayed, waitForReset, waitForCommand, waited]
  | succ n ih =>
    intro k ms s hk hm hp ht
    match ms, hm with
    | p :: ms, hm =>
      have hsp : slots ((p :: ms).flatMap fun p => [p.1, p.2.1, p.2.2]) ++ rest =
          slots [p.1, p.2.1, p.2.2] ++ (slots (ms.flatMap fun p => [p.1, p.2.1, p.2.2]) ++ rest) := by
        simp [slots]
      rw [hsp, one _ _ _ k _ s hp ht]
      simp only
      rw [if_pos (by omega)]
      simp only [List.length_cons, Nat.add_right_cancel_iff] at hm
      rw [ih (k + 1) ms
        { slavePlayed [.sSend (s.romBit k) true, .sSend (!s.romBit k) true, .sRecv p.2.2 true]
            { waited 0 s with slErr := .none, task := .search k .choice chain } with
          task := .search (k + 1) .bit chain }
        (by omega) hm hp rfl, hbit s k (by omega)]
      simp only [List.map_cons, List.zip_cons_cons, List.flatMap_cons, slavePlayed_append]
      cases chain <;> simp [endCommand, slavePlayed, waitForReset, waitForCommand, waited]

/-- With no host sequence running, an input of the peer is what the step takes. -/
theorem step_line {s : State} {p : PeerInput} {rest : List Input} (hq : s.qStep = [])
    (hi : s.inputs = .line p :: rest) :
    step s = lineStep p { s with inputs := rest } := by simp [step, hq, hi]

/-- In role `Slave` an action of the peer goes to the engine. -/
theorem step_act {s : State} {a : PeerAction} {rest : List Input} (hq : s.qStep = [])
    (hi : s.inputs = .line (.act a) :: rest) (hr : s.role = .slave) :
    step s = slaveStep a (waited 0 { s with inputs := rest }) := by
  rw [step_line hq hi]; unfold lineStep; rw [if_pos hr]; rfl

/-- The engine while it receives a command byte. -/
theorem slaveStep_recv (a : PeerAction) (t : State) (hp : t.slPhase = .recvCmd) :
    slaveStep a t = match receiveCommandBit a t with
    | .going t => .next t
    | .command c t => runCode (.bus t.fam t.cmdState c) t := by
  cases h : receiveCommandBit a t <;> simp only [slaveStep, hp, h]

/-- A slot that is not the eighth of a command byte. -/
theorem recv_going (m : Bool) (t : State) (h : ¬ t.sFramer.bitcnt + 1 = 8) :
    receiveCommandBit (.slot m) t =
      .going (shiftReceived m (slavePlayed [.sRecv m true] { t with slErr := .none })) := by
  unfold receiveCommandBit slReceiveBit shiftReceived emit
  simp only [if_true]
  split
  · exact absurd ‹_› h
  · rfl

/-- The eighth slot of a command byte. -/
theorem recv_command (m : Bool) (t : State) (h : t.sFramer.bitcnt + 1 = 8) :
    receiveCommandBit (.slot m) t = .command (shiftIn m t.sFramer.sh)
      (slavePlayed [.sRecv m true] { t with slErr := .none, slPhase := .respond, sFramer := {} }) := by
  unfold receiveCommandBit slReceiveBit shiftReceived emit
  simp only [if_true]
  split
  · rfl
  · exact absurd h ‹_›

/-! ## One slot of a response as a step -/

/-- The state with these inputs waiting. -/
def waiting (x : List Input) (s : State) : State := { s with inputs := x }

theorem endCommand_waiting (c : Bool) (x : List Input) (s : State) :
    endCommand c (waiting x s) = waiting x (endCommand c s) := by cases c <;> rfl

/-- The reset rule does not look at the inputs. -/
theorem resetRule_waiting (b : Bool) (x : List Input) (s : State) :
    resetRule b (waiting x s) = ((resetRule b s).1, waiting x (resetRule b s).2) := by
  have hf : State.fam (waiting x s) = s.fam := rfl
  unfold resetRule
  rw [hf]
  cases b <;> rcases familyOf s.fam with _ | f <;> try rfl
  all_goals cases f <;> rfl

theorem takeBusReset_waiting (b : Bool) (x : List Input) (s : State) :
    takeBusReset b (waiting x s) = waiting x (takeBusReset b s) := by
  have e : { emit (.sReset b) [] (waiting x s) with slErr := .none, task := .none, sFramer := {} } =
      waiting x { emit (.sReset b) [] s with slErr := .none, task := .none, sFramer := {} } := rfl
  unfold takeBusReset
  simp only [e, resetRule_waiting]
  split <;> rfl

theorem slaveFailed_waiting (x : List Input) (s : State) :
    slaveFailed (waiting x s) = waiting x (slaveFailed s) := by
  unfold slaveFailed
  by_cases h : s.slErr = .resetInProgress
  · rw [if_pos h, if_pos (show (waiting x s).slErr = _ from h)]
    exact takeBusReset_waiting s.slRstShort x s
  · rw [if_neg h, if_neg (show ¬ (waiting x s).slErr = _ from h)]
    rfl

theorem sendSlot_waiting (b : Bool) (a : PeerAction) {k : State → State} (x : List Input)
    (hk : ∀ u, k (waiting x u) = waiting x (k u)) (s : State) :
    sendSlot b a k (waiting x s) = waiting x (sendSlot b a k s) := by
  cases a
  · exact hk (emit (.sSend b true) (sendWave (Config.tSlave s.odSlave) b) { s with slErr := .none })
  · exact slaveFailed_waiting x
      (emit (.sSend b false) [] { s with slErr := .resetInProgress, slRstShort := false })
  · exact slaveFailed_waiting x
      (emit (.sSend b false) [] { s with slErr := .resetInProgress, slRstShort := true })
  · exact slaveFailed_waiting x (emit (.sSend b false) [] { s with slErr := .timeout })

theorem receiveSlot_waiting (a : PeerAction) {k : Bool → State → State} (x : List Input)
    (hk : ∀ b u, k b (waiting x u) = waiting x (k b u)) (s : State) :
    receiveSlot a k (waiting x s) = waiting x (receiveSlot a k s) := by
  cases a with
  | slot m => exact hk m (emit (.sRecv m true) [] { s with slErr := .none })
  | resetStd =>
    exact slaveFailed_waiting x
      (emit (.sRecv false false) [] { s with slErr := .resetInProgress, slRstShort := false })
  | resetShort =>
    exact slaveFailed_waiting x
      (emit (.sRecv false false) [] { s with slErr := .resetInProgress, slRstShort := true })
  | silence => exact slaveFailed_waiting x (emit (.sRecv false false) [] { s with slErr := .timeout })

theorem ite_waiting {c c' : Prop} [Decidable c] [Decidable c'] {x : List Input} {t u t' u' : State}
    (hc : c' ↔ c) (ht : t' = waiting x t) (hu : u' = waiting x u) :
    (if c' then t' else u') = waiting x (if c then t else u) := by
  by_cases h : c
  · rw [if_pos h, if_pos (hc.2 h), ht]
  · rw [if_neg h, if_neg (fun h' => h (hc.1 h')), hu]

/-- A slot of a responder does not look at the inputs that wait. -/
theorem slaveSlot_waiting (a : PeerAction) (x : List Input) (s : State) :
    slaveSlot a (waiting x s) = waiting x (slaveSlot a s) := by
  have ht : (waiting x s).task = s.task := rfl
  unfold slaveSlot
  rw [ht]
  cases s.task with
  | none => rfl
  | search k p c =>
    unfold searchSlot
    cases p
    · exact sendSlot_waiting (k := fun s => { s with task := .search k .complement c }) (s.romBit k) a x
        (fun _ => rfl) s
    · exact sendSlot_waiting (k := fun s => { s with task := .search k .choice c }) (!s.romBit k) a x
        (fun _ => rfl) s
    · refine receiveSlot_waiting a x (fun _ u => ?_) s
      exact ite_waiting Iff.rfl rfl (endCommand_waiting c x u)
  | sendRom k c =>
    unfold sendRomSlot
    refine sendSlot_waiting (k := fun s => _) (s.sFramer.sh.getLsbD 0) a x (fun u => ?_) s
    exact ite_waiting Iff.rfl (ite_waiting Iff.rfl rfl (endCommand_waiting c x (shiftSent u))) rfl
  | recvAddr lo =>
    unfold recvAddrSlot
    refine receiveSlot_waiting a x (fun b u => ?_) s
    refine ite_waiting Iff.rfl ?_ rfl
    cases lo
    · rfl
    · exact ite_waiting Iff.rfl rfl (endCommand_waiting false x (shiftReceived b u))
  | sendMem n =>
    unfold sendMemSlot
    refine sendSlot_waiting (k := fun s => _) (s.sFramer.sh.getLsbD 0) a x (fun u => ?_) s
    exact ite_waiting Iff.rfl (ite_waiting Iff.rfl rfl (endCommand_waiting false x (shiftSent u))) rfl

/-- What an input is does not depend on the inputs that wait. -/
theorem hear_waiting (p : PeerInput) (x : List Input) (s : State) :
    hear p (waiting x s) = ((hear p s).1, waiting x (hear p s).2) := by
  cases p with
  | act a => rfl
  | low us => rfl
  | quiet us =>
    simp only [hear, classifyQuiet]
    by_cases h : (Config.tSlave s.odSlave).waitMax.toNat < s.sFramer.timer.toNat + us
    · rw [if_pos h, if_pos (by exact h)]; rfl
    · rw [if_neg h, if_neg (by exact h)]; rfl

/-- A response run over inputs does not look at those of the state. -/
theorem runResponse_waiting (ins : List Input) :
    ∀ (x : List Input) (s : State), runResponse ins (waiting x s) = runResponse ins s := by
  induction ins with
  | nil => intro x s; rfl
  | cons i ins ih =>
    intro x s
    cases i with
    | line p =>
      have h1 : (waiting x s).slPhase = s.slPhase := rfl
      unfold runResponse
      rw [h1, hear_waiting]
      by_cases hp : s.slPhase = .respond
      · rw [if_pos hp, if_pos hp]
        rcases hear p s with ⟨_ | a, u⟩
        · exact ih _ _
        · dsimp only; rw [slaveSlot_waiting, ih]
      · rw [if_neg hp, if_neg hp]; rfl
    | _ => rfl

/-- One slot of a responder, as a step. -/
theorem slotLeads {s t : State} {m : Bool} {rest : List Input} (hq : s.qStep = []) (hr : s.role = .slave)
    (hp : s.slPhase = .respond) (hi : s.inputs = .line (.act (.slot m)) :: rest)
    (ht : slaveSlot (.slot m) (waited 0 { s with inputs := rest }) = t) (h1 : t.inputs = rest) (h2 : t.qStep = [])
    (h3 : t.role = .slave) : SlotLeads s rest t := by
  have e : step s = .next (runResponse rest t) := by
    rw [step_act hq hi hr, ← ht]
    simp only [slaveStep, show (waited 0 { s with inputs := rest }).slPhase = .respond from hp]
    rfl
  refine ⟨?_, ?_⟩
  · intro hn
    rw [e]
    cases rest with
    | nil => unfold runResponse; rw [← h1]
    | cons i more =>
      cases i with
      | line p => exact absurd rfl (hn p more)
      | _ => unfold runResponse; rw [← h1]
  · rintro p more a rfl ha
    rw [e]
    have hh : hear p t = (some a, (hear p t).2) := by rw [← ha]
    split
    · rename_i hph
      rw [step_line h2 h1]
      set u := (hear p t).2 with hu
      have hup : u.slPhase = .respond := (hear_slPhase p t).trans hph
      have e1 : runResponse more (slaveSlot a (waiting more u)) = runResponse more (slaveSlot a u) :=
        (congrArg _ (slaveSlot_waiting a more u)).trans (runResponse_waiting _ _ _)
      have e2 : runResponse (.line p :: more) t = runResponse more (slaveSlot a u) := by
        simp only [runResponse, hph, if_true]; rw [hh]
      have e3 : lineStep p (waiting more t) = .next (runResponse more (slaveSlot a (waiting more u))) := by
        have h4 : (waiting more t).role = .slave := h3
        have h5 : (waiting more u).slPhase = .respond := hup
        simp only [lineStep, h4, if_true, hear_waiting]
        rw [hh]
        simp only [slaveStep, h5]
        rfl
      rw [e2, show ({ t with inputs := more } : State) = waiting more t from rfl, e3, e1]
    · rename_i hph
      rw [runResponse_done hph, ← h1]

end Sys2Proof.Machine
end

