-- ==== Sys2Proof/Laws/Steps.lean ====
section
/-! SUPPORT. What a port operation and a host sub-step can do, said once: which part of the state an
operation may write, and what it keeps. -/

namespace Sys2Proof.Machine

/-- `t` is `s` after something the host framer and the sequencer do: events are added to the wire, each
with its waveform; the storage, the framer, the sequencer's counters, `presence`, `dout` and the speed
may have new values; MEM keeps its form and a framer at rest is at rest again. -/
def HostEffect (s t : State) : Prop :=
  ∃ es ls o h p i e m pr rom ar od mem d,
    t = { s with
      wire := es ++ s.wire, line := ls ++ s.line, oracle := o, hFramer := h, qPage := p, qIdx := i
      qElapsed := e, qMismatch := m, presence := pr, rom := rom, aregs := ar, odHost := od, mem := mem
      dout := d } ∧
    es.length = ls.length ∧ (s.hFramer.Idle → h.Idle) ∧
    (Memory.wf s.epoch s.mem = true → Memory.wf s.epoch mem = true)

theorem HostEffect.refl (s : State) : HostEffect s s :=
  ⟨[], [], s.oracle, s.hFramer, s.qPage, s.qIdx, s.qElapsed, s.qMismatch, s.presence, s.rom, s.aregs,
    s.odHost, s.mem, s.dout, rfl, rfl, id, id⟩

theorem HostEffect.trans {s t u : State} (h : HostEffect s t) (k : HostEffect t u) : HostEffect s u := by
  obtain ⟨es, ls, _, _, _, _, _, _, _, _, _, _, _, _, rfl, hl, hi, hw⟩ := h
  obtain ⟨es', ls', o, h, p, i, e, m, pr, rom, ar, od, mem, d, rfl, hl', hi', hw'⟩ := k
  exact ⟨es' ++ es, ls' ++ ls, o, h, p, i, e, m, pr, rom, ar, od, mem, d,
    by simp only [List.append_assoc], by simp [hl, hl'], hi' ∘ hi, hw' ∘ hw⟩

theorem HostEffect.played (es : List WireEvent) (s : State) : HostEffect s (played es s) :=
  ⟨es.reverse, (es.map (waveOf (Config.tHost s.odHost))).reverse, _, _, _, _, _, _, _, _, _, _, _, _,
    rfl, by simp, id, id⟩

theorem HostEffect.hidden {s t u : State} (h : HostEffect s u) (k : SameButHidden t u) :
    HostEffect s t := by
  refine h.trans ?_
  obtain ⟨f, p, i, e, m, rfl, hi⟩ := k
  exact ⟨[], [], _, f, p, i, e, m, _, _, _, _, _, _, rfl, rfl, hi, id⟩

theorem HostEffect.says {es : List WireEvent} {f : State → State} (hf : Says es f) (s : State) :
    HostEffect s (f s) := (HostEffect.played es s).hidden (hf.2 s)

theorem HostEffect.plays {ms : List Move} {f : State → Bool × State} (hf : Plays ms f) (s : State) :
    HostEffect s (f s).2 :=
  HostEffect.hidden (u := afterMoves ms s)
    ((HostEffect.played (playFrom ms s).events s).trans
      ⟨[], [], _, _, _, _, _, _, _, _, _, _, _, _, rfl, rfl, id, id⟩) (hf.2 s).2

theorem HostEffect.reset (s : State) : HostEffect s (hostReset s).2 := HostEffect.plays plays_reset s

theorem HostEffect.readBit (s : State) : HostEffect s (hostReadBit s).2 := by
  rw [hostReadBit_eq]; exact HostEffect.played _ _

theorem HostEffect.readBytes (n : Nat) (s : State) : HostEffect s (hostReadBytes n s).2 :=
  HostEffect.plays (plays_skip n) s

theorem HostEffect.readByte (s : State) : HostEffect s (hostReadByte s).2 :=
  HostEffect.plays plays_readByte s

theorem HostEffect.overdrive (b : Bool) (s : State) : HostEffect s (hostSetOverdrive b s) :=
  ⟨[], [], _, _, _, _, _, _, _, _, _, b, _, _, rfl, rfl, id, id⟩

theorem HostEffect.record (r : List Byte) (s : State) : HostEffect s (storeRecord r s) :=
  ⟨[], [], _, _, _, _, _, _, _, _, _, _, _, _, rfl, rfl, id, id⟩

theorem HostEffect.regs (r : List Byte) (s : State) : HostEffect s (storeAregs r s) :=
  ⟨[], [], _, _, _, _, _, _, _, _, _, _, _, _, rfl, rfl, id, id⟩

theorem HostEffect.mem (d : List Byte) (h : d.length ≤ 8192) (s : State) : HostEffect s (storeMem 0 d s) :=
  ⟨[], [], _, _, _, _, _, _, _, _, _, _, memWriteBytes s.epoch s.mem 0 d, _, rfl, rfl, id,
    fun w => wf_memWriteBytes d w (by unfold Config.memArraySize; omega)⟩

theorem HostEffect.gate {s : State} {r : Bool × State} {k : State → Bool × State}
    (h : HostEffect s r.2) (hk : ∀ u, HostEffect u (k u).2) : HostEffect s (gate r k).2 := by
  unfold Machine.gate
  split
  · exact h.trans (hk _)
  · exact h

theorem HostEffect.orElse {s : State} {r : Bool × State} {k : State → Bool × State}
    (h : HostEffect s r.2) (hk : ∀ u, HostEffect u (k u).2) : HostEffect s (orElse r k).2 := by
  unfold Machine.orElse
  split
  · exact h
  · exact h.trans (hk _)

theorem HostEffect.frameReadRom (s : State) : HostEffect s (frameReadRom s) :=
  ((HostEffect.says (says_writeByte 0x33) s).trans (.readBytes 8 _)).trans (.record _ _)

theorem HostEffect.frameReadScratch (n : Nat) (s : State) : HostEffect s (frameReadScratch n s).2 :=
  (((HostEffect.says (says_writeByte 0xAA) s).trans (.readBytes 3 _)).trans (.regs _ _)).trans
    (.readBytes n _)

theorem HostEffect.frameReadMem (a : Half) (n : Nat) (s : State) : HostEffect s (frameReadMem a n s).2 :=
  (((HostEffect.says (says_writeByte 0xF0) s).trans (.says (says_writeByte _) _)).trans
    (.says (says_writeByte _) _)).trans (.readBytes n _)

theorem frameReadMem_length (a : Half) (n : Nat) (s : State) : (frameReadMem a n s).1.length = n := by
  unfold frameReadMem; rw [hostReadBytes_fst]; simp

theorem HostEffect.frameOverdrive (p : CommandBytes) (s : State) :
    HostEffect s (frameOverdriveSkipRom p s) :=
  (HostEffect.says (says_writeByte _) s).trans (.overdrive _ _)

theorem HostEffect.overdriveOff {s : State} {r : Bool × State} (h : HostEffect s r.2) :
    HostEffect s (overdriveOff r).2 := h.trans (.overdrive _ _)

theorem HostEffect.copyMove (m : CopyMove) (kept : List Byte) (s : State) :
    HostEffect s (copyMove m kept s).2.2 := by
  cases m with
  | reset => exact .reset s
  | write v => exact .says (says_writeByte v) s
  | read => exact .readByte s
  | echo i => exact .says (says_writeByte _) s
  | verify mask value => exact .readByte s
  | delay us => exact .says (says_delay us) s

theorem HostEffect.copyMoves (ms : List CopyMove) (kept : List Byte) (s : State) :
    HostEffect s (copyMoves ms kept s).2.2 := by
  induction ms generalizing kept s with
  | nil => exact .refl s
  | cons m ms ih =>
    unfold Machine.copyMoves
    simp only
    split
    · exact (HostEffect.copyMove m kept s).trans (ih _ _)
    · exact .copyMove m kept s

theorem HostEffect.copyToCompare (f : CopyFrame) (data : List Byte) (s : State) :
    HostEffect s (copyToCompare f data s).2.2 := by
  unfold Machine.copyToCompare
  simp only
  split
  · have h := (((HostEffect.reset s).trans (.says (says_writeBytes (f.romCommand.map (·.val))) _)).trans
      (.readBytes f.romReads _)).trans (.says (says_writeBytes (f.writeHead.map (·.val) ++ data)) _)
    have k := h.trans (.copyMoves (f.readBackHead.map HeadMove.toCopy) [] _)
    split
    · exact (k.trans (.readBytes data.length _)).trans
        ⟨[], [], _, _, _, _, _, _, _, _, _, _, _, _, rfl, rfl, id, id⟩
    · exact k
  · exact .reset s

theorem HostEffect.copyAfterCompare (f : CopyFrame) (kept : List Byte) (s : State) :
    HostEffect s (copyAfterCompare f kept s).2 := by
  unfold Machine.copyAfterCompare
  exact .gate (.copyMoves _ _ _) fun x =>
    ((HostEffect.says (says_writeByte 0xA5) x).trans (.says (says_delay _) _)).trans (.copyMoves _ _ _)

theorem HostEffect.writeCopyDs1971 (f : CopyFrame) (s : State) :
    HostEffect s (writeCopyDs1971 f s).2 :=
  .gate (.copyToCompare f _ s) fun u => .copyAfterCompare f _ u

/-- What a port operation can do (R324, R335), for every operation select; `starts` and `stops` say which
operations start and end a session. -/
inductive PortEffect (starts stops : Prop) (s : State) : State → Prop where
  /-- It is refused: nothing but the response changes. -/
  | refused (st : Status) (h : st ≠ .ok) : PortEffect starts stops s (refuse st s)
  /-- It runs without the line: the CRC register and, outside a session, the storage are written. -/
  | offLine (b : Bool) (st : Status) (v : Byte) (d : List Byte) (crc : Byte) (rom : Vector Byte 8)
      (ar : Vector Byte 3) (mem : List Host.Cell) (hf : s.fault = false) (hb : b = true → st = .ok)
      (hst : st = .ok ∨ st = .fail)
      (hs : s.role = .slave → rom = s.rom ∧ ar = s.aregs ∧ mem = s.mem)
      (hw : Memory.wf s.epoch s.mem = true → Memory.wf s.epoch mem = true) :
      PortEffect starts stops s { s with
        status := st, ok := b, rdata := v, dout := d, crc := crc, rom := rom, aregs := ar, mem := mem }
  /-- It runs on the line in host role. -/
  | onLine (b : Bool) (v : Byte) (d : List Byte) (u : State) (hf : s.fault = false)
      (hr : s.role ≠ .slave) (hu : HostEffect s u) : PortEffect starts stops s (endHost (reply b v d u))
  /-- It raises the contract violation (R322). -/
  | contract (hf : s.fault = false) (hr : s.role ≠ .slave) : PortEffect starts stops s (raiseContract s)
  /-- It starts a session (R200). -/
  | start (hi : starts) (hf : s.fault = false) (hr : s.role = .off) (hs : (familyOf s.famIn).isSome = true) :
      PortEffect starts stops s (reply true 0 [] { s with
        role := .slave, emuInstalled := true, famHeld := s.famIn, cmdState := .idle, odSlave := false
        slErr := .none, slRstShort := false, slPhase := .waitReset, task := .none, sFramer := {} })
  /-- It ends the session (R201). -/
  | stop (hi : stops) (hf : s.fault = false) (hr : s.role = .slave) :
      PortEffect starts stops s (reply true 0 [] { s with
        role := .off, emuInstalled := false, odSlave := false, slPhase := .off, owPull := false
        task := .none, sFramer := {} })

/-- An outcome that is a next state, reached as `PortEffect` says. -/
abbrev PortResult (starts stops : Prop) (o : Host.Outcome State Fault Refusal) (s : State) : Prop :=
  ∃ t, o = .next t ∧ PortEffect starts stops s t

variable {starts stops : Prop}

/-- An operation in front of which the checks of R324 stand. -/
theorem portOp_effect {p : RolePolicy} {sup rng : Bool} {run : State → State} {s : State}
    (h : s.fault = false → p.allows s.role = true → sup = true → rng = true → PortEffect starts stops s (run s)) :
    PortResult starts stops (portOp p sup rng run s) s := by
  unfold portOp
  split
  · exact ⟨_, rfl, .refused _ (by simp)⟩
  · split
    · exact ⟨_, rfl, .refused _ (by simp)⟩
    · split
      · exact ⟨_, rfl, .refused _ (by simp)⟩
      · split
        · exact ⟨_, rfl, .refused _ (by simp)⟩
        · exact ⟨_, rfl, h (by simp_all) (by simp_all) (by simp_all) (by simp_all)⟩

theorem notSlave_of_allows {r : Role} (h : RolePolicy.notSlave.allows r = true) : r ≠ .slave := by
  simpa [RolePolicy.allows] using h

/-- A host-role operation of which the sequence is a `HostEffect`. -/
theorem hostOp_effect {sup : Bool} {run : State → State} {s : State}
    (h : ∀ u : State, ∃ b v d w, run u = reply b v d w ∧ HostEffect u w) :
    PortResult starts stops (hostOp sup run s) s := by
  refine portOp_effect fun hf hr _ _ => ?_
  obtain ⟨b, v, d, w, e, hw⟩ := h (beginHost s)
  have h1 : HostEffect { s with role := .host } w :=
    HostEffect.trans ((HostEffect.refl _).hidden (.beginHost s)) hw
  obtain ⟨es, ls, o, f, p, i, e', m, pr, rom, ar, od, mem, d', rfl, hl, hi, hm⟩ := h1
  simp only [e]
  exact .onLine b v d { s with
      wire := es ++ s.wire, line := ls ++ s.line, oracle := o, hFramer := f, qPage := p, qIdx := i
      qElapsed := e', qMismatch := m, presence := pr, rom := rom, aregs := ar, odHost := od, mem := mem
      dout := d' } hf (notSlave_of_allows hr)
    ⟨es, ls, o, f, p, i, e', m, pr, rom, ar, od, mem, d', rfl, hl, hi, hm⟩

/-- The CRC register and the response are written, and nothing else. -/
theorem PortEffect.crcOnly {s : State} (hf : s.fault = false) (v c : Byte) :
    PortEffect starts stops s (reply true v [] { s with crc := c }) :=
  .offLine true .ok v [] c s.rom s.aregs s.mem hf (fun _ => rfl) (.inl rfl) (fun _ => ⟨rfl, rfl, rfl⟩) id

theorem PortEffect.answer {s : State} (hf : s.fault = false) (v : Byte) :
    PortEffect starts stops s (reply true v [] s) := PortEffect.crcOnly hf v s.crc

theorem memSize_le (f : FamSel) : memSize f ≤ 8192 := by revert f; decide

/-! ## Operation by operation -/

theorem nop_effect (s : State) : PortResult starts stops (execNop s) s := by
  unfold execNop
  refine portOp_effect fun hf _ _ _ => ?_
  exact .answer hf 0

theorem crcClr_effect (s : State) : PortResult starts stops (execCrcClr s) s := by
  unfold execCrcClr
  refine portOp_effect fun hf _ _ _ => ?_
  exact .crcOnly hf 0 0

theorem crcBit_effect (d : Bool) (s : State) : PortResult starts stops (execCrcBit d s) s := by
  unfold execCrcBit
  refine portOp_effect fun hf _ _ _ => ?_
  exact .crcOnly hf _ _

theorem crcByte_effect (d : Byte) (s : State) : PortResult starts stops (execCrcByte d s) s := by
  unfold execCrcByte
  refine portOp_effect fun hf _ _ _ => ?_
  exact .crcOnly hf _ _

theorem crcBuf_effect (din : List Byte) (s : State) : PortResult starts stops (execCrcBuf din s) s := by
  unfold execCrcBuf
  refine portOp_effect fun hf _ _ _ => ?_
  exact .crcOnly hf _ _

theorem crcGet_effect (s : State) : PortResult starts stops (execCrcGet s) s := by
  unfold execCrcGet
  refine portOp_effect fun hf _ _ _ => ?_
  exact .answer hf _

theorem romWr_effect (a : Half) (d : Byte) (s : State) : PortResult starts stops (execRomWr a d s) s := by
  unfold execRomWr
  refine portOp_effect fun hf hr _ _ => ?_
  exact .offLine true .ok 0 [] s.crc _ s.aregs s.mem hf (fun _ => rfl) (.inl rfl)
    (fun h => absurd h (notSlave_of_allows hr)) id

theorem romRd_effect (a : Half) (s : State) : PortResult starts stops (execRomRd a s) s := by
  unfold execRomRd
  refine portOp_effect fun hf _ _ _ => ?_
  exact .answer hf _

theorem romValid_effect (s : State) : PortResult starts stops (execRomValid s) s := by
  unfold execRomValid
  refine portOp_effect fun hf _ _ _ => ?_
  exact .offLine _ .ok _ [] (romCrc s.rom) s.rom s.aregs s.mem hf (fun _ => rfl) (.inl rfl)
    (fun _ => ⟨rfl, rfl, rfl⟩) id

theorem romApply_effect (d : Byte) (s : State) : PortResult starts stops (execRomApply d s) s := by
  unfold execRomApply
  refine portOp_effect fun hf hr _ _ => ?_
  exact .offLine true .ok _ [] _ _ s.aregs s.mem hf (fun _ => rfl) (.inl rfl)
    (fun h => absurd h (notSlave_of_allows hr)) id

theorem memWr_effect (a : Half) (d : Byte) (s : State) : PortResult starts stops (execMemWr a d s) s := by
  unfold execMemWr
  refine portOp_effect fun hf hr _ hrng => ?_
  exact .offLine true .ok 0 [] s.crc s.rom s.aregs _ hf (fun _ => rfl) (.inl rfl)
    (fun h => absurd h (notSlave_of_allows hr)) fun hw => wf_memWriteBytes [d] hw (by
      have := memSize_le s.fam
      have := of_decide_eq_true hrng
      unfold Config.memArraySize
      simp only [List.length_cons, List.length_nil]
      omega)

theorem memRd_effect (a : Half) (s : State) : PortResult starts stops (execMemRd a s) s := by
  unfold execMemRd
  refine portOp_effect fun hf _ _ _ => ?_
  exact .answer hf _

theorem aregsWr_effect (a : Half) (d : Byte) (s : State) : PortResult starts stops (execAregsWr a d s) s := by
  unfold execAregsWr
  refine portOp_effect fun hf hr _ _ => ?_
  exact .offLine true .ok 0 [] s.crc s.rom _ s.mem hf (fun _ => rfl) (.inl rfl)
    (fun h => absurd h (notSlave_of_allows hr)) id

theorem aregsRd_effect (a : Half) (s : State) : PortResult starts stops (execAregsRd a s) s := by
  unfold execAregsRd
  refine portOp_effect fun hf _ _ _ => ?_
  exact .answer hf _

theorem owReset_effect (s : State) : PortResult starts stops (execOwReset s) s := by
  unfold execOwReset
  exact hostOp_effect fun u => ⟨_, _, _, _, rfl, .reset u⟩

theorem owWbit_effect (d : Bool) (s : State) : PortResult starts stops (execOwWbit d s) s := by
  unfold execOwWbit
  exact hostOp_effect fun u => ⟨_, _, _, _, rfl, .says (says_writeBit _) u⟩

theorem owRbit_effect (s : State) : PortResult starts stops (execOwRbit s) s := by
  unfold execOwRbit
  exact hostOp_effect fun u => ⟨_, _, _, _, rfl, .readBit u⟩

theorem owWbyte_effect (d : Byte) (s : State) : PortResult starts stops (execOwWbyte d s) s := by
  unfold execOwWbyte
  exact hostOp_effect fun u => ⟨_, _, _, _, rfl, .says (says_writeByte _) u⟩

theorem owRbyte_effect (s : State) : PortResult starts stops (execOwRbyte s) s := by
  unfold execOwRbyte
  exact hostOp_effect fun u => ⟨_, _, _, _, rfl, .readByte u⟩

theorem owWbytes_effect (din : List Byte) (s : State) : PortResult starts stops (execOwWbytes din s) s := by
  unfold execOwWbytes
  exact hostOp_effect fun u => ⟨_, _, _, _, rfl, .says (says_writeBytes _) u⟩

theorem owRbytes_effect (n : Half) (s : State) : PortResult starts stops (execOwRbytes n s) s := by
  unfold execOwRbytes
  exact hostOp_effect fun u => ⟨_, _, _, _, rfl, .readBytes _ u⟩

theorem owSetod_effect (d : Bool) (s : State) : PortResult starts stops (execOwSetod d s) s := by
  unfold execOwSetod
  exact hostOp_effect fun u => ⟨_, _, _, _, rfl, .overdrive _ u⟩

theorem owDelay_effect (t : Micros) (s : State) : PortResult starts stops (execOwDelay t s) s := by
  unfold execOwDelay
  exact hostOp_effect fun u => ⟨_, _, _, _, rfl, .says (says_delay _) u⟩

theorem emuStart_effect (hi : starts) (s : State) : PortResult starts stops (execEmuStart s) s := by
  unfold execEmuStart
  refine portOp_effect fun hf hr hs _ => ?_
  have hr' : s.role = .off := by simpa [RolePolicy.allows] using hr
  have hs' : s.fam = s.famIn := by simp [State.fam, hr']
  exact .start hi hf hr' (hs' ▸ hs)

theorem emuStop_effect (hi : stops) (s : State) : PortResult starts stops (execEmuStop s) s := by
  unfold execEmuStop
  refine portOp_effect fun hf hr _ _ => ?_
  exact .stop hi hf (by simpa [RolePolicy.allows] using hr)

theorem seqSkipRom_effect (s : State) : PortResult starts stops (execSeqSkipRom s) s := by
  unfold execSeqSkipRom
  exact hostOp_effect fun u => ⟨_, _, _, _, rfl, .says (says_writeByte _) u⟩

theorem seqReadRom_effect (s : State) : PortResult starts stops (execSeqReadRom s) s := by
  unfold execSeqReadRom
  exact hostOp_effect fun u => ⟨_, _, _, _, rfl, .frameReadRom u⟩

theorem seqWriteScratch_effect (a : Half) (din : List Byte) (s : State) : PortResult starts stops (execSeqWriteScratch a din s) s := by
  unfold execSeqWriteScratch
  exact hostOp_effect fun u => ⟨_, _, _, _, rfl, .says (says_writeScratch _ _) u⟩

theorem seqReadScratch_effect (n : Half) (s : State) : PortResult starts stops (execSeqReadScratch n s) s := by
  unfold execSeqReadScratch
  exact hostOp_effect fun u => ⟨_, _, _, _, rfl, .frameReadScratch _ u⟩

theorem seqCopyScratch_effect (t : Micros) (s : State) : PortResult starts stops (execSeqCopyScratch t s) s := by
  unfold execSeqCopyScratch
  exact hostOp_effect fun u => ⟨_, _, _, _, rfl, .plays (plays_copyScratch _) u⟩

theorem seqReadMem_effect (a n : Half) (s : State) : PortResult starts stops (execSeqReadMem a n s) s := by
  unfold execSeqReadMem
  exact hostOp_effect fun u => ⟨_, _, _, _, rfl, .frameReadMem _ _ u⟩

theorem seqWriteMem_effect (t : Micros) (pg : Half) (din : List Byte) (s : State) : PortResult starts stops (execSeqWriteMem t pg din s) s := by
  unfold execSeqWriteMem
  by_cases hc : writeMemContract pg din = true
  · simp only [hc, if_true]
    exact hostOp_effect (sup := true)
      (run := fun u => reply (writeMem u.cmdBytes t pg.toNat din u).1 0 []
        (writeMem u.cmdBytes t pg.toNat din u).2)
      fun u => ⟨_, _, _, _, rfl, .plays (plays_writeMem _ _ _ _) u⟩
  · simp only [hc]
    exact portOp_effect fun hf hr _ _ => .contract hf (notSlave_of_allows hr)

theorem famRead_effect (s : State) : PortResult starts stops (execFamRead s) s := by
  unfold execFamRead
  refine hostOp_effect fun u => ⟨_, _, _, _, rfl, .gate (.reset u) fun v => ?_⟩
  simp only
  split
  · exact ((HostEffect.frameReadRom v).trans (.frameReadMem _ _ _)).trans
      (.mem _ (by rw [frameReadMem_length]; exact memSize_le _) _)
  · exact .frameReadRom v

theorem famReadDs1996_effect (s : State) : PortResult starts stops (execFamReadDs1996 s) s := by
  unfold execFamReadDs1996
  refine hostOp_effect fun u => ⟨_, _, _, _, rfl, .overdriveOff (.gate (.reset u) fun v =>
    .gate ((HostEffect.frameReadRom v).trans (.reset _)) fun x => ?_)⟩
  exact ((HostEffect.frameOverdrive _ x).trans (.frameReadMem _ _ _)).trans
    (.mem _ (by rw [frameReadMem_length]) _)

theorem famWriteCopyDs1992_effect (t : Micros) (s : State) : PortResult starts stops (execFamWriteCopyDs1992 t s) s := by
  unfold execFamWriteCopyDs1992
  exact hostOp_effect fun u => ⟨_, _, _, _, rfl, .plays (plays_writeMem _ _ _ _) u⟩

theorem famWriteCopyDs1996_effect (t : Micros) (s : State) : PortResult starts stops (execFamWriteCopyDs1996 t s) s := by
  unfold execFamWriteCopyDs1996
  exact hostOp_effect fun u => ⟨_, _, _, _, rfl, .overdriveOff (.gate (.reset u) fun v =>
    (HostEffect.frameOverdrive _ v).trans (.plays (plays_writeMem _ _ _ _) _))⟩

theorem famWriteCopyDs1971_effect (t : Micros) (s : State) : PortResult starts stops (execFamWriteCopyDs1971 t s) s := by
  unfold execFamWriteCopyDs1971
  exact hostOp_effect fun u => ⟨_, _, _, _, rfl, .writeCopyDs1971 _ u⟩

theorem famWriteCopyAbsent_effect (t : Micros) (s : State) : PortResult starts stops (execFamWriteCopyAbsent t s) s := by
  unfold execFamWriteCopyAbsent
  exact portOp_effect fun _ _ h _ => absurd h (by simp)

theorem famWriteId_effect (s : State) : PortResult starts stops (execFamWriteId s) s := by
  unfold execFamWriteId
  refine hostOp_effect fun u => ⟨_, _, _, _, rfl, ?_⟩
  unfold writeId
  simp only
  split
  · exact .orElse (.orElse (.plays (plays_writeV1 _) u) fun v => .plays (plays_writeV2 _) v)
      fun v => .plays (plays_writeTm2004 _) v
  · exact .orElse (.orElse (.plays (plays_writeV1 _) u) fun v => .plays (plays_writeV2 _) v)
      fun v => .plays (plays_writeTm2004 _) v
  · exact .plays (plays_writeTm2004 _) u

theorem bwRw1990V1_effect (din : List Byte) (s : State) : PortResult starts stops (execBwRw1990V1 din s) s := by
  unfold execBwRw1990V1
  exact hostOp_effect fun u => ⟨_, _, _, _, rfl, .plays (plays_writeV1 _) u⟩

theorem bwRw1990V2_effect (din : List Byte) (s : State) : PortResult starts stops (execBwRw1990V2 din s) s := by
  unfold execBwRw1990V2
  exact hostOp_effect fun u => ⟨_, _, _, _, rfl, .plays (plays_writeV2 _) u⟩

theorem bwTm2004_effect (din : List Byte) (s : State) : PortResult starts stops (execBwTm2004 din s) s := by
  unfold execBwTm2004
  exact hostOp_effect fun u => ⟨_, _, _, _, rfl, .plays (plays_writeTm2004 _) u⟩

theorem reservedOpsel_effect (op : Byte) (s : State) : PortResult starts stops (execReservedOpsel op s) s := by
  unfold execReservedOpsel
  refine portOp_effect fun _ _ _ _ => ?_
  exact .refused _ (by simp)

/-- Every port operation answers a next state, and does what `PortEffect` says. -/
theorem exec_port {fam : FamSel} {w : PortWord} {i : Instr} (h : decodePort fam w = .ok i) (s : State) :
    PortResult (i = .emuStart) (i = .emuStop) (exec i s) s := by
  unfold decodePort withPayload selectRead selectWriteCopy at h
  split at h
  case h_1 => cases h; exact nop_effect s
  case h_2 => cases h; exact crcClr_effect s
  case h_3 => cases h; exact crcBit_effect _ s
  case h_4 => cases h; exact crcByte_effect _ s
  case h_5 =>
    split at h
    · cases h; exact crcBuf_effect _ s
    · cases h
  case h_6 => cases h; exact crcGet_effect s
  case h_7 => cases h; exact romWr_effect _ _ s
  case h_8 => cases h; exact romRd_effect _ s
  case h_9 => cases h; exact romValid_effect s
  case h_10 => cases h; exact romApply_effect _ s
  case h_11 => cases h; exact memWr_effect _ _ s
  case h_12 => cases h; exact memRd_effect _ s
  case h_13 => cases h; exact aregsWr_effect _ _ s
  case h_14 => cases h; exact aregsRd_effect _ s
  case h_15 => cases h; exact owReset_effect s
  case h_16 => cases h; exact owWbit_effect _ s
  case h_17 => cases h; exact owRbit_effect s
  case h_18 => cases h; exact owWbyte_effect _ s
  case h_19 => cases h; exact owRbyte_effect s
  case h_20 =>
    split at h
    · cases h; exact owWbytes_effect _ s
    · cases h
  case h_21 => cases h; exact owRbytes_effect _ s
  case h_22 => cases h; exact owSetod_effect _ s
  case h_23 => cases h; exact owDelay_effect _ s
  case h_24 => cases h; exact emuStart_effect rfl s
  case h_25 => cases h; exact emuStop_effect rfl s
  case h_26 => cases h; exact seqSkipRom_effect s
  case h_27 => cases h; exact seqReadRom_effect s
  case h_28 =>
    split at h
    · cases h; exact seqWriteScratch_effect _ _ s
    · cases h
  case h_29 => cases h; exact seqReadScratch_effect _ s
  case h_30 => cases h; exact seqCopyScratch_effect _ s
  case h_31 => cases h; exact seqReadMem_effect _ _ s
  case h_32 =>
    split at h
    · cases h; exact seqWriteMem_effect _ _ _ s
    · cases h
  case h_33 =>
    split at h
    · cases h; exact famReadDs1996_effect s
    · cases h; exact famRead_effect s
  case h_34 =>
    split at h
    · cases h; exact famWriteCopyDs1992_effect _ s
    · cases h; exact famWriteCopyDs1996_effect _ s
    · cases h; exact famWriteCopyDs1971_effect w.t32 s
    · cases h; exact famWriteCopyAbsent_effect w.t32 s
  case h_35 => cases h; exact famWriteId_effect s
  case h_36 =>
    split at h
    · cases h; exact bwRw1990V1_effect _ s
    · cases h
  case h_37 =>
    split at h
    · cases h; exact bwRw1990V2_effect _ s
    · cases h
  case h_38 =>
    split at h
    · cases h; exact bwTm2004_effect _ s
    · cases h
  case h_39 => cases h; exact reservedOpsel_effect w.opsel s

/-! ## The slave-role engine -/

/-- `t` is `s` after something the slave-role engine does: events are added to the wire, each with its
waveform; the framer, the phase, the responder's place, `sl_err`, `sl_rst_short`, `od_slave`,
`cmd_state` and the list of inputs may have new values. -/
def EngineEffect (s t : State) : Prop :=
  ∃ es ls er sh ph f k od cs ins,
    t = { s with
      wire := es ++ s.wire, line := ls ++ s.line, slErr := er, slRstShort := sh, slPhase := ph
      sFramer := f, task := k, odSlave := od, cmdState := cs, inputs := ins } ∧
    es.length = ls.length

theorem EngineEffect.refl (s : State) : EngineEffect s s :=
  ⟨[], [], s.slErr, s.slRstShort, s.slPhase, s.sFramer, s.task, s.odSlave, s.cmdState, s.inputs, rfl, rfl⟩

theorem EngineEffect.trans {s t u : State} (h : EngineEffect s t) (k : EngineEffect t u) :
    EngineEffect s u := by
  obtain ⟨es, ls, _, _, _, _, _, _, _, _, rfl, hl⟩ := h
  obtain ⟨es', ls', er, sh, ph, f, k, od, cs, ins, rfl, hl'⟩ := k
  exact ⟨es' ++ es, ls' ++ ls, er, sh, ph, f, k, od, cs, ins, by simp only [List.append_assoc],
    by simp [hl, hl']⟩

theorem EngineEffect.fam {s t : State} (h : EngineEffect s t) :
    t.role = s.role ∧ t.famHeld = s.famHeld ∧ t.famIn = s.famIn ∧ t.fam = s.fam ∧
    t.stateless = s.stateless ∧ t.stateful = s.stateful := by
  obtain ⟨es, ls, er, sh, ph, f, k, od, cs, ins, rfl, hl⟩ := h
  exact ⟨rfl, rfl, rfl, rfl, rfl, rfl⟩

theorem EngineEffect.wire {s t : State} (h : EngineEffect s t) : ∃ es, t.wire = es ++ s.wire := by
  obtain ⟨es, ls, er, sh, ph, f, k, od, cs, ins, rfl, hl⟩ := h
  exact ⟨es, rfl⟩

/-- On the way from `s` to `t` the engine has taken a bus reset that the reset rule accepted (R221, R222),
and `cmd_state` is `Idle` since. -/
def ResetAccepted (s t : State) : Prop :=
  t.cmdState = .idle ∧ ∃ isShort es fs,
    t.wire = fs ++ .sPresence :: .sReset isShort :: (es ++ s.wire) ∧
    (isShort = true → familyOf s.fam = some .ds1996)

theorem ResetAccepted.before {s u t : State} (h : EngineEffect s u) (k : ResetAccepted u t) :
    ResetAccepted s t := by
  obtain ⟨hc, b, es, fs, hw, hb⟩ := k
  obtain ⟨es', hw'⟩ := h.wire
  exact ⟨hc, b, es ++ es', fs, by rw [hw, hw', List.append_assoc], h.fam.2.2.2.1 ▸ hb⟩

theorem ResetAccepted.later {s u t : State} (h : ResetAccepted s u) (k : EngineEffect u t)
    (hc : t.cmdState = u.cmdState) : ResetAccepted s t := by
  obtain ⟨hi, b, es, fs, hw, hb⟩ := h
  obtain ⟨es', hw'⟩ := k.wire
  exact ⟨hc.trans hi, b, es, es' ++ fs, by rw [hw', hw, List.append_assoc], hb⟩

/-- The ways `cmd_state` may go while the engine runs (R237). -/
def CmdEdge (s t : State) : Prop :=
  t.cmdState = s.cmdState ∨ ResetAccepted s t ∨
    s.stateful = true ∧ (s.cmdState = .idle ∧ t.cmdState = .romCommandAccepted ∨
      s.cmdState = .romCommandAccepted ∧ t.cmdState = .memoryCommandAccepted)

/-- A framer whose timer is at rest has waited for no time. -/
theorem framerWaits {s : State} (hb : s.sFramer.bitcnt.toNat < 8) (ht : s.sFramer.timer = 0) :
    FramerWaits s := ⟨hb, ht ▸ Nat.zero_le _⟩

/-- What the registers of the engine satisfy in a session (R25, R28, R34, R233 to R235). -/
structure EngineInv (s : State) : Prop where
  role : s.role = .slave
  phaseOn : s.slPhase ≠ .off
  noPresence : s.slPhase ≠ .presence
  responder : s.slPhase = .respond ↔ s.task ≠ .none
  overdrive : s.odSlave = true → familyOf s.famHeld = some .ds1996
  statelessIdle : s.stateless = true → s.cmdState = .idle
  framer : FramerWaits s
  range : taskInRange s = true

theorem EngineEffect.emit (e : WireEvent) (w : List LinePiece) (s : State) :
    EngineEffect s (emit e w s) := ⟨[e], [w], _, _, _, _, _, _, _, _, rfl, rfl⟩

/-- Taking a bus reset, R327. -/
theorem takeBusReset_effect (b : Bool) (s : State) :
    EngineEffect s (takeBusReset b s) ∧ ((takeBusReset b s).cmdState = s.cmdState ∨
      ResetAccepted s (takeBusReset b s)) ∧
    (takeBusReset b s).inputs = s.inputs ∧ (takeBusReset b s).task = .none ∧
    (takeBusReset b s).sFramer = {} ∧ ((takeBusReset b s).odSlave = s.odSlave ∨
      (takeBusReset b s).odSlave = false) ∧
    ((takeBusReset b s).slPhase = .recvCmd ∨ (takeBusReset b s).slPhase = .waitReset) := by
  have short : (!b || Config.shortResetAccepted) = true → b = true → familyOf s.fam = some .ds1996 := by
    cases b <;> simp [Config.shortResetAccepted]
  unfold takeBusReset resetRule
  simp only
  split
  · rename_i hf
    exact ⟨⟨[_, _], [_, _], _, _, _, _, _, _, _, _, rfl, rfl⟩, .inr ⟨rfl, b, [], [], rfl, fun _ => hf⟩, rfl, rfl,
      rfl, .inr rfl, .inl rfl⟩
  · split
    · exact ⟨⟨[_, _], [_, _], _, _, _, _, _, _, _, _, rfl, rfl⟩, .inr ⟨rfl, b, [], [], rfl, short ‹_›⟩, rfl, rfl,
        rfl, .inl rfl, .inl rfl⟩
    · exact ⟨⟨[_], [_], _, _, _, _, _, _, _, _, rfl, rfl⟩, .inl rfl, rfl, rfl, rfl, .inl rfl, .inr rfl⟩
  · split
    · exact ⟨⟨[_, _], [_, _], _, _, _, _, _, _, _, _, rfl, rfl⟩, .inr ⟨rfl, b, [], [], rfl, short ‹_›⟩, rfl, rfl,
        rfl, .inl rfl, .inl rfl⟩
    · exact ⟨⟨[_], [_], _, _, _, _, _, _, _, _, rfl, rfl⟩, .inl rfl, rfl, rfl, rfl, .inl rfl, .inr rfl⟩
  · split
    · exact ⟨⟨[_, _], [_, _], _, _, _, _, _, _, _, _, rfl, rfl⟩, .inl rfl, rfl, rfl, rfl, .inl rfl, .inl rfl⟩
    · exact ⟨⟨[_], [_], _, _, _, _, _, _, _, _, rfl, rfl⟩, .inl rfl, rfl, rfl, rfl, .inl rfl, .inr rfl⟩

theorem EngineInv.update {s t : State} (h : EngineInv s) (he : EngineEffect s t)
    (hph : t.slPhase ≠ .off ∧ t.slPhase ≠ .presence) (hr : t.slPhase = .respond ↔ t.task ≠ .none)
    (hod : t.odSlave = s.odSlave ∨ t.odSlave = false)
    (hcs : t.cmdState = s.cmdState ∨ t.cmdState = .idle)
    (hf : FramerWaits t) (hg : taskInRange t = true) :
    EngineInv t := by
  obtain ⟨e1, e2, _, _, e5, _⟩ := he.fam
  refine ⟨e1.trans h.role, hph.1, hph.2, hr, ?_, ?_, hf, hg⟩
  · intro ho
    rw [e2]
    rcases hod with e | e
    · exact h.overdrive (e ▸ ho)
    · rw [e] at ho; cases ho
  · intro hs
    rcases hcs with e | e
    · rw [e]; exact h.statelessIdle (e5 ▸ hs)
    · exact e

/-- What one action of the engine can do: an `EngineEffect` that leaves `cmd_state` or takes an accepted
reset, and keeps the engine's invariant. -/
def EngineStep (s t : State) : Prop :=
  EngineEffect s t ∧ (t.cmdState = s.cmdState ∨ ResetAccepted s t) ∧ (EngineInv s → EngineInv t)

theorem EngineStep.refl (s : State) : EngineStep s s := ⟨.refl s, .inl rfl, id⟩

theorem EngineStep.trans {s t u : State} (h : EngineStep s t) (k : EngineStep t u) : EngineStep s u := by
  refine ⟨h.1.trans k.1, ?_, k.2.2 ∘ h.2.2⟩
  rcases k.2.1 with e | e
  · exact h.2.1.imp e.trans fun e' => e'.later k.1 e
  · exact .inr (e.before h.1)

/-- An engine that goes on after an edge of `cmd_state`. -/
theorem CmdEdge.later {s u t : State} (h : CmdEdge s u) (he : EngineEffect s u) (k : EngineStep u t) :
    CmdEdge s t := by
  rcases k.2.1 with e | e
  · rcases h with h | h | ⟨h1, h2⟩
    · exact .inl (e.trans h)
    · exact .inr (.inl (h.later k.1 e))
    · exact .inr (.inr ⟨h1, e ▸ h2⟩)
  · exact .inr (.inl (e.before he))

/-- An edge of `cmd_state` after something that leaves it. -/
theorem CmdEdge.before {s u t : State} (he : EngineEffect s u) (hc : u.cmdState = s.cmdState)
    (h : CmdEdge u t) : CmdEdge s t := by
  rcases h with h | h | ⟨h1, h2⟩
  · exact .inl (h.trans hc)
  · exact .inr (.inl (h.before he))
  · exact .inr (.inr ⟨he.fam.2.2.2.2.2 ▸ h1, hc ▸ h2⟩)

theorem taskInRange_none {s : State} (h : s.task = .none) : taskInRange s = true := by
  unfold taskInRange; rw [h]

/-- A step of the engine after which no responder runs. -/
theorem EngineStep.idle {s t : State} (he : EngineEffect s t)
    (hph : t.slPhase = .recvCmd ∨ t.slPhase = .waitReset) (ht : t.task = .none) (hf : t.sFramer = {})
    (hod : t.odSlave = s.odSlave ∨ t.odSlave = false)
    (hcs : t.cmdState = s.cmdState ∨ ResetAccepted s t) : EngineStep s t := by
  refine ⟨he, hcs, fun h => h.update he ?_ ?_ hod (hcs.imp_right And.left) ?_ (taskInRange_none ht)⟩
  · rcases hph with e | e <;> rw [e] <;> exact ⟨by simp, by simp⟩
  · rcases hph with e | e <;> rw [e, ht] <;> simp
  · exact framerWaits (by rw [hf]; decide) (by rw [hf])

theorem EngineStep.reset (b : Bool) {s u : State} (h : EngineEffect s u) (ho : u.odSlave = s.odSlave)
    (hc : u.cmdState = s.cmdState) : EngineStep s (takeBusReset b u) := by
  obtain ⟨h1, h2, _, h4, h5, h6, h7⟩ := takeBusReset_effect b u
  exact .idle (h.trans h1) h7 h4 h5 (ho ▸ h6) (h2.imp (·.trans hc) fun e => e.before h)

theorem EngineStep.failed {s u : State} (h : EngineEffect s u) (ho : u.odSlave = s.odSlave)
    (hc : u.cmdState = s.cmdState) : EngineStep s (slaveFailed u) := by
  unfold slaveFailed
  split
  · exact .reset _ h ho hc
  · exact .idle (h.trans ⟨[], [], _, _, _, _, _, _, _, _, rfl, rfl⟩) (.inr rfl) rfl rfl (.inl ho) (.inl hc)

theorem EngineStep.ended (b : Bool) {s u : State} (h : EngineEffect s u) (ho : u.odSlave = s.odSlave)
    (hc : u.cmdState = s.cmdState) : EngineStep s (endCommand b u) := by
  cases b
  · exact .idle (h.trans ⟨[], [], _, _, _, _, _, _, _, _, rfl, rfl⟩) (.inr rfl) rfl rfl (.inl ho) (.inl hc)
  · exact .idle (h.trans ⟨[], [], _, _, _, _, _, _, _, _, rfl, rfl⟩) (.inl rfl) rfl rfl (.inl ho) (.inl hc)

/-- A responder goes on. -/
theorem EngineStep.respond {s t : State} (hs : s.slPhase = .respond) (he : EngineEffect s t)
    (hph : t.slPhase = s.slPhase) (ht : t.task ≠ .none) (hod : t.odSlave = s.odSlave)
    (hcs : t.cmdState = s.cmdState)
    (hf : EngineInv s → FramerWaits t)
    (hg : EngineInv s → taskInRange t = true) : EngineStep s t := by
  refine ⟨he, .inl hcs, fun h => h.update he ?_ ?_ (.inl hod) (.inl hcs) (hf h) (hg h)⟩
  · rw [hph, hs]; exact ⟨by simp, by simp⟩
  · rw [hph, hs]; simp [ht]

theorem bitcnt_next {b : BitVec 4} (h : b.toNat < 8) (h8 : ¬ b + 1 = 8) : (b + 1).toNat < 8 := by
  revert b; decide

theorem EngineStep.sendSlot {s : State} {b : Bool} {a : PeerAction} {k : State → State}
    (h : ∀ u, u = slavePlayed [.sSend b true] { s with slErr := .none } → EngineStep s (k u)) :
    EngineStep s (sendSlot b a k s) := by
  unfold Machine.sendSlot slSendBit
  cases a
  · exact h _ rfl
  · exact EngineStep.failed (u := emit (.sSend b false) [] { s with slErr := .resetInProgress, slRstShort := false })
      ⟨[_], [_], _, _, _, _, _, _, _, _, rfl, rfl⟩ rfl rfl
  · exact EngineStep.failed (u := emit (.sSend b false) [] { s with slErr := .resetInProgress, slRstShort := true })
      ⟨[_], [_], _, _, _, _, _, _, _, _, rfl, rfl⟩ rfl rfl
  · exact EngineStep.failed (u := emit (.sSend b false) [] { s with slErr := .timeout })
      ⟨[_], [_], _, _, _, _, _, _, _, _, rfl, rfl⟩ rfl rfl

theorem EngineStep.receiveSlot {s : State} {a : PeerAction} {k : Bool → State → State}
    (h : ∀ m u, u = slavePlayed [.sRecv m true] { s with slErr := .none } → EngineStep s (k m u)) :
    EngineStep s (receiveSlot a k s) := by
  unfold Machine.receiveSlot slReceiveBit
  cases a
  · exact h _ _ rfl
  · exact EngineStep.failed (u := emit (.sRecv false false) [] { s with slErr := .resetInProgress, slRstShort := false })
      ⟨[_], [_], _, _, _, _, _, _, _, _, rfl, rfl⟩ rfl rfl
  · exact EngineStep.failed (u := emit (.sRecv false false) [] { s with slErr := .resetInProgress, slRstShort := true })
      ⟨[_], [_], _, _, _, _, _, _, _, _, rfl, rfl⟩ rfl rfl
  · exact EngineStep.failed (u := emit (.sRecv false false) [] { s with slErr := .timeout })
      ⟨[_], [_], _, _, _, _, _, _, _, _, rfl, rfl⟩ rfl rfl

theorem EngineStep.slot {s : State} (hs : s.slPhase = .respond) (a : PeerAction) :
    EngineStep s (slaveSlot a s) := by
  unfold slaveSlot
  split
  · exact .idle ⟨[], [], _, _, _, _, _, _, _, _, rfl, rfl⟩ (.inr rfl) rfl rfl (.inl rfl) (.inl rfl)
  · rename_i k part chain ht
    unfold searchSlot
    have hk (h : EngineInv s) : k < 64 := by
      have := h.range; unfold taskInRange at this; rw [ht] at this; simpa using this
    cases part
    · refine .sendSlot fun u hu => ?_
      subst hu
      exact .respond hs ⟨[_], [_], _, _, _, _, _, _, _, _, rfl, rfl⟩ rfl (by simp) rfl rfl
        (fun h => h.framer) fun h => by simp [taskInRange, hk h]
    · refine .sendSlot fun u hu => ?_
      subst hu
      exact .respond hs ⟨[_], [_], _, _, _, _, _, _, _, _, rfl, rfl⟩ rfl (by simp) rfl rfl
        (fun h => h.framer) fun h => by simp [taskInRange, hk h]
    · refine .receiveSlot fun m u hu => ?_
      subst hu
      split
      · exact .respond hs ⟨[_], [_], _, _, _, _, _, _, _, _, rfl, rfl⟩ rfl (by simp) rfl rfl
          (fun h => h.framer) fun h => by simp [taskInRange, *]
      · exact .ended _ ⟨[_], [_], _, _, _, _, _, _, _, _, rfl, rfl⟩ rfl rfl
  · rename_i k chain ht
    unfold sendRomSlot
    have hk (h : EngineInv s) : k < 8 := by
      have := h.range; unfold taskInRange at this; rw [ht] at this; simpa using this
    refine .sendSlot fun u hu => ?_
    subst hu
    simp only
    split
    · split
      · exact .respond hs ⟨[_], [_], _, _, _, _, _, _, _, _, rfl, rfl⟩ rfl (by simp [loadByte]) rfl rfl
          (fun _ => framerWaits (by simp [loadByte]) rfl) fun h => by simp [taskInRange, loadByte, *]
      · exact .ended _ ⟨[_], [_], _, _, _, _, _, _, _, _, rfl, rfl⟩ rfl rfl
    · rename_i h8
      exact .respond hs ⟨[_], [_], _, _, _, _, _, _, _, _, rfl, rfl⟩ rfl (show s.task ≠ .none by simp [ht]) rfl rfl
          (fun h => framerWaits (bitcnt_next h.framer.1 h8) rfl) fun h => h.range
  · rename_i lo ht
    unfold recvAddrSlot
    refine .receiveSlot fun m u hu => ?_
    subst hu
    simp only
    split
    · split
      · exact .respond hs ⟨[_], [_], _, _, _, _, _, _, _, _, rfl, rfl⟩ rfl (by simp) rfl rfl
          (fun _ => framerWaits (by simp) rfl) fun h => by simp [taskInRange]
      · unfold startMemoryStream
        split
        · rename_i hlt
          exact .respond hs ⟨[_], [_], _, _, _, _, _, _, _, _, rfl, rfl⟩ rfl (by simp [loadByte]) rfl rfl
            (fun _ => framerWaits (by simp [loadByte]) rfl) fun h => by
              have e : ∀ u : State, u.role = .slave → u.fam = u.famHeld := fun u hu => by
                simp [State.fam, hu]
              change _ < memSize s.fam at hlt
              rw [e _ h.role] at hlt
              exact decide_eq_true hlt
        · exact .ended _ ⟨[_], [_], _, _, _, _, _, _, _, _, rfl, rfl⟩ rfl rfl
    · rename_i h8
      exact .respond hs ⟨[_], [_], _, _, _, _, _, _, _, _, rfl, rfl⟩ rfl (show s.task ≠ .none by simp [ht]) rfl
        rfl (fun h => framerWaits (bitcnt_next h.framer.1 h8) rfl) fun h => h.range
  · rename_i n ht
    unfold sendMemSlot
    have hn (h : EngineInv s) : n < memSize s.famHeld := by
      have := h.range; unfold taskInRange at this; rw [ht] at this; simpa using this
    refine .sendSlot fun u hu => ?_
    subst hu
    simp only
    split
    · split
      · rename_i hlt
        exact .respond hs ⟨[_], [_], _, _, _, _, _, _, _, _, rfl, rfl⟩ rfl (by simp [loadByte]) rfl rfl
          (fun _ => framerWaits (by simp [loadByte]) rfl) fun h => by
            have e : ∀ u : State, u.role = .slave → u.fam = u.famHeld := fun u hu => by
              simp [State.fam, hu]
            change _ < memSize s.fam at hlt
            rw [e _ h.role] at hlt
            exact decide_eq_true hlt
      · exact .ended _ ⟨[_], [_], _, _, _, _, _, _, _, _, rfl, rfl⟩ rfl rfl
    · rename_i h8
      exact .respond hs ⟨[_], [_], _, _, _, _, _, _, _, _, rfl, rfl⟩ rfl (show s.task ≠ .none by simp [ht]) rfl rfl
          (fun h => framerWaits (bitcnt_next h.framer.1 h8) rfl) fun h => h.range

theorem EngineStep.inputs (ins : List Input) (s : State) : EngineStep s { s with inputs := ins } :=
  ⟨⟨[], [], _, _, _, _, _, _, _, _, rfl, rfl⟩, .inl rfl, fun h =>
    ⟨h.role, h.phaseOn, h.noPresence, h.responder, h.overdrive, h.statelessIdle, h.framer, h.range⟩⟩

/-- Timing the wait for a falling edge, R204. -/
theorem EngineStep.waited (t : BitVec 16) {s : State} (ht : t ≤ (Config.tSlave s.odSlave).waitMax) :
    EngineStep s (waited t s) :=
  ⟨⟨[], [], _, _, _, _, _, _, _, _, rfl, rfl⟩, .inl rfl, fun h =>
    ⟨h.role, h.phaseOn, h.noPresence, h.responder, h.overdrive, h.statelessIdle, ⟨h.framer.1, ht⟩, h.range⟩⟩

/-- A response over the waiting inputs is a step of the engine. -/
theorem EngineStep.run (ins : List Input) (s : State) : EngineStep s (runResponse ins s) := by
  induction ins generalizing s with
  | nil => exact .inputs _ _
  | cons i ins ih =>
    cases i with
    | line p =>
      unfold runResponse
      split
      · rename_i hp
        rcases hear_cases p s with ⟨a, e⟩ | ⟨l, e, hl⟩ <;> rw [e]
        · exact ((EngineStep.waited 0 (Nat.zero_le _)).trans (EngineStep.slot (by exact hp) a)).trans (ih _)
        · exact (EngineStep.waited l hl).trans (ih _)
      · exact .inputs _ _
    | _ => exact .inputs _ _

/-- What a received command finds (R198): the session's registers, no responder yet. -/
structure CommandInv (s : State) : Prop where
  role : s.role = .slave
  overdrive : s.odSlave = true → familyOf s.famHeld = some .ds1996
  statelessIdle : s.stateless = true → s.cmdState = .idle
  framer : FramerWaits s

/-- A command that starts a responder. -/
theorem startResponse_effect {s u : State} {k : SlaveTask} (hk : k ≠ .none) (he : EngineEffect s u)
    (ho : u.odSlave = s.odSlave) (hc : CmdEdge s u)
    (hidle : s.stateless = true → u.cmdState = s.cmdState)
    (hf : CommandInv s → FramerWaits u)
    (hr : CommandInv s → taskInRange { u with task := k } = true) :
    EngineEffect s (startResponse k u) ∧ CmdEdge s (startResponse k u) ∧
    (CommandInv s → EngineInv (startResponse k u)) := by
  have h1 : EngineStep { u with slPhase := .respond, task := k } (startResponse k u) :=
    EngineStep.run u.inputs _
  refine ⟨(he.trans ⟨[], [], _, _, _, _, _, _, _, _, rfl, rfl⟩).trans h1.1, ?_, fun h => h1.2.2 ?_⟩
  · exact CmdEdge.later (u := { u with slPhase := .respond, task := k }) hc
      (he.trans ⟨[], [], _, _, _, _, _, _, _, _, rfl, rfl⟩) h1
  · obtain ⟨e1, e2, _, _, e5, _⟩ := he.fam
    refine ⟨e1.trans h.role, by simp, by simp, by simp [hk], ?_, ?_, hf h, hr h⟩
    · intro h2
      rw [show State.famHeld { u with slPhase := .respond, task := k } = s.famHeld from e2]
      exact h.overdrive (ho ▸ h2)
    · intro h2
      have h3 : s.stateless = true := e5 ▸ h2
      exact (hidle h3).trans (h.statelessIdle h3)

/-- A command that ends at once. -/
theorem endCommand_effect {s u : State} (b : Bool) (he : EngineEffect s u)
    (hc : CmdEdge s u)
    (ho : u.odSlave = true → s.odSlave = true ∨ familyOf s.famHeld = some .ds1996)
    (hidle : s.stateless = true → u.cmdState = s.cmdState) :
    EngineEffect s (endCommand b u) ∧ CmdEdge s (endCommand b u) ∧
    (CommandInv s → EngineInv (endCommand b u)) := by
  have h1 : EngineEffect u (endCommand b u) ∧ (endCommand b u).cmdState = u.cmdState ∧
      (endCommand b u).odSlave = u.odSlave ∧ (endCommand b u).task = .none ∧
      (endCommand b u).sFramer = {} ∧
      ((endCommand b u).slPhase = .recvCmd ∨ (endCommand b u).slPhase = .waitReset) := by
    cases b
    · exact ⟨⟨[], [], _, _, _, _, _, _, _, _, rfl, rfl⟩, rfl, rfl, rfl, rfl, .inr rfl⟩
    · exact ⟨⟨[], [], _, _, _, _, _, _, _, _, rfl, rfl⟩, rfl, rfl, rfl, rfl, .inl rfl⟩
  obtain ⟨h2, h3, h4, h5, h6, h7⟩ := h1
  have he' := he.trans h2
  obtain ⟨e1, e2, _, _, e5, _⟩ := he'.fam
  refine ⟨he', hc.later he (.ended b (.refl u) rfl rfl), fun h => ⟨e1.trans h.role, ?_, ?_, ?_, ?_, ?_, ?_, taskInRange_none h5⟩⟩
  · rcases h7 with e | e <;> rw [e] <;> simp
  · rcases h7 with e | e <;> rw [e] <;> simp
  · rcases h7 with e | e <;> rw [e, h5] <;> simp
  · intro h8
    rw [e2]
    exact (ho (h4 ▸ h8)).elim h.overdrive id
  · intro h8
    have h9 : s.stateless = true := e5 ▸ h8
    rw [h3, hidle h9]
    exact h.statelessIdle h9
  · exact framerWaits (by rw [h6]; decide) (by rw [h6])

theorem not_stateless {s : State} (h : s.stateful = true) : ¬ s.stateless = true := by
  unfold State.stateful State.stateless at *
  split at h <;> simp_all

/-- A command received answers a next state, and does what an engine does. -/
theorem busCommand_effect {ok : Bool} {act : State → State} {s : State}
    (h : ok = true → EngineEffect s (act s) ∧ CmdEdge s (act s) ∧
      (CommandInv s → EngineInv (act s))) :
    ∃ t, busCommand ok act s = .next t ∧ EngineEffect s t ∧ CmdEdge s t ∧
      (CommandInv s → EngineInv t) := by
  unfold busCommand
  split
  · rename_i hr
    exact ⟨s, rfl, .refl s, .inl rfl, fun h => absurd h.role hr⟩
  · split
    · obtain ⟨h1, h2, h3⟩ := h ‹_›
      exact ⟨_, rfl, h1, h2, h3⟩
    · exact ⟨_, rfl, endCommand_effect false (.refl s) (.inl rfl) .inl fun _ => rfl⟩

/-- What `exec_bus` says of a command. -/
abbrev BusEffect (o : Host.Outcome State Fault Refusal) (s : State) : Prop :=
  ∃ t, o = .next t ∧ EngineEffect s t ∧ CmdEdge s t ∧ (CommandInv s → EngineInv t)

theorem searchRom_effect (s : State) : BusEffect (execSearchRom s) s := by
  refine busCommand_effect fun h => ?_
  simp only [Bool.and_eq_true, beq_iff_eq] at h
  exact startResponse_effect (by simp) ⟨[], [], _, _, _, _, _, _, _, _, rfl, rfl⟩ rfl
    (.inr (.inr ⟨h.1, .inl ⟨h.2, rfl⟩⟩)) (fun h2 => absurd h2 (not_stateless h.1)) (fun h => h.framer)
    fun _ => rfl

theorem readMem_effect (s : State) : BusEffect (execReadMem s) s := by
  refine busCommand_effect fun h => ?_
  simp only [Bool.and_eq_true, beq_iff_eq] at h
  exact startResponse_effect (by simp) ⟨[], [], _, _, _, _, _, _, _, _, rfl, rfl⟩ rfl
    (.inr (.inr ⟨h.1, .inr ⟨h.2, rfl⟩⟩)) (fun h2 => absurd h2 (not_stateless h.1))
    (fun _ => framerWaits (by decide : (0 : BitVec 4).toNat < 8) rfl)
    fun _ => rfl

theorem readRom_effect (s : State) : BusEffect (execReadRom s) s := by
  refine busCommand_effect fun h => ?_
  simp only [Bool.and_eq_true, beq_iff_eq] at h
  exact startResponse_effect (by simp) ⟨[], [], _, _, _, _, _, _, _, _, rfl, rfl⟩ rfl
    (.inr (.inr ⟨h.1, .inl ⟨h.2, rfl⟩⟩)) (fun h2 => absurd h2 (not_stateless h.1))
    (fun _ => framerWaits (by decide : (0 : BitVec 4).toNat < 8) rfl) fun _ => rfl

theorem skipRom_effect (s : State) : BusEffect (execSkipRom s) s := by
  refine busCommand_effect fun h => ?_
  simp only [Bool.and_eq_true, beq_iff_eq] at h
  exact endCommand_effect true ⟨[], [], _, _, _, _, _, _, _, _, rfl, rfl⟩
    (.inr (.inr ⟨h.1, .inl ⟨h.2, rfl⟩⟩)) .inl fun h2 => absurd h2 (not_stateless h.1)

theorem overdriveSkipRom_effect (s : State) : BusEffect (execOverdriveSkipRom s) s := by
  by_cases hr : s.role = .slave
  · refine busCommand_effect fun h => ?_
    simp only [Bool.and_eq_true, beq_iff_eq] at h
    have hf : s.fam = s.famHeld := by simp [State.fam, hr]
    refine endCommand_effect true ⟨[], [], _, _, _, _, _, _, _, _, rfl, rfl⟩
      (.inr (.inr ⟨by simp [State.stateful, h.1, hasState], .inl ⟨h.2, rfl⟩⟩)) (fun _ => .inr (hf ▸ h.1)) fun h2 => ?_
    simp [State.stateless, h.1, hasState] at h2
  · refine ⟨s, ?_, .refl s, .inl rfl, fun h => absurd h.role hr⟩
    unfold execOverdriveSkipRom busCommand
    rw [if_pos hr]

theorem searchRomStateless_effect (s : State) : BusEffect (execSearchRomStateless s) s := by
  refine busCommand_effect fun h => ?_
  exact startResponse_effect (by simp) (.refl s) rfl (.inl rfl) (fun _ => rfl) (fun h => h.framer)
    fun _ => rfl

theorem readRomStateless_effect (s : State) : BusEffect (execReadRomStateless s) s := by
  refine busCommand_effect fun h => ?_
  exact startResponse_effect (by simp) ⟨[], [], _, _, _, _, _, _, _, _, rfl, rfl⟩ rfl (.inl rfl)
    (fun _ => rfl) (fun _ => framerWaits (by decide : (0 : BitVec 4).toNat < 8) rfl) fun _ => rfl

theorem refusedCommand_effect (s : State) : BusEffect (busCommand false (fun s => s) s) s :=
  busCommand_effect fun h => by cases h

/-- Every command of the dispatcher answers a next state, and does what an engine does. -/
theorem exec_bus (fam : FamSel) (st : CmdState) (c : Byte) (p : CommandBytes) (s : State) :
    BusEffect (exec (decodeBus fam st c p) s) s := by
  unfold decodeBus decodeStateful decodeStateless
  split
  · split
    · split
      · split
        · exact searchRom_effect s
        · exact readMem_effect s
        · exact refusedCommand_effect s
      · split
        · split
          · exact readRom_effect s
          · exact refusedCommand_effect s
        · split
          · exact skipRom_effect s
          · split
            · exact overdriveSkipRom_effect s
            · exact refusedCommand_effect s
    · split
      · exact searchRomStateless_effect s
      · split
        · exact readRomStateless_effect s
        · exact refusedCommand_effect s
  · exact refusedCommand_effect s

/-- One action of the peer is a step of the engine. -/
theorem slaveStep_effect (a : PeerAction) (s : State) :
    ∃ t, slaveStep a s = .next t ∧ EngineEffect s t ∧ CmdEdge s t ∧
      (EngineInv s → EngineInv t) := by
  have lift : ∀ t, EngineStep s t → EngineEffect s t ∧ CmdEdge s t ∧
      (EngineInv s → EngineInv t) := fun t h => ⟨h.1, h.2.1.imp_right .inl, h.2.2⟩
  have receive : (EngineInv s → s.slPhase = .recvCmd) → ∃ t, (match receiveCommandBit a s with
      | .going t => .next t
      | .command c t => runCode (.bus t.fam t.cmdState c) t) = Host.Outcome.next t ∧
      EngineEffect s t ∧ CmdEdge s t ∧ (EngineInv s → EngineInv t) := by
    intro hp
    unfold receiveCommandBit slReceiveBit
    cases a with
    | slot m =>
      simp only [if_true]
      split
      · rename_i heq
        split at heq
        · cases heq
        · rename_i h8
          cases heq
          exact ⟨_, rfl, ⟨[_], [_], _, _, _, _, _, _, _, _, rfl, rfl⟩, .inl rfl, fun h =>
            h.update ⟨[_], [_], _, _, _, _, _, _, _, _, rfl, rfl⟩ ⟨h.phaseOn, h.noPresence⟩
              h.responder (.inl rfl) (.inl rfl) (framerWaits (bitcnt_next h.framer.1 h8) rfl) h.range⟩
      · rename_i heq
        split at heq
        · cases heq
          obtain ⟨t, e, h1, h2, h3⟩ := exec_bus _ _ _ _ _
          refine ⟨t, e, EngineEffect.trans ⟨[_], [_], _, _, _, _, _, _, _, _, rfl, rfl⟩ h1,
            CmdEdge.before ⟨[_], [_], _, _, _, _, _, _, _, _, rfl, rfl⟩ rfl h2,
            fun h => h3 ⟨h.role, h.overdrive, h.statelessIdle,
              framerWaits (by decide : (0 : BitVec 4).toNat < 8) rfl⟩⟩
        · cases heq
    | resetStd =>
      exact ⟨_, rfl, lift _ (EngineStep.failed
        (u := emit (.sRecv false false) [] { s with slErr := .resetInProgress, slRstShort := false })
        ⟨[_], [_], _, _, _, _, _, _, _, _, rfl, rfl⟩ rfl rfl)⟩
    | resetShort =>
      exact ⟨_, rfl, lift _ (EngineStep.failed
        (u := emit (.sRecv false false) [] { s with slErr := .resetInProgress, slRstShort := true })
        ⟨[_], [_], _, _, _, _, _, _, _, _, rfl, rfl⟩ rfl rfl)⟩
    | silence =>
      exact ⟨_, rfl, lift _ (EngineStep.failed
        (u := emit (.sRecv false false) [] { s with slErr := .timeout })
        ⟨[_], [_], _, _, _, _, _, _, _, _, rfl, rfl⟩ rfl rfl)⟩
  have wait : EngineStep s (waitResetAction a s) := by
    unfold waitResetAction
    cases a
    · exact .refl s
    · exact .reset _ (.refl s) rfl rfl
    · exact .reset _ (.refl s) rfl rfl
    · exact .refl s
  unfold slaveStep
  split
  · exact ⟨_, rfl, lift _ wait⟩
  · exact ⟨_, rfl, lift _ wait⟩
  · rename_i hp
    exact receive fun h => absurd hp h.noPresence
  · rename_i hp
    exact receive fun _ => hp
  · rename_i hp
    exact ⟨_, rfl, lift _ ((EngineStep.slot hp a).trans (.run _ _))⟩

/-- What the peer does on the line is a step of the engine. -/
theorem lineStep_effect (p : PeerInput) (s : State) :
    ∃ t, lineStep p s = .next t ∧ EngineEffect s t ∧ CmdEdge s t ∧
      (EngineInv s → EngineInv t) := by
  unfold lineStep
  split
  · rcases hear_cases p s with ⟨a, e⟩ | ⟨l, e, hl⟩ <;> rw [e]
    · have hw : EngineStep s (waited 0 s) := .waited 0 (Nat.zero_le _)
      obtain ⟨t, h, h1, h2, h3⟩ := slaveStep_effect a (waited 0 s)
      exact ⟨t, h, hw.1.trans h1, h2.before hw.1 rfl, h3 ∘ hw.2.2⟩
    · have hw : EngineStep s (waited l s) := .waited l hl
      exact ⟨_, rfl, hw.1, .inl rfl, hw.2.2⟩
  · exact ⟨_, rfl, .refl s, .inl rfl, id⟩

/-! ## Host sub-steps -/

/-- What a command that the sequencer sends can do: a `HostEffect`, after which the rest of the sequence
may be dropped; outside role `Host` nothing. -/
abbrev SubStepEffect (o : Host.Outcome State Fault Refusal) (s : State) : Prop :=
  ∃ t q, o = .next { t with qStep := q } ∧ HostEffect s t ∧ (s.role ≠ .host → t = s ∧ q = s.qStep)

theorem HostEffect.answer (d : List Byte) (s : State) : HostEffect s { s with dout := d } :=
  ⟨[], [], _, _, _, _, _, _, _, _, _, _, _, d, rfl, rfl, id, id⟩

theorem HostEffect.finalization (s : State) : HostEffect s (frameDs1971Finalization s) := by
  unfold frameDs1971Finalization
  exact (HostEffect.says (says_writeByte 0xA5) s).trans (.says (says_delay _) _)

theorem hostCommand_effect {f : State → Bool × State} (hf : ∀ u, HostEffect u (f u).2) (s : State) :
    SubStepEffect (hostCommand f s) s := by
  unfold hostCommand
  split
  · exact ⟨s, s.qStep, rfl, .refl s, fun _ => ⟨rfl, rfl⟩⟩
  · rename_i hr
    simp only
    split
    · exact ⟨(f s).2, (f s).2.qStep, rfl, hf s, fun h => absurd h hr⟩
    · exact ⟨(f s).2, [], rfl, hf s, fun h => absurd h hr⟩

theorem hostReadRom_effect (s : State) : SubStepEffect (execHostReadRom s) s := by
  unfold execHostReadRom
  refine hostCommand_effect (fun u => ?_) s
  exact .frameReadRom u

theorem hostWriteScratch_effect (a : Half) (d : List Byte) (s : State) : SubStepEffect (execHostWriteScratch a d s) s := by
  unfold execHostWriteScratch
  refine hostCommand_effect (fun u => ?_) s
  exact .says (says_writeScratch _ _) u

theorem hostReadScratch_effect (n : Half) (s : State) : SubStepEffect (execHostReadScratch n s) s := by
  unfold execHostReadScratch
  refine hostCommand_effect (fun u => ?_) s
  exact (HostEffect.frameReadScratch _ u).trans (.answer _ _)

theorem hostCopyScratch_effect (t : Micros) (s : State) : SubStepEffect (execHostCopyScratch t s) s := by
  unfold execHostCopyScratch
  refine hostCommand_effect (fun u => ?_) s
  exact .plays (plays_copyScratch _) u

theorem hostReadMem_effect (a n : Half) (s : State) : SubStepEffect (execHostReadMem a n s) s := by
  unfold execHostReadMem
  refine hostCommand_effect (fun u => ?_) s
  exact (HostEffect.frameReadMem _ _ u).trans (.answer _ _)

theorem hostSkipRom_effect (s : State) : SubStepEffect (execHostSkipRom s) s := by
  unfold execHostSkipRom
  refine hostCommand_effect (fun u => ?_) s
  exact .says (says_writeByte _) u

theorem hostOverdriveSkipRom_effect (s : State) : SubStepEffect (execHostOverdriveSkipRom s) s := by
  unfold execHostOverdriveSkipRom
  refine hostCommand_effect (fun u => ?_) s
  exact .frameOverdrive _ u

theorem hostDs1971Finalization_effect (s : State) : SubStepEffect (execHostDs1971Finalization s) s := by
  unfold execHostDs1971Finalization
  refine hostCommand_effect (fun u => ?_) s
  exact .finalization u

theorem hostRw1990V1UnlockLock_effect (b : Bool) (s : State) : SubStepEffect (execHostRw1990V1UnlockLock b s) s := by
  unfold execHostRw1990V1UnlockLock
  refine hostCommand_effect (fun u => ?_) s
  cases b
  · exact .says (says_rwUnlock 0xD1 false) u
  · exact .says (says_rwLock 0xD1 true) u

theorem hostRw1990WriteCommand_effect (d : List Byte) (s : State) : SubStepEffect (execHostRw1990WriteCommand d s) s := by
  unfold execHostRw1990WriteCommand
  refine hostCommand_effect (fun u => ?_) s
  exact .says (says_rwWrite _) u

theorem hostRw1990V2UnlockLock_effect (b : Bool) (s : State) : SubStepEffect (execHostRw1990V2UnlockLock b s) s := by
  unfold execHostRw1990V2UnlockLock
  refine hostCommand_effect (fun u => ?_) s
  cases b
  · exact .says (says_rwLock 0x1D false) u
  · exact .says (says_rwUnlock 0x1D true) u

theorem hostRw1990V2Unused_effect (s : State) : SubStepEffect (execHostRw1990V2Unused s) s := by
  unfold execHostRw1990V2Unused
  refine hostCommand_effect (fun u => ?_) s
  exact .refl u

theorem hostTm2004Write_effect (d : List Byte) (s : State) : SubStepEffect (execHostTm2004Write d s) s := by
  unfold execHostTm2004Write
  refine hostCommand_effect (fun u => ?_) s
  exact .plays (plays_tm2004 _) u

/-- Every command that the sequencer sends answers a next state. -/
theorem exec_host {f : HostFrame} {p : CommandBytes} {i : Instr} (h : decodeHost f p = .ok i) (s : State) :
    SubStepEffect (exec i s) s := by
  unfold decodeHost at h
  split at h
  · split at h
    · cases h; exact hostReadRom_effect s
    split at h
    · cases h; exact hostWriteScratch_effect _ _ s
    split at h
    · cases h; exact hostReadScratch_effect _ s
    split at h
    · cases h; exact hostCopyScratch_effect _ s
    split at h
    · cases h; exact hostReadMem_effect _ _ s
    split at h
    · cases h; exact hostDs1971Finalization_effect s
    · cases h
  · split at h
    · cases h; exact hostSkipRom_effect s
    split at h
    · cases h; exact hostOverdriveSkipRom_effect s
    · cases h
  · split at h
    · cases h; exact hostRw1990V1UnlockLock_effect _ s
    split at h
    · cases h; exact hostRw1990WriteCommand_effect _ s
    split at h
    · cases h; exact hostRw1990V2UnlockLock_effect _ s
    split at h
    · cases h; exact hostRw1990V2Unused_effect s
    split at h
    · cases h; exact hostTm2004Write_effect _ s
    · cases h

/-! ## The step -/

/-- What a step can do: everything, said once. -/
inductive StepEffect (s : State) : State → Prop where
  /-- Nothing is waiting. -/
  | idle (hq : s.qStep = []) : StepEffect s s
  /-- A sub-step of the running host sequence. -/
  | subStep (u : State) (q : List HostFrame) (hq : s.qStep ≠ []) (hu : HostEffect s u)
      (hr : s.role ≠ .host → u = s) : StepEffect s (closeSequence { u with qStep := q })
  /-- A port operation. -/
  | port (w : PortWord) (rest : List Input) (i : Instr) (t : State) (hq : s.qStep = [])
      (hp : s.inputs = .port w :: rest) (hd : decodePort s.fam w = .ok i)
      (h : PortEffect (i = .emuStart) (i = .emuStop) { s with inputs := rest } t) : StepEffect s t
  /-- What the peer does on the line. -/
  | line (t : State) (hq : s.qStep = []) (he : EngineEffect s t) (hc : CmdEdge s t)
      (hi : EngineInv s → EngineInv t) (ho : s.role ≠ .slave → ∃ rest, t = { s with inputs := rest }) :
      StepEffect s t
  /-- A change of the `fam` input. -/
  | fam (rest : List Input) (sel : FamSel) (hq : s.qStep = []) :
      StepEffect s { s with inputs := rest, famIn := sel }
  /-- A hardware reset. -/
  | reset (rest : List Input) (hq : s.qStep = []) : StepEffect s (hardwareReset { s with inputs := rest })
  /-- A hardware reset in the middle of a port operation. -/
  | cut (rest : List Input) (events pieces : Nat) (i : Instr) (t : State) (hq : s.qStep = [])
      (h : PortEffect (i = .emuStart) (i = .emuStop) { s with inputs := rest } t) :
      StepEffect s (cutByReset events pieces { s with inputs := rest } t)

theorem step_effect {s t : State} (h : step s = .next t) : StepEffect s t := by
  unfold step at h
  split at h
  · rename_i f fs hq
    unfold runCode at h
    split at h
    · rename_i i hd
      obtain ⟨u, q, e, hu, hr⟩ := exec_host (f := f) hd { s with qStep := fs }
      rw [e] at h
      simp only [mapNext] at h
      cases h
      obtain ⟨es, ls, o, f, p, i, e', m, pr, rom, ar, od, mem, d, rfl, hl, hi, hm⟩ := hu
      have := StepEffect.subStep (s := s) { s with
          wire := es ++ s.wire, line := ls ++ s.line, oracle := o, hFramer := f, qPage := p, qIdx := i
          qElapsed := e', qMismatch := m, presence := pr, rom := rom, aregs := ar, odHost := od
          mem := mem, dout := d } q (by rw [hq]; simp)
        ⟨es, ls, o, f, p, i, e', m, pr, rom, ar, od, mem, d, rfl, hl, hi, hm⟩ (fun hn => by
          exact congrArg (fun x : State => { x with qStep := s.qStep }) (hr hn).1)
      exact this
    · cases h
    · cases h
  · rename_i hq
    split at h
    · cases h; exact .idle hq
    · rename_i w rest hp
      unfold runCode at h
      split at h
      · rename_i i hd
        obtain ⟨u, e, hu⟩ := exec_port (fam := s.fam) (w := w) hd { s with inputs := rest }
        rw [e] at h; cases h
        exact .port w rest i _ hq hp hd hu
      · cases h
      · cases h
    · rename_i p rest _
      obtain ⟨u, e, h1, h2, h3⟩ := lineStep_effect p { s with inputs := rest }
      have h4 : s.role ≠ .slave → lineStep p { s with inputs := rest } = .next { s with inputs := rest } :=
        fun hn => if_neg hn
      have e' := e
      rw [h] at e; cases e
      exact .line t hq (EngineEffect.trans ⟨[], [], _, _, _, _, _, _, _, _, rfl, rfl⟩ h1) h2
        (fun hi => h3 ((EngineStep.inputs rest s).2.2 hi)) fun hn => ⟨rest, by
          rw [h4 hn] at h; cases h; rfl⟩
    · cases h; exact .fam _ _ hq
    · cases h; exact .reset _ hq
    · rename_i w events pieces rest _
      simp only at h
      unfold runCode at h
      split at h
      · rename_i i hd
        obtain ⟨u, e, hu⟩ := exec_port (fam := s.fam) (w := w) hd { s with inputs := rest }
        rw [e] at h
        simp only [mapNext] at h
        cases h
        exact .cut rest events pieces i u hq hu
      · cases h
      · cases h

end Sys2Proof.Machine
end

