-- ==== Sys2Proof/Tests/Slice0.lean ====
section
/-! SUPPORT. Tests. The expected values are the spec's: spec/95_test_vectors.md (section numbers in the
comments), the encoding tables R92, R96 and R97, and R42. The second half shows, for every obligation
that has hypotheses, states and operands that meet them. -/

namespace Sys2Proof.Machine

set_option maxRecDepth 20000

/-! ## Helpers -/

/-- The block after reset with this family selected. -/
def withFam (f : FamSel) : State := { State.reset with famIn := f }

/-- A session of this family that waits for a command byte. -/
def session (f : FamSel) (c : CmdState) : State :=
  { State.reset with
    role := .slave, emuInstalled := true, famIn := f, famHeld := f, cmdState := c, slPhase := .recvCmd }

/-- The block with the sample record of 95 section 1.1. -/
def withSample (f : FamSel) : State :=
  { withFam f with rom := #v[0x01, 0xBE, 0x40, 0x11, 0x5A, 0x36, 0x00, 0xE1] }

/-- Something of the next state. -/
def after {α : Type} (f : State → α) : Host.Outcome State Fault Refusal → Option α
  | .next t => some (f t)
  | .fault _ => none
  | .refused _ => none

/-- The response of an operation: `status`, `ok`, `rdata`. -/
def response (o : Host.Outcome State Fault Refusal) : Option (Status × Bool × Byte) :=
  after (fun t => (t.status, t.ok, t.rdata)) o

/-- The wire events, oldest first. -/
def events (o : Host.Outcome State Fault Refusal) : Option (List WireEvent) :=
  after (fun t => t.wire.reverse) o

/-! ## WellFormed -/

theorem test_payload_too_long :
    (Instr.crcBuf (List.replicate 65536 0)).check = some .payloadTooLong ∧
    (Instr.crcBuf (List.replicate 65535 0)).check = none := by
  simp only [Instr.check, checkPayload, List.length_replicate]; decide

theorem test_select_assigned :
    (Instr.reservedOpsel 0x3A).check = some .selectAssigned ∧ (Instr.reservedOpsel 0x3B).check = none := by
  decide

theorem test_byte_recognised :
    (Instr.unrecognisedStateful 0xCC).check = some .byteRecognised ∧
    (Instr.unrecognisedStateful 0x3C).check = none ∧
    (Instr.anyOtherStateless 0x33).check = some .byteRecognised ∧
    (Instr.anyOtherStateless 0xCC).check = none := by decide

/-! ## Decoding: every constructor from a code written out from R92, R96, R97 -/

theorem test_decode_crc :
    decode (.port 0 { opsel := 0x00 }) = .ok .nop ∧
    decode (.port 0 { opsel := 0x01 }) = .ok .crcClr ∧
    decode (.port 0 { opsel := 0x02, d8 := 0xFE }) = .ok (.crcBit false) ∧
    decode (.port 0 { opsel := 0x03, d8 := 0x5E }) = .ok (.crcByte 0x5E) ∧
    decode (.port 0 { opsel := 0x04, len := 1, din := [0x31] }) = .ok (.crcBuf [0x31]) ∧
    decode (.port 0 { opsel := 0x05 }) = .ok .crcGet ∧
    decode (.port 0 { opsel := 0x0A }) = .ok .romValid ∧
    decode (.port 0 { opsel := 0x0B, d8 := 0x14 }) = .ok (.romApply 0x14) := by decide

theorem test_decode_storage :
    decode (.port 0 { opsel := 0x08, a16 := 0x0100, d8 := 0xAA }) = .ok (.romWr 0x0100 0xAA) ∧
    decode (.port 0 { opsel := 0x09, a16 := 7 }) = .ok (.romRd 7) ∧
    decode (.port 0 { opsel := 0x0C, a16 := 0x1FFF, d8 := 1 }) = .ok (.memWr 0x1FFF 1) ∧
    decode (.port 0 { opsel := 0x0D, a16 := 0x007F }) = .ok (.memRd 0x7F) ∧
    decode (.port 0 { opsel := 0x0E, a16 := 2, d8 := 0x80 }) = .ok (.aregsWr 2 0x80) ∧
    decode (.port 0 { opsel := 0x0F, a16 := 2 }) = .ok (.aregsRd 2) := by decide

theorem test_decode_hostFraming :
    decode (.port 0 { opsel := 0x10 }) = .ok .owReset ∧
    decode (.port 0 { opsel := 0x11, d8 := 1 }) = .ok (.owWbit true) ∧
    decode (.port 0 { opsel := 0x12 }) = .ok .owRbit ∧
    decode (.port 0 { opsel := 0x13, d8 := 0x33 }) = .ok (.owWbyte 0x33) ∧
    decode (.port 0 { opsel := 0x14 }) = .ok .owRbyte ∧
    decode (.port 0 { opsel := 0x15, len := 2, din := [0x0F, 0x20] }) = .ok (.owWbytes [0x0F, 0x20]) ∧
    decode (.port 0 { opsel := 0x16, len := 3 }) = .ok (.owRbytes 3) ∧
    decode (.port 0 { opsel := 0x17, d8 := 0xFE }) = .ok (.owSetod false) ∧
    decode (.port 0 { opsel := 0x18, t32 := 600 }) = .ok (.owDelay 600) ∧
    decode (.port 0 { opsel := 0x20 }) = .ok .emuStart ∧
    decode (.port 0 { opsel := 0x21 }) = .ok .emuStop := by decide

theorem test_decode_sequencer :
    decode (.port 0 { opsel := 0x30 }) = .ok .seqSkipRom ∧
    decode (.port 0 { opsel := 0x31 }) = .ok .seqReadRom ∧
    decode (.port 0 { opsel := 0x32, a16 := 0x0120, len := 2, din := [0xAB, 0xCD] }) =
      .ok (.seqWriteScratch 0x0120 [0xAB, 0xCD]) ∧
    decode (.port 0 { opsel := 0x33, len := 2 }) = .ok (.seqReadScratch 2) ∧
    decode (.port 0 { opsel := 0x34, t32 := 1000 }) = .ok (.seqCopyScratch 1000) ∧
    decode (.port 0 { opsel := 0x35, a16 := 0x0010, len := 3 }) = .ok (.seqReadMem 0x10 3) ∧
    decode (.port 0 { opsel := 0x36, t32 := 1000, pg := 4, len := 0 }) = .ok (.seqWriteMem 1000 4 []) ∧
    decode (.port 3 { opsel := 0x38 }) = .ok .famRead ∧
    decode (.port 4 { opsel := 0x38 }) = .ok .famReadDs1996 ∧
    decode (.port 3 { opsel := 0x39, t32 := 9 }) = .ok (.famWriteCopyDs1992 9) ∧
    decode (.port 4 { opsel := 0x39, t32 := 9 }) = .ok (.famWriteCopyDs1996 9) ∧
    decode (.port 2 { opsel := 0x39, t32 := 9 }) = .ok (.famWriteCopyDs1971 9) ∧
    decode (.port 7 { opsel := 0x39, t32 := 9 }) = .ok (.famWriteCopyAbsent 9) ∧
    decode (.port 1 { opsel := 0x3A }) = .ok .famWriteId ∧
    decode (.port 1 { opsel := 0x3C, len := 1, din := [1] }) = .ok (.bwRw1990V1 [1]) ∧
    decode (.port 1 { opsel := 0x3D, len := 1, din := [1] }) = .ok (.bwRw1990V2 [1]) ∧
    decode (.port 1 { opsel := 0x3E, len := 1, din := [1] }) = .ok (.bwTm2004 [1]) ∧
    decode (.port 1 { opsel := 0x3B }) = .ok (.reservedOpsel 0x3B) ∧
    decode (.port 1 { opsel := 0x04, len := 2, din := [1] }) = .error .payloadLength := by decide

theorem test_decode_received :
    decode (.bus 3 .idle 0xF0) = .ok .searchRom ∧
    decode (.bus 3 .romCommandAccepted 0xF0) = .ok .readMem ∧
    decode (.bus 3 .memoryCommandAccepted 0xF0) = .ok .searchRomRefused ∧
    decode (.bus 2 .idle 0x33) = .ok .readRom ∧
    decode (.bus 2 .romCommandAccepted 0x33) = .ok .readRomRefused ∧
    decode (.bus 3 .idle 0xCC) = .ok .skipRom ∧
    decode (.bus 4 .idle 0x3C) = .ok .overdriveSkipRom ∧
    decode (.bus 3 .idle 0x55) = .ok (.unrecognisedStateful 0x55) ∧
    decode (.bus 1 .idle 0xF0) = .ok .searchRomStateless ∧
    decode (.bus 5 .idle 0x33) = .ok .readRomStateless ∧
    decode (.bus 0 .idle 0xCC) = .ok (.anyOtherStateless 0xCC) := by decide

theorem test_decode_sent :
    decode (.host { cmd := 0x33 }) = .ok .hostReadRom ∧
    decode (.host { cmd := 0x0F, a16 := 0x0120, data := [0xAB] }) = .ok (.hostWriteScratch 0x0120 [0xAB]) ∧
    decode (.host { cmd := 0xAA, len := 4 }) = .ok (.hostReadScratch 4) ∧
    decode (.host { cmd := 0x55, t32 := 1000 }) = .ok (.hostCopyScratch 1000) ∧
    decode (.host { cmd := 0xF0, a16 := 0x10, len := 3 }) = .ok (.hostReadMem 0x10 3) ∧
    decode (.host { cmd := 0xCC, group := .select }) = .ok .hostSkipRom ∧
    decode (.host { cmd := 0x3C, group := .select }) = .ok .hostOverdriveSkipRom ∧
    decode (.host { cmd := 0xA5 }) = .ok .hostDs1971Finalization ∧
    decode (.host { cmd := 0xD1, group := .blankWriter, bit := true }) = .ok (.hostRw1990V1UnlockLock true) ∧
    decode (.host { cmd := 0xD5, group := .blankWriter, data := [0xFE] }) = .ok (.hostRw1990WriteCommand [0xFE]) ∧
    decode (.host { cmd := 0x1D, group := .blankWriter, bit := true }) = .ok (.hostRw1990V2UnlockLock true) ∧
    decode (.host { cmd := 0x1E, group := .blankWriter }) = .ok .hostRw1990V2Unused ∧
    decode (.host { cmd := 0x3C, group := .blankWriter, data := [0x01] }) = .ok (.hostTm2004Write [0x01]) ∧
    decode (.host { cmd := 0x00 }) = .error .notSent := by decide

/-- R105: the pseudo-operations are lists of port operations. -/
theorem test_expand :
    expand (.memLoad 0x10 [0xAA, 0xBB]) = [.memWr 0x10 0xAA, .memWr 0x11 0xBB] ∧
    expand (.romLoad [0x01]) = [.romWr 0 0x01] ∧
    (expand .romDump).getLast? = some (.romRd 7) := by decide

/-- The byte of every opcode-table row, where the step fetches it, is run and answers a next state. -/
theorem test_table_words_run :
    ([0x00, 0x03, 0x0B, 0x0D, 0x10, 0x15, 0x20, 0x21, 0x30, 0x36, 0x38, 0x3A, 0x3E, 0x07] ++
      [0xF0, 0x33, 0xCC, 0xAA, 0x55, 0xA5, 0xD1, 0xD5, 0x1D, 0x1E] : List Nat).all
      (fun w => (after (fun _ => ()) (step (State.reset.withFetchWord 8 w))).isSome &&
        (decodeTableWord 8 w).isSome) = true := by decide

/-! ## CRC, 95 sections 1.1 to 1.3, 2.1 to 2.3 -/

theorem test_crc_bits :
    crc8Bit 0x00 true = 0x8C ∧ crc8Bit 0x01 true = 0x00 ∧ crc8Bit 0xFF false = 0xF3 ∧
    crc8Bit 0xFF true = 0x7F ∧ crc8Bit 0x80 true = 0xCC := by decide

theorem test_crc_table :
    (List.range 16).map (fun v => crc8Byte 0 (BitVec.ofNat 8 v)) =
      [0x00, 0x5E, 0xBC, 0xE2, 0x61, 0x3F, 0xDD, 0x83, 0xC2, 0x9C, 0x7E, 0x20, 0xA3, 0xFD, 0x1F, 0x41] ∧
    (List.range 16).map (fun v => crc8Byte 0 (BitVec.ofNat 8 (0xF0 + v))) =
      [0x74, 0x2A, 0xC8, 0x96, 0x15, 0x4B, 0xA9, 0xF7, 0xB6, 0xE8, 0x0A, 0x54, 0xD7, 0x89, 0x6B, 0x35] := by
  decide

theorem test_crc_buffers :
    crc8Buf 0 [0x31, 0x32, 0x33, 0x34, 0x35, 0x36, 0x37, 0x38, 0x39] = 0xA1 ∧
    crc8Buf 0 [0x01, 0xBE, 0x40, 0x11, 0x5A, 0x36, 0x00] = 0xE1 ∧
    crc8Buf 0 [0x01, 0xBE, 0x40, 0x11, 0x5A, 0x36, 0x00, 0xE1] = 0x00 ∧
    crc8Buf 0 [0x00, 0x12, 0x34, 0x56, 0x78, 0x9A, 0xBC] = 0x00 := by decide

theorem test_crc_operations :
    after (·.crc) (exec .crcClr { State.reset with crc := 0xA7 }) = some 0x00 ∧
    response (exec (.crcBit false) { State.reset with crc := 0x8C }) = some (.ok, true, 0x46) ∧
    response (exec (.crcByte 0xBE) { State.reset with crc := 0x5E }) = some (.ok, true, 0xE9) ∧
    response (exec (.crcBuf []) { State.reset with crc := 0x99 }) = some (.ok, true, 0x00) ∧
    response (exec .crcGet { State.reset with crc := 0xE1 }) = some (.ok, true, 0xE1) := by decide

theorem test_rom_valid :
    response (exec .romValid (withSample 0)) = some (.ok, true, 0xE1) ∧
    response (exec .romValid (storeRom 3 0x10 (withSample 0))) = some (.ok, false, 0x6E) ∧
    response (exec .romValid (storeRom 7 0xE0 (withSample 0))) = some (.ok, false, 0xE1) := by decide

theorem test_rom_apply :
    after (·.rom.toList) (exec (.romApply 0x08) (withSample 0)) =
      some [0x08, 0xBE, 0x40, 0x11, 0x5A, 0x36, 0x00, 0x2D] ∧
    response (exec (.romApply 0x08) (session 1 .idle)) = some (.errRole, false, 0x00) := by decide

/-! ## Storage, 95 section 2.3 items 11 to 14 -/

theorem test_rom_access :
    response (exec (.romWr 8 0) State.reset) = some (.errRange, false, 0x00) ∧
    response (exec (.romWr 0x0100 0) State.reset) = some (.errRange, false, 0x00) ∧
    response (exec (.romRd 7) (withSample 0)) = some (.ok, true, 0xE1) := by decide

theorem test_mem_range :
    response (exec (.memWr 31 0xAA) (withFam 2)) = some (.ok, true, 0x00) ∧
    response (exec (.memWr 32 0xAA) (withFam 2)) = some (.errRange, false, 0x00) ∧
    response (exec (.memRd 0) (withFam 1)) = some (.errRange, false, 0x00) ∧
    response (exec (.memWr 8191 1) (withFam 4)) = some (.ok, true, 0x00) ∧
    response (exec (.memWr 8192 1) (withFam 4)) = some (.errRange, false, 0x00) := by decide

theorem test_mem_form :
    after (·.mem) (exec (.memWr 5 0xAA) { withFam 3 with mem := [(9, 0x01)] }) =
      some [(5, 0xAA), (9, 0x01)] ∧
    after (·.mem) (exec (.memWr 9 0x00) { withFam 3 with mem := [(9, 0x01)] }) = some [] := by decide

theorem test_aregs :
    response (exec (.aregsRd 2) (storeAreg 2 0x80 State.reset)) = some (.ok, true, 0x80) ∧
    response (exec (.aregsRd 3) State.reset) = some (.errRange, false, 0x00) := by decide

/-! ## Host framer, 95 section 2.4 -/

theorem test_ow_reset :
    response (exec .owReset { State.reset with oracle := [true] }) = some (.ok, true, 0x00) ∧
    response (exec .owReset State.reset) = some (.fail, false, 0x00) ∧
    events (exec .owReset { State.reset with oracle := [true] }) = some [.hReset true] := by decide

theorem test_ow_write :
    events (exec (.owWbyte 0x33) State.reset) = some
      [.hWrite true, .hWrite true, .hWrite false, .hWrite false,
       .hWrite true, .hWrite true, .hWrite false, .hWrite false] ∧
    events (exec (.owWbytes []) State.reset) = some [] := by decide

theorem test_ow_read :
    response (exec .owRbyte { State.reset with
      oracle := [true, false, false, false, false, true, true, true] }) = some (.ok, true, 0xE1) ∧
    response (exec .owRbyte State.reset) = some (.ok, true, 0xFF) ∧
    response (exec .owRbit State.reset) = some (.ok, true, 0x01) ∧
    after (·.dout) (exec (.owRbytes 3) { State.reset with oracle := wireBits [0x00, 0x00, 0x83] }) =
      some [0x00, 0x00, 0x83] := by decide

theorem test_ow_others :
    after (·.odHost) (exec (.owSetod true) State.reset) = some true ∧
    events (exec (.owDelay 600) State.reset) = some [.hDelay 600] ∧
    response (exec (.owWbit true) (session 3 .idle)) = some (.errRole, false, 0x00) := by decide

/-! ## Emulation, 95 sections 2.5, 2.6, 2.9 and programs P3, P5 -/

theorem test_emu_roles :
    after (·.slPhase) (exec .emuStart (withFam 3)) = some .waitReset ∧
    response (exec .emuStart (withFam 7)) = some (.errUnsupported, false, 0x00) ∧
    response (exec .emuStart (session 3 .idle)) = some (.errRole, false, 0x00) ∧
    response (exec .emuStop (withFam 3)) = some (.errRole, false, 0x00) ∧
    after (·.role) (exec .emuStop (session 3 .idle)) = some .off := by decide

theorem test_bus_reset :
    (takeBusReset false (session 3 .memoryCommandAccepted)).cmdState = .idle ∧
    (takeBusReset true (session 3 .romCommandAccepted)).cmdState = .romCommandAccepted ∧
    (takeBusReset true (session 3 .romCommandAccepted)).wire = [.sReset true] ∧
    (takeBusReset true { session 4 .romCommandAccepted with odSlave := true }).odSlave = false ∧
    (takeBusReset false (session 1 .idle)).wire = [.sPresence, .sReset false] := by decide

/-- Section 2.6 items 8 and 9: addresses 0x007F and 0x0080 of a DS1992. -/
theorem test_read_mem :
    after (fun t => (t.wire.reverse, t.cmdState, t.slPhase)) (exec .readMem
      { session 3 .romCommandAccepted with
        mem := [(127, 0x7F)], inputs := slots (wireBits [0x7F, 0x00]) ++ slots (List.replicate 9 true) }) =
      some (receiveEvents (wireBits [0x7F, 0x00]) ++ sendEvents [0x7F], .memoryCommandAccepted,
        .waitReset) ∧
    events (exec .readMem { session 3 .romCommandAccepted with
        inputs := slots (wireBits [0x80, 0x00]) ++ slots (List.replicate 9 true) }) =
      some (receiveEvents (wireBits [0x80, 0x00])) := by decide

/-- Section 2.6 items 3, 4, 5, 6 and 7. -/
theorem test_skip_commands :
    after (fun t => (t.cmdState, t.slPhase)) (exec .skipRom (session 3 .idle)) =
      some (.romCommandAccepted, .recvCmd) ∧
    after (fun t => (t.cmdState, t.slPhase)) (exec .skipRom (session 3 .memoryCommandAccepted)) =
      some (.memoryCommandAccepted, .waitReset) ∧
    after (fun t => (t.odSlave, t.cmdState)) (exec .overdriveSkipRom (session 4 .idle)) =
      some (true, .romCommandAccepted) ∧
    after (fun t => (t.odSlave, t.slPhase)) (exec .overdriveSkipRom (session 4 .romCommandAccepted)) =
      some (false, .waitReset) := by decide

/-- Section 2.6 item 13: the first triplets for `ROM[0]` = 0x08. -/
theorem test_search_answer :
    events (exec .searchRom { storeRom 0 0x08 (session 3 .idle) with
      inputs := slots (List.replicate 12 true) }) = some
      [.sSend false true, .sSend true true, .sRecv true true,
       .sSend false true, .sSend true true, .sRecv true true,
       .sSend false true, .sSend true true, .sRecv true true,
       .sSend true true, .sSend false true, .sRecv true true] := by decide

/-- Section 2.6 item 14 and P5 step 7: a reset, and a silence, in the search answer. -/
theorem test_search_interrupted :
    after (fun t => (t.cmdState, t.slPhase, t.slErr)) (exec .searchRom { session 3 .idle with
      inputs := slots (List.replicate 33 true) ++ [.line (.act .resetStd)] }) =
      some (.idle, .recvCmd, .none) ∧
    after (fun t => (t.slPhase, t.slErr, t.wire.length)) (exec .searchRomStateless { session 1 .idle with
      inputs := slots (List.replicate 15 true) ++ [.line (.act .silence)] }) =
      some (.waitReset, .timeout, 16) := by decide

/-- P5 step 3, the first byte. -/
theorem test_read_rom_answer :
    events (exec .readRomStateless { session 1 .idle with
      rom := #v[0x01, 0xBE, 0x40, 0x11, 0x5A, 0x36, 0x00, 0xE1]
      inputs := slots (List.replicate 16 false) }) = some (sendEvents [0x01, 0xBE]) ∧
    after (·.slPhase) (exec .readRom { session 2 .romCommandAccepted with
      inputs := slots [true] }) = some .waitReset := by decide

/-- P3 step 2: the eighth slot of 0xCC is a command in `Idle`. -/
theorem test_last_command_bit :
    after (fun t => (t.cmdState, t.slPhase)) (step { session 3 .idle with
      sFramer := { sh := 0x98, bitcnt := 7 }, inputs := slots [true] }) =
      some (.romCommandAccepted, .recvCmd) := by decide

/-! ## Host sequences and writers, 95 sections 2.7, 2.8 and programs P2, P4 -/

theorem test_read_rom :
    after (fun t => (t.ok, t.rom.toList)) (exec .seqReadRom { State.reset with
      presence := true, oracle := wireBits [0x01, 0xBE, 0x40, 0x11, 0x5A, 0x36, 0x00, 0xE1] }) =
      some (true, [0x01, 0xBE, 0x40, 0x11, 0x5A, 0x36, 0x00, 0xE1]) ∧
    after (fun t => (t.status, t.rom.toList)) (exec .seqReadRom State.reset) =
      some (.fail, List.replicate 8 0xFF) := by decide

theorem test_scratch :
    events (exec (.seqWriteScratch 0x0120 [0xAB, 0xCD]) State.reset) =
      some (writeEvents [0x0F, 0x20, 0x01, 0xAB, 0xCD]) ∧
    after (fun t => (t.aregs.toList, t.dout)) (exec (.seqReadScratch 2) { State.reset with
      oracle := wireBits [0x20, 0x01, 0x1F, 0xAB, 0xCD] }) =
      some ([0x20, 0x01, 0x1F], [0xAB, 0xCD]) := by decide

theorem test_copy_scratch :
    events (exec (.seqCopyScratch 1000) { State.reset with
      aregs := #v[0x20, 0x01, 0x1F], oracle := [true, true, false] }) =
      some (writeEvents [0x55, 0x20, 0x01, 0x1F] ++
        [.hRead true, .hDelay 50, .hRead true, .hDelay 50, .hRead false]) ∧
    after (fun t => (t.wire.length, t.status)) (exec (.seqCopyScratch 1000) State.reset) =
      some (32 + 40, .fail) := by decide

theorem test_copy_scratch_short :
    after (fun t => (t.wire.length, t.ok)) (exec (.seqCopyScratch 0) State.reset) = some (32, false) ∧
    after (fun t => (t.wire.length, t.ok)) (exec (.seqCopyScratch 12) State.reset) = some (32 + 6, false) ∧
    pollLimit 99 = 20 ∧ pollLimit 119 = 24 := by decide

theorem test_read_mem_host :
    after (fun t => (t.wire.reverse, t.dout, t.mem)) (exec (.seqReadMem 0x10 3) { State.reset with
      oracle := wireBits [0x0A, 0x0B, 0x0C] }) =
      some (writeEvents [0xF0, 0x10, 0x00] ++ readEvents (wireBits [0x0A, 0x0B, 0x0C]),
        [0x0A, 0x0B, 0x0C], []) ∧
    events (exec .seqSkipRom State.reset) = some (writeEvents [0xCC]) := by decide

/-- P4: one page; section 1.5: a size that the page size does not divide. -/
theorem test_write_mem :
    after (fun t => (t.wire.reverse, t.ok, t.aregs.toList)) (exec
      (.seqWriteMem 1000 4 [0xDE, 0xAD, 0xBE, 0xEF]) { State.reset with
        oracle := [true, true] ++ wireBits [0x00, 0x00, 0x03, 0xDE, 0xAD, 0xBE, 0xEF] ++
          [true, true, false, true] ++ wireBits [0x00, 0x00, 0x83, 0x11, 0x22, 0x33, 0x44] }) =
      some ([.hReset true] ++ writeEvents [0xCC, 0x0F, 0x00, 0x00, 0xDE, 0xAD, 0xBE, 0xEF] ++
        [.hReset true] ++ writeEvents [0xCC, 0xAA] ++
        readEvents (wireBits [0x00, 0x00, 0x03, 0xDE, 0xAD, 0xBE, 0xEF]) ++
        [.hReset true] ++ writeEvents [0xCC, 0x55, 0x00, 0x00, 0x03] ++
        [.hRead true, .hDelay 50, .hRead false] ++
        [.hReset true] ++ writeEvents [0xCC, 0xAA] ++
        readEvents (wireBits [0x00, 0x00, 0x83, 0x11, 0x22, 0x33, 0x44]), true, [0x00, 0x00, 0x83]) ∧
    after (fun t => (t.status, t.fault, t.faultCode, t.wire)) (exec
      (.seqWriteMem 1000 4 [0, 1, 2, 3, 4, 5]) State.reset) =
      some (.fault, true, .writeMemSize, []) := by decide

/-- P2, and section 2.7 items 13 and 15. -/
theorem test_fam_read :
    after (fun t => (t.ok, t.rom.toList, t.memAt 127, t.presence)) (exec .famRead { withFam 3 with
      oracle := true :: wireBits ([0x08, 0x11, 0x22, 0x33, 0x44, 0x55, 0x66, 0xB9] ++
        (List.range 128).map (BitVec.ofNat 8)) }) =
      some (true, [0x08, 0x11, 0x22, 0x33, 0x44, 0x55, 0x66, 0xB9], 0x7F, true) ∧
    response (exec .famRead (withFam 6)) = some (.errUnsupported, false, 0x00) ∧
    after (fun t => (t.wire, t.ok, t.odHost)) (exec .famReadDs1996 { withFam 4 with odHost := true }) =
      some ([.hReset false], false, false) := by decide

theorem test_write_copy :
    response (exec (.famWriteCopyAbsent 9) (withFam 1)) = some (.errUnsupported, false, 0x00) ∧
    after (fun t => (t.wire, t.ok)) (exec (.famWriteCopyDs1971 9) (withFam 2)) =
      some ([.hReset false], false) ∧
    after (fun t => (t.wire, t.ok)) (exec (.famWriteCopyDs1992 9) (withFam 3)) =
      some ([.hReset false], false) ∧
    after (fun t => (t.wire, t.ok)) (exec (.famWriteCopyDs1996 9) (withFam 4)) =
      some ([.hReset false], false) := by decide

/-- A frame for section 1.7: skip-ROM, scratchpad write at 0, a read of the scratchpad, the copy command. -/
def sampleFrame : CopyFrame where
  romCommand := [⟨0xCC, by decide⟩]
  romReads := 0
  writeHead := [⟨0x0F, by decide⟩, ⟨0x00, by decide⟩, ⟨0x00, by decide⟩]
  readBackHead := [.reset, .write ⟨0xCC, by decide⟩, .write ⟨0xAA, by decide⟩, .read]
  copyHead := [.reset, .write 0xCC, .write 0x55, .echo 0]
  finalCheck := []

/-- Section 1.7: a payload of 32 zeros. With a byte 0x01 in the read-back the write-copy fails and nothing
follows the read-back; with the zeros read back it goes on to 0xA5 and 250 us. -/
theorem test_ds1971_read_back :
    (let r := writeCopyDs1971 sampleFrame { withFam 2 with
       oracle := [true, true] ++ wireBits (0x07 :: 0x01 :: List.replicate 31 0x00) }
     r.1 = false ∧ r.2.wire = (readEvents (wireBits (0x07 :: 0x01 :: List.replicate 31 0x00))).reverse ++
       (writeEvents [0xCC, 0xAA]).reverse ++ [.hReset true] ++
       (writeEvents ([0xCC, 0x0F, 0x00, 0x00] ++ List.replicate 32 0x00)).reverse ++ [.hReset true]) ∧
    (let r := writeCopyDs1971 sampleFrame { withFam 2 with
       oracle := [true, true] ++ wireBits (0x07 :: List.replicate 32 0x00) ++ [true] }
     r.1 = true ∧ r.2.wire.take 26 =
       .hDelay 250 :: (writeEvents [0x55, 0x07, 0xA5]).reverse ++ [.hWrite true]) := by decide

/-- Section 2.8 items 1, 2, 3 and 4. -/
theorem test_rw1990 :
    (rwWriteByte 0xFE State.reset).wire.reverse = [.hWrite false, .hDelay 5000, .hWrite true, .hDelay 5000,
      .hWrite true, .hDelay 5000, .hWrite true, .hDelay 5000, .hWrite true, .hDelay 5000, .hWrite true,
      .hDelay 5000, .hWrite true, .hDelay 5000, .hWrite true, .hDelay 5000, .hDelay 30000] ∧
    response (exec (.bwRw1990V1 [0x01]) { State.reset with
      oracle := [true, true, true] ++ wireBits [0x01] }) = some (.ok, true, 0x00) ∧
    response (exec (.bwRw1990V1 [0x01]) { State.reset with
      oracle := [true, true, true] ++ wireBits [0xFE] }) = some (.fail, false, 0x00) ∧
    response (exec (.bwRw1990V2 [0x01]) { State.reset with
      oracle := [true, true, true] ++ wireBits [0x01] }) = some (.ok, true, 0x00) := by decide

/-- Section 2.8 items 5, 6 and 8. -/
theorem test_tm2004 :
    events (exec (.bwTm2004 [0x01, 0xBE]) { State.reset with
      oracle := true :: wireBits [0x55, 0x00] }) =
      some ([.hReset true] ++ writeEvents [0x3C, 0x00, 0x00, 0x01] ++ readEvents (wireBits [0x55]) ++
        [.hDelay 600, .hWrite true, .hDelay 50000] ++ readEvents (wireBits [0x00])) ∧
    response (exec (.bwTm2004 [0x01]) { State.reset with
      oracle := true :: wireBits [0x55, 0x01] }) = some (.ok, true, 0x00) ∧
    response (exec .famWriteId (withFam 3)) = some (.errUnsupported, false, 0x00) := by decide

/-- P6: v1 fails, v2 succeeds. -/
theorem test_write_id :
    after (fun t => (t.ok, t.rom.toList)) (exec .famWriteId { withSample 1 with
      oracle := [true, true, true] ++ List.replicate 64 true ++ [true, true, true] ++
        wireBits [0x01, 0xBE, 0x40, 0x11, 0x5A, 0x36, 0x00, 0xE1] }) =
      some (true, [0x01, 0xBE, 0x40, 0x11, 0x5A, 0x36, 0x00, 0xE1]) := by decide

/-- R8 with other values, those of two constants of R97: the dispatcher names 0x55 SKIP_ROM and 0xCC nothing,
the sequencer sends 0x55 for skip-rom and still for COPY_SCRATCH, and 0xA5 switches to overdrive. -/
def otherBytes : CommandBytes := { skipRom := 0x55, overdriveSkipRom := 0xA5 }

theorem test_other_command_bytes :
    decode (.bus 3 .idle 0x55) otherBytes = .ok .skipRom ∧
    decode (.bus 3 .idle 0xCC) otherBytes = .ok (.unrecognisedStateful 0xCC) ∧
    decode (.bus 4 .idle 0xA5) otherBytes = .ok .overdriveSkipRom ∧
    decode (.host { cmd := 0x55, group := .select }) otherBytes = .ok .hostSkipRom ∧
    decode (.host { cmd := 0x55, t32 := 9 }) otherBytes = .ok (.hostCopyScratch 9) ∧
    events (exec .seqSkipRom { State.reset with cmdBytes := otherBytes }) = some (writeEvents [0x55]) ∧
    events (exec .hostOverdriveSkipRom { State.reset with cmdBytes := otherBytes, role := .host }) =
      some (writeEvents [0xA5]) ∧
    after (·.odSlave) (step { session 4 .idle with
      cmdBytes := otherBytes, sFramer := { sh := 0xA5 <<< 1, bitcnt := 7 }, inputs := slots [true] }) =
      some true := by decide

/-! ## Refusals and the fault state, 95 section 2.9 -/

theorem test_refusals :
    response (exec (.romWr 9 0) (session 3 .idle)) = some (.errRole, false, 0x00) ∧
    response (exec (.romRd 0) (session 3 .idle)) = some (.ok, true, 0x00) ∧
    response (exec (.seqWriteMem 1000 4 [0]) (session 3 .idle)) = some (.errRole, false, 0x00) ∧
    response (exec (.memRd 0) (withFam 7)) = some (.errRange, false, 0x00) ∧
    response (exec (.reservedOpsel 0xFF) State.reset) = some (.errIllegalOp, false, 0x00) ∧
    response (exec (.reservedOpsel 0x40) { State.reset with fault := true }) =
      some (.fault, false, 0x00) := by decide

/-- R350: a reset raised two pieces into the waveform of the second slot of `OW.WBYTES`. -/
theorem test_reset_in_the_middle :
    after (fun t => (t.wire, t.line.length, t.role, t.epoch)) (step { State.reset with
      inputs := [.portCut { opsel := 0x15, len := 1, din := [0x01] } 1 2] }) =
      some ([.hWrite true], 2, .off, 1) := by decide

/-! ## Witnesses: what meets the hypotheses of each obligation, clause by clause -/

/-- A session with so much of the peer's doing before it. -/
def hearing (f : FamSel) (c : CmdState) (ins : List Input) : State := { session f c with inputs := ins }

theorem witness_DecodeOfEncode :
    [Instr.nop, .crcBuf [1], .reservedOpsel 0x06, .reservedOpsel 0xFF, .unrecognisedStateful 0x3C,
     .anyOtherStateless 0xCC, .readMem, .hostTm2004Write []].all
      (fun i => i.check == none) = true ∧
    Instr.WellFormed (.unrecognisedStateful 0xCC) { skipRom := 0x55, overdriveSkipRom := 0xA5 } := by decide

theorem witness_ReservedSelects :
    State.reset.fault = false ∧ (session 1 .idle).fault = false ∧
    [0x06, 0x07, 0x19, 0x1F, 0x22, 0x2F, 0x37, 0x3B, 0x3F, 0x40, 0xFF].all (fun op : Byte =>
      decide (decodePort 0 { opsel := op } = .ok (.reservedOpsel op))) = true ∧
    [0x05, 0x08, 0x18, 0x20, 0x21, 0x30, 0x36, 0x38, 0x3A, 0x3C, 0x3E].all (fun op : Byte =>
      decide (decodePort 0 { opsel := op } ≠ .ok (.reservedOpsel op))) = true := by decide

theorem witness_OneByteSeveralMeanings :
    hasState .ds1971 = true ∧ hasState .ds1992 = true ∧ hasState .ds1996 = true := by decide

theorem witness_UnrecognisedBytes : (session 3 .memoryCommandAccepted).role = .slave := by decide

/-- The three clauses of StepRunsDecodedInstruction. -/
theorem witness_StepRunsDecodedInstruction :
    (let s : State := { withFam 3 with inputs := [.port { opsel := 0x0D, a16 := 0x7F }] }
     s.qStep = [] ∧ s.inputs = .port { opsel := 0x0D, a16 := 0x7F } :: [] ∧
       decode (.port s.fam { opsel := 0x0D, a16 := 0x7F }) = .ok (.memRd 0x7F)) ∧
    (let s : State := { hearing 3 .idle (slots [true]) with sFramer := { sh := 0x98, bitcnt := 7 } }
     s.qStep = [] ∧ s.role = .slave ∧ s.slPhase = .recvCmd ∧ s.sFramer.bitcnt = 7 ∧
       s.inputs = .line (.act (.slot true)) :: [] ∧
       decode (.bus s.famHeld s.cmdState (shiftIn true s.sFramer.sh)) s.cmdBytes = .ok .skipRom) ∧
    (let f : HostFrame := { cmd := 0xCC, group := .select }
     let s : State := { State.reset with role := .host, qStep := [f] }
     s.qStep = f :: [] ∧ decode (.host f) s.cmdBytes = .ok .hostSkipRom) := by decide

theorem witness_ResetValues :
    let s := hearing 3 .romCommandAccepted [.rst]
    s.qStep = [] ∧ s.inputs = .rst :: [] := by decide

theorem witness_ResetInTheMiddle :
    let s : State := { withFam 3 with inputs := [.portCut { opsel := 0x10 } 0 2] }
    s.qStep = [] ∧ s.inputs = .portCut { opsel := 0x10 } 0 2 :: [] ∧
    decode (.port s.fam { opsel := 0x10 }) = .ok .owReset ∧
    (after (fun _ => ()) (exec .owReset { s with inputs := [] })).isSome = true ∧
    (after (fun _ => ()) (step { s with inputs := [.rst] })).isSome = true := by decide

theorem witness_InvKeptByStep :
    Inv (hearing 4 .idle (slots [true])) ∧
    (after (fun _ => ()) (step (hearing 4 .idle (slots [true])))).isSome = true := by
  refine ⟨?_, by decide⟩
  constructor <;> decide

/-- Each refusal, none, and the contract violation by a page size of 0 and by one that does not divide. -/
theorem witness_RefusalOrder :
    firstRefusal { opsel := 0xFF } { State.reset with fault := true } = some .fault ∧
    firstRefusal { opsel := 0xFF } (session 3 .idle) = some .errIllegalOp ∧
    firstRefusal { opsel := 0x08, a16 := 9 } (session 3 .idle) = some .errRole ∧
    firstRefusal { opsel := 0x38 } (withFam 6) = some .errUnsupported ∧
    firstRefusal { opsel := 0x08, a16 := 8 } State.reset = some .errRange ∧
    firstRefusal { opsel := 0x08, a16 := 7 } State.reset = none ∧
    (let w : PortWord := { opsel := 0x36, pg := 0 }
     firstRefusal w State.reset = none ∧ w.pg = 0 ∧ decodePort 0 w = .ok (.seqWriteMem 0 0 [])) ∧
    (let w : PortWord := { opsel := 0x36, pg := 2, len := 1, din := [7] }
     firstRefusal w State.reset = none ∧ ¬ w.pg.toNat ∣ w.len.toNat ∧
       decodePort 0 w = .ok (.seqWriteMem 0 2 [7])) ∧
    (let w : PortWord := { opsel := 0x36, pg := 1, len := 1, din := [7] }
     firstRefusal w State.reset = none ∧ ¬ (w.opsel = 0x36 ∧ (w.pg = 0 ∨ ¬ w.pg.toNat ∣ w.len.toNat))) := by
  decide

theorem witness_FaultIsSticky :
    let s : State := { State.reset with
      fault := true, faultCode := .writeMemSize, inputs := [.port { opsel := 0x00 }] }
    s.fault = true ∧ decodePort 0 { opsel := 0x00 } = .ok .nop ∧
    (after (·.status) (step s)) = some .fault := by decide

theorem witness_CrcLinear : ([0x01, 0x80] : List Byte).length = ([0xFF, 0x00] : List Byte).length := by
  decide

theorem witness_CrcRegisterOperations :
    State.reset.fault = false ∧ (session 4 .idle).fault = false ∧
    ({ opsel := 0x04, len := 2, din := [1, 2] } : PortWord).din.length = 2 ∧
    ({ opsel := 0x04 } : PortWord).din.length = ({ opsel := 0x04 } : PortWord).len.toNat := by decide

theorem witness_RomRecordOperations :
    State.reset.fault = false ∧ State.reset.role ≠ .slave ∧
    (session 1 .idle).fault = false ∧ (session 1 .idle).role = .slave := by decide

theorem witness_ApplyThenValid : HostReady (withSample 1) := by decide

theorem witness_SingleBitErrorsAreFound :
    (withSample 1).fault = false ∧ 0 < 64 ∧ 63 < 64 ∧
    crc8Buf 0x00 ((withSample 1).rom.toList.take 7) = (withSample 1).romAt 7 := by decide

/-- The index 7 is inside, 8 and 0x0100 are outside; a session refuses the write. -/
theorem witness_RomAccess :
    State.reset.fault = false ∧ State.reset.role ≠ .slave ∧ (7 : Half).toNat < 8 ∧ 7 < (8 : Half).toNat ∧
    7 < (0x0100 : Half).toNat ∧ (session 1 .idle).fault = false ∧ (session 1 .idle).role = .slave := by
  decide

theorem witness_AregsAccess :
    State.reset.fault = false ∧ State.reset.role ≠ .slave ∧ (2 : Half).toNat < 3 ∧ 2 < (3 : Half).toNat ∧
    (session 1 .idle).role = .slave := by decide

/-- The last address of DS1971 and DS1996, the first beyond, and a family without memory. -/
theorem witness_MemAccess :
    (withFam 2).fault = false ∧ (withFam 2).role ≠ .slave ∧
    (31 : Half).toNat < memSize (withFam 2).fam ∧ memSize (withFam 2).fam ≤ (32 : Half).toNat ∧
    (8191 : Half).toNat < memSize (withFam 4).fam ∧ memSize (withFam 4).fam ≤ (8192 : Half).toNat ∧
    memSize (withFam 1).fam ≤ (0 : Half).toNat ∧ Memory.wf (withFam 2).epoch (withFam 2).mem = true ∧
    (session 3 .idle).role = .slave := by decide

theorem witness_MemoryBytes :
    Memory.wf 0 [(3, 0x07), (8191, 0x01)] = true ∧
    8190 + ([1, 2] : List Byte).length ≤ Config.memArraySize := by decide

theorem witness_OwResetResult :
    State.reset.fault = false ∧ State.reset.role ≠ .slave ∧ (session 1 .idle).fault = false ∧
    (session 1 .idle).role = .slave := by decide

theorem witness_OwWrites :
    HostReady State.reset ∧
    (let w : PortWord := { opsel := 0x15, len := 2, din := [0x0F, 0x20] }
     w.din.length = w.len.toNat) := by decide

theorem witness_OwReads :
    HostReady { State.reset with oracle := wireBits [0x83] } ∧
    ({ opsel := 0x16, len := 1 } : PortWord).len.toNat = 1 := by decide

theorem witness_OwSpeedAndDelay : HostReady { State.reset with odHost := true } := by decide

theorem witness_ByteMachinesDrawTheSlots : 15 < 16 ∧ 0 < 16 ∧ 7 < 8 ∧ 0 < 8 := by decide

/-- A table with the reset bounds 480 and 48 to 80 and the limit 60, and 6 in overdrive: each class at its
bounds. -/
theorem witness_PulseClasses :
    let std : SlaveTiming := { (default : SlaveTiming) with rstlMin := 480, w1lMax := 60 }
    let od : SlaveTiming := { (default : SlaveTiming) with rstlMin := 48, rstlMax := 80, w1lMax := 6 }
    std.rstlMin.toNat ≤ 480 ∧ std.rstlMin.toNat ≤ 65536 ∧ 479 < std.rstlMin.toNat ∧
    48 < std.rstlMin.toNat ∧ od.rstlMin.toNat ≤ 48 ∧ 48 ≤ od.rstlMax.toNat ∧
    od.rstlMin.toNat ≤ 80 ∧ 80 ≤ od.rstlMax.toNat ∧
    47 < od.rstlMin.toNat ∧ od.rstlMax.toNat < 81 ∧ 81 < std.rstlMin.toNat ∧
    5 < od.w1lMax.toNat ∧ ¬ 6 < od.w1lMax.toNat ∧ 59 < std.w1lMax.toNat ∧ ¬ 60 < std.w1lMax.toNat := by
  decide

theorem witness_SessionStartAndStop :
    (withFam 5).fault = false ∧ (withFam 5).role = .off ∧ (withFam 5).famIn.toNat ≤ 5 ∧
    5 < (withFam 6).famIn.toNat ∧ (withFam 6).role = .off ∧ (session 5 .idle).role ≠ .off ∧
    (session 5 .idle).role = .slave ∧ (withFam 5).role ≠ .slave := by decide

theorem witness_FamHeldInSession :
    (hearing 3 .idle [.fam 1]).qStep = [] ∧ (hearing 3 .idle [.fam 1]).inputs = .fam 1 :: [] ∧
    (hearing 3 .idle [.fam 1]).role = .slave ∧
    (let s : State := { withFam 3 with inputs := [.fam 1] }
     s.qStep = [] ∧ s.inputs = .fam 1 :: [] ∧ s.role ≠ .slave) ∧
    after (fun t => (t.role, t.famHeld)) (step (hearing 3 .idle [.fam 1])) = some (.slave, 3) ∧
    after (·.role) (step (hearing 3 .idle [.port { opsel := 0x21 }])) = some .off ∧
    after (fun t => (t.role, t.epoch)) (step (hearing 3 .idle [.rst])) = some (.off, 1) := by decide

/-- A wait one longer than a limit of 0xFFFF is a silence, one equal to it is not (R204). -/
theorem test_longest_wait :
    let t : SlaveTiming := { (default : SlaveTiming) with waitMax := 0xFFFF }
    classifyQuiet t 65536 = some .silence ∧ classifyQuiet t 65535 = none := by decide

/-- The line outside a session, each action while the engine waits for a reset, low times at the ends of
their range, a quiet time that is a silence under every table, none that is not, and two in a row. -/
theorem witness_WaitResetAndMeasuredLine :
    (let s : State := { withFam 3 with inputs := [.line (.act .resetStd)] }
     s.qStep = [] ∧ s.role ≠ .slave ∧ s.inputs = .line (.act .resetStd) :: []) ∧
    [PeerAction.slot true, .silence, .resetStd, .resetShort].all (fun a =>
      let s : State := { hearing 3 .idle [.line (.act a)] with slPhase := .waitReset }
      decide (s.qStep = [] ∧ s.role = .slave ∧ s.slPhase = .waitReset ∧
        s.inputs = .line (.act a) :: [])) = true ∧
    [PeerInput.low 0, .low 65536, .quiet 0, .quiet 65536].all (fun p =>
      let s := hearing 3 .idle [.line p]
      decide (s.qStep = [] ∧ s.role = .slave ∧ s.slPhase = .recvCmd ∧ s.inputs = .line p :: [])) = true ∧
    (let s := hearing 3 .idle [.line (.quiet 0), .line (.quiet 65536)]
     let limit := (Config.tSlave s.odSlave).waitMax.toNat
     s.inputs = .line (.quiet 0) :: .line (.quiet 65536) :: [] ∧
     s.sFramer.timer.toNat + 0 ≤ limit ∧ limit < s.sFramer.timer.toNat + 65536) := by
  refine ⟨by decide, by decide, by decide, rfl, Nat.zero_le _, ?_⟩
  exact (Config.tSlave false).waitMax.isLt

theorem witness_BusResetTaken :
    [Family.generic, .ds1990, .ds1971, .ds1992, .ds1996, .ds1420].all (fun f =>
      decide ((session (selOf f) .idle).role = .slave ∧
        familyOf (session (selOf f) .idle).famHeld = some f)) = true := by decide

/-- Each place where a reset or a silence can find the engine. -/
theorem witness_BusResetPreempts :
    [PeerAction.resetStd, .resetShort, .silence].all (fun a =>
      let s := hearing 3 .idle [.line (.act a)]
      decide (s.qStep = [] ∧ s.role = .slave ∧ s.inputs = .line (.act a) :: [] ∧ a ≠ .slot true ∧
        a ≠ .slot false ∧ s.slPhase = .recvCmd)) = true ∧
    [SlaveTask.search 63 .bit true, .search 0 .complement true, .search 10 .choice false, .sendRom 7 true,
     .recvAddr none, .recvAddr (some 1), .sendMem 127].all (fun k =>
      let s : State := { hearing 3 .idle [.line (.act .resetStd)] with slPhase := .respond, task := k }
      decide (s.qStep = [] ∧ s.role = .slave ∧ s.slPhase = .respond ∧ s.task = k)) = true := by decide

/-- A session that answers, this far, and hears a slot, with another slot behind it. -/
def answering (k : SlaveTask) (bits : BitVec 4) : State :=
  { hearing 3 .memoryCommandAccepted (slots [false, true]) with
    slPhase := .respond, task := k, sFramer := { sh := 0xFF, bitcnt := bits } }

/-- Each place of a responder, the first and the last of its bits and bytes; a slot behind, and none. -/
theorem witness_SlaveSlotByStep :
    [(0 : BitVec 4), 6].all (fun n =>
      let s : State := { hearing 3 .idle (slots [false]) with sFramer := { sh := 0xFF, bitcnt := n } }
      decide (s.qStep = [] ∧ s.role = .slave ∧ s.slPhase = .recvCmd ∧
        s.inputs = .line (.act (.slot false)) :: [] ∧ s.sFramer.bitcnt.toNat < 7)) = true ∧
    [SlaveTask.search 0 .bit true, .search 63 .complement true, .search 62 .choice false,
     .search 63 .choice true, .sendRom 6 true, .sendRom 7 true, .recvAddr none, .recvAddr (some 0x7F),
     .sendMem 126, .sendMem 127].all (fun k => [(0 : BitVec 4), 6, 7].all fun n =>
      let s := answering k n
      decide (s.qStep = [] ∧ s.role = .slave ∧ s.slPhase = .respond ∧ s.task = k ∧
        s.sFramer.bitcnt = n ∧ s.inputs = .line (.act (.slot false)) :: slots [true])) = true ∧
    slots [true] = .line (.act (.slot true)) :: [] ∧ (∀ t, (hear (.act (.slot true)) t).1 = some (.slot true)) ∧
    (∀ p more, ([] : List Input) ≠ .line p :: more) := by
  refine ⟨by decide, by decide, rfl, fun _ => rfl, fun _ _ h => by cases h⟩

theorem witness_SearchAnswer :
    (let ms : List (Bool × Bool × Bool) := List.replicate 64 (true, true, false)
     let ins := slots (ms.flatMap fun p => [p.1, p.2.1, p.2.2]) ++ []
     ms.length = 64 ∧ (hearing 3 .idle ins).inputs = ins ∧
     (hearing 3 .idle ins).role = .slave ∧ familyOf (hearing 3 .idle ins).famHeld = some .ds1992 ∧
     (hearing 3 .idle ins).cmdState = .idle ∧ hasState .ds1992 = true ∧
     familyOf (hearing 1 .idle ins).famHeld = some .ds1990 ∧ hasState .ds1990 = false) := by decide

theorem witness_ReadRomAnswer :
    (let ms := List.replicate 64 true
     let ins := slots ms ++ [Input.line (.act .resetStd)]
     ms.length = 64 ∧ (hearing 2 .idle ins).inputs = ins ∧
     (hearing 2 .idle ins).role = .slave ∧ familyOf (hearing 2 .idle ins).famHeld = some .ds1971 ∧
     (hearing 2 .idle ins).cmdState = .idle ∧ hasState .ds1971 = true ∧
     familyOf (hearing 5 .idle ins).famHeld = some .ds1420 ∧ hasState .ds1420 = false) := by decide

/-- Address 0x007F is the last of a DS1992, 0x0080 the first outside. -/
theorem witness_MemoryAnswer :
    (let ms := List.replicate 8 true
     let ins := slots (wireBits [0x7F, 0x00]) ++ (slots ms ++ [])
     let s := hearing 3 .romCommandAccepted ins
     s.role = .slave ∧ familyOf s.famHeld = some .ds1992 ∧ hasState .ds1992 = true ∧
     s.cmdState = .romCommandAccepted ∧ (0x7F : Byte).toNat + 256 * (0x00 : Byte).toNat < 128 ∧
     familyMemSize .ds1992 = 128 ∧ ms.length = 8 * (128 - 127) ∧ s.inputs = ins) ∧
    familyMemSize .ds1992 ≤ (0x80 : Byte).toNat + 256 * (0x00 : Byte).toNat ∧
    (hearing 3 .romCommandAccepted (slots (wireBits [0x80, 0x00]) ++ [])).inputs =
      slots (wireBits [0x80, 0x00]) ++ [] := by decide

theorem witness_SkipCommands :
    (session 3 .idle).role = .slave ∧ familyOf (session 3 .idle).famHeld = some .ds1992 ∧
    hasState .ds1992 = true ∧ familyOf (session 4 .idle).famHeld = some .ds1996 := by decide

/-- For the statements that hold of every step: a step that answers a next state. -/
theorem witness_EveryStep :
    (after (·.cmdState) (step (hearing 3 .idle [.port { opsel := 0x0A }]))) = some .idle ∧
    (hearing 3 .idle [.port { opsel := 0x0A }]).role = .slave := by decide

theorem witness_SequenceFrames :
    HostReady { State.reset with presence := true } ∧
    (let w : PortWord := { opsel := 0x32, a16 := 0x0120, len := 2, din := [0xAB, 0xCD] }
     w.din.length = w.len.toNat) := by decide

theorem witness_CopyScratchResult : HostReady { State.reset with oracle := [true, false] } := by decide

/-- For 1000 us: the zero as answer 19 is in time, as answer 20 it is not; silence never is. -/
theorem witness_PollLoop :
    19 * pollInterval 1000 < (1000 : Micros).toNat ∧ (1000 : Micros).toNat ≤ 20 * pollInterval 1000 ∧
    100 ≤ (1000 : Micros).toNat ∧ 20 ∣ (1000 : Micros).toNat ∧ 100 ≤ (100 : Micros).toNat ∧
    20 ∣ (100 : Micros).toNat := by decide

/-- A page size of 0, one that does not divide, one that does, and an empty payload. -/
theorem witness_WriteMemResult :
    HostReady State.reset ∧
    (let w : PortWord := { opsel := 0x36, pg := 0 }
     w.din.length = w.len.toNat ∧ w.pg = 0) ∧
    (let w : PortWord := { opsel := 0x36, pg := 4, len := 6, din := [0, 1, 2, 3, 4, 5] }
     w.din.length = w.len.toNat ∧ w.len.toNat % w.pg.toNat ≠ 0) ∧
    (let w : PortWord := { opsel := 0x36, pg := 4, len := 4, din := [0, 1, 2, 3] }
     w.din.length = w.len.toNat ∧ w.pg ≠ 0 ∧ w.len.toNat % w.pg.toNat = 0) ∧
    (let w : PortWord := { opsel := 0x36, pg := 4 }
     w.din.length = w.len.toNat ∧ w.pg ≠ 0 ∧ w.len.toNat % w.pg.toNat = 0) := by decide

theorem witness_FamReadResult :
    HostReady (withFam 3) ∧ familyOf (withFam 3).famIn = some .ds1992 ∧ (Family.ds1992 ≠ .ds1996) ∧
    (withFam 3).oracle.headD false = false ∧
    HostReady { withFam 0 with oracle := [true] } ∧
    ({ withFam 0 with oracle := [true] } : State).oracle.headD false = true := by decide

theorem witness_FamReadDs1996Result :
    HostReady { withFam 4 with oracle := [true] } ∧ familyOf (withFam 4).famIn = some .ds1996 ∧
    (withFam 4).oracle.headD false = false ∧
    ({ withFam 4 with oracle := [true] } : State).oracle.headD false = true ∧
    (([true] : List Bool).drop 65).headD false = false ∧
    ((List.replicate 66 true).drop 65).headD false = true := by decide

/-- Two states with different storage and the same key, which is read. -/
theorem witness_FamReadDependsOnPeerOnly :
    let s : State := { withFam 1 with oracle := true :: wireBits [0x01, 0xBE] }
    let u : State := { withSample 1 with oracle := true :: wireBits [0x01, 0xBE], mem := [(0, 0x07)] }
    HostReady s ∧ HostReady u ∧ s.famIn = u.famIn ∧ s.oracle = u.oracle ∧
    Memory.wf s.epoch s.mem = true ∧ Memory.wf u.epoch u.mem = true ∧
    decodePort s.fam { opsel := 0x38 } = .ok .famRead ∧
    after (·.ok) (exec .famRead s) = some true ∧ after (·.ok) (exec .famRead u) = some true := by decide

theorem witness_WriteCopyResult :
    HostReady (withFam 3) ∧ familyOf (withFam 3).famIn = some .ds1992 ∧
    HostReady (withFam 4) ∧ familyOf (withFam 4).famIn = some .ds1996 ∧
    (withFam 4).oracle.headD false = false ∧
    ({ withFam 4 with oracle := [true] } : State).oracle.headD false = true ∧
    [(0 : FamSel), 1, 5, 6, 7].all (fun f => decide (familyOf (withFam f).famIn ∈
      [none, some .generic, some .ds1990, some .ds1420])) = true := by decide

/-- What a peer answers a move so that it succeeds. -/
def answerHead : HeadMove → List Bool
  | .reset => [true]
  | .read => List.replicate 8 true
  | .verify _ v => bitsOf v
  | .write _ | .delay _ => []

/-- Answers that satisfy the moves of a frame on its way to the comparison. -/
theorem playMoves_answered (ms : List HeadMove) (more : List Move) (o : List Bool) (r : List Byte) :
    (playMoves (ms.map headMove ++ more) (ms.flatMap answerHead ++ o) r).ok = (playMoves more o r).ok := by
  induction ms with
  | nil => rfl
  | cons m ms ih =>
    have h : (playMove (headMove m) (answerHead m ++ (ms.flatMap answerHead ++ o)) r).ok = true ∧
        (playMove (headMove m) (answerHead m ++ (ms.flatMap answerHead ++ o)) r).oracle =
          ms.flatMap answerHead ++ o ∧
        (playMove (headMove m) (answerHead m ++ (ms.flatMap answerHead ++ o)) r).regs = r := by
      cases m with
      | verify mask v =>
        refine ⟨?_, rfl, rfl⟩
        show decide (byteOf (nextBits 8 (bitsOf v ++ _)) &&& mask = v &&& mask) = true
        have : byteOf (nextBits 8 (bitsOf v ++ (ms.flatMap answerHead ++ o))) = v := by
          have : nextBits 8 (bitsOf v ++ (ms.flatMap answerHead ++ o)) = bitsOf v := by simp [nextBits, bitsOf]
          rw [this]; exact byteOf_bitsOf v
        rw [this]; simp
      | _ => exact ⟨rfl, rfl, rfl⟩
    rw [List.map_cons, List.flatMap_cons, List.cons_append, List.append_assoc, playMoves]
    simp only [h.1, if_true, h.2.1, h.2.2]
    exact ih


/-- A DS1971 that answers the open frame as it must, with the read-back of zeros or of ones. -/
def ds1971Peer (v : Bool) : State :=
  { State.reset with famIn := 2, oracle := true :: (List.replicate (8 * Config.ds1971CopyFrame.romReads) true ++
    (Config.ds1971CopyFrame.readBackHead.flatMap answerHead ++ List.replicate 256 v)) }

/-- The comparison of `ds1971Peer` comes out equal for zeros and unequal for ones. -/
theorem ds1971Peer_plays (v : Bool) :
    movesOk (ds1971HeadMoves Config.ds1971CopyFrame ((ds1971Peer v).memBytes 0 32)) (ds1971Peer v) = !v := by
  have h := playMoves_answered Config.ds1971CopyFrame.readBackHead [.expect (List.replicate 32 0x00)]
    (List.replicate 256 v) (ds1971Peer v).aregs.toList
  have hd : (List.replicate (8 * Config.ds1971CopyFrame.romReads) true ++
      (Config.ds1971CopyFrame.readBackHead.flatMap answerHead ++ List.replicate 256 v)).drop
      (8 * Config.ds1971CopyFrame.romReads) =
      Config.ds1971CopyFrame.readBackHead.flatMap answerHead ++ List.replicate 256 v :=
    List.drop_left' (by rw [List.length_replicate])
  rw [show (ds1971Peer v).memBytes 0 32 = List.replicate 32 0x00 from rfl]
  unfold movesOk playFrom ds1971HeadMoves
  rw [show (ds1971Peer v).oracle = true :: (List.replicate (8 * Config.ds1971CopyFrame.romReads) true ++
    (Config.ds1971CopyFrame.readBackHead.flatMap answerHead ++ List.replicate 256 v)) from rfl]
  simp only [List.cons_append, List.nil_append, playMoves, playMove, List.headD_cons, List.drop_succ_cons,
    List.drop_zero, if_true]
  rw [hd, h]
  cases v <;> decide

/-- No presence, an equal read-back and an unequal one, whatever the open frame is; and a frame without
delays. -/
theorem witness_Ds1971WriteCopy :
    HostReady (withFam 2) ∧ familyOf (withFam 2).famIn = some .ds1971 ∧
    (withFam 2).oracle.headD false = false ∧
    HostReady (ds1971Peer false) ∧ familyOf (ds1971Peer false).famIn = some .ds1971 ∧
    movesOk (ds1971HeadMoves Config.ds1971CopyFrame ((ds1971Peer false).memBytes 0 32))
      (ds1971Peer false) = true ∧
    HostReady (ds1971Peer true) ∧ familyOf (ds1971Peer true).famIn = some .ds1971 ∧
    movesOk (ds1971HeadMoves Config.ds1971CopyFrame ((ds1971Peer true).memBytes 0 32))
      (ds1971Peer true) = false ∧
    (∀ m ∈ sampleFrame.readBackHead, ∀ us, m ≠ .delay us) ∧
    (∀ m ∈ sampleFrame.copyHead ++ sampleFrame.finalCheck, ∀ us, m ≠ .delay us) := by
  have ready (v : Bool) : HostReady (ds1971Peer v) := ⟨rfl, by show Role.off ≠ .slave; decide⟩
  refine ⟨by decide, by decide, by decide, ready false, rfl, ds1971Peer_plays false, ready true, rfl,
    ds1971Peer_plays true, ?_, ?_⟩
  · simp [sampleFrame]
  · simp [sampleFrame]

theorem witness_BlankWriterResults :
    HostReady { State.reset with oracle := [true, true, true] } ∧
    (let w : PortWord := { opsel := 0x3C, len := 1, din := [0x01] }
     w.din.length = w.len.toNat) := by decide

/-- A blank that takes v1, one that takes v2, one that takes neither, and the families of each list. -/
theorem witness_WriteIdFallback :
    let d := (withSample 1).rom.toList
    let takes1 : State := { withSample 1 with oracle := [true, true, true] ++ wireBits d }
    let takes2 : State := { withSample 1 with
      oracle := [true, true, true] ++ List.replicate 64 true ++ [true, true, true] ++ wireBits d }
    HostReady takes1 ∧ movesOk (writeV1Moves d) takes1 = true ∧
    HostReady takes2 ∧ movesOk (writeV1Moves d) takes2 = false ∧
    movesOk (writeV2Moves d) (afterMoves (writeV1Moves d) takes2) = true ∧
    HostReady (withSample 1) ∧ movesOk (writeV1Moves d) (withSample 1) = false ∧
    movesOk (writeV2Moves d) (afterMoves (writeV1Moves d) (withSample 1)) = false ∧
    familyOf (withSample 1).famIn = some .ds1990 ∧ familyOf (withFam 5).famIn = some .ds1420 ∧
    [(0 : FamSel), 2, 4].all (fun f => decide (familyOf (withFam f).famIn ∈
      [some .generic, some .ds1971, some .ds1996])) = true ∧
    [(3 : FamSel), 6, 7].all (fun f => decide (familyOf (withFam f).famIn ∈
      [none, some .ds1992])) = true := by decide

/-- Each edge of R237: a next state that stays, goes one state on, and each way to `Idle`. -/
theorem witness_CmdStateEdges :
    after (·.cmdState) (step State.reset) = some .idle ∧
    after (·.cmdState) (step (placeCode (.bus 3 .idle 0xCC) (withFam 3))) = some .romCommandAccepted ∧
    after (·.cmdState) (step (placeCode (.bus 3 .romCommandAccepted 0xF0) (withFam 3))) =
      some .memoryCommandAccepted ∧
    after (fun t => (t.cmdState, t.role)) (step (hearing 3 .memoryCommandAccepted
      [.line (.act .resetStd)])) = some (.idle, .slave) ∧
    after (fun t => (t.cmdState, t.role)) (step { withFam 3 with
      cmdState := .romCommandAccepted, inputs := [.port { opsel := 0x20 }] }) = some (.idle, .slave) ∧
    after (fun t => (t.cmdState, t.epoch)) (step (hearing 3 .memoryCommandAccepted [.rst])) =
      some (.idle, 1) := by
  decide

/-- A session in which a slot is taken, and one that a hardware reset ends. -/
theorem witness_SessionFreezesStorage :
    (hearing 3 .idle (slots [true])).role = .slave ∧
    after (·.epoch) (step (hearing 3 .idle (slots [true]))) = some 0 ∧
    after (·.epoch) (step (hearing 3 .idle [.rst])) = some 1 := by decide

/-- A step that adds an event to the wire. -/
theorem witness_WireOnlyGrows :
    after (·.wire) (step { State.reset with inputs := [.port { opsel := 0x11, d8 := 1 }] }) =
      some [.hWrite true] := by decide

theorem witness_SentCommandFrames : ({ State.reset with role := .host } : State).role = .host := by decide

/-- Eight bytes; a blank that answers two resets and then no more, so that the verify step fails, and one that
takes them; one that does for a TM2004. -/
theorem witness_DwellTimes :
    let d : List Byte := List.replicate 8 0xFF
    d.length = 8 ∧ ([true, true] : List Bool).headD false = true ∧
    (([true, true] : List Bool).drop 1).headD false = true ∧
    (playMoves (writeV1Moves d) [true, true] []).ok = false ∧
    (playMoves (writeV2Moves d) [true, true, true] []).ok = true ∧
    (playMoves (writeTm2004Moves d) [true] []).ok = true := by decide

end Sys2Proof.Machine
end

section
/-! PROOFS. The storage buffer as a block of bytes: `MemRead` after `MemWrite` (R12, R24, R61). -/

namespace Sys2Proof.Machine

/-- Offset by offset, each byte read is the byte the block write put there. -/
theorem memReadBytes_memWriteBytes {e a : Nat} {m : List Host.Cell} {v : List Byte}
    (hwf : Memory.wf e m = true) (hfit : a + v.length ≤ Config.memArraySize) :
    memReadBytes e (memWriteBytes e m a v) a v.length = v := by
  apply List.ext_getElem (memReadBytes_length ..)
  intro i _ hi
  have hin : a ≤ a + i ∧ a + i < a + v.length := by omega
  have hread : memRead e (memWriteBytes e m a v) (a + i) = v[i] := by
    rw [memRead_memWriteBytes v (a + i) hwf hfit, if_pos hin, Nat.add_sub_cancel_left,
      List.getD_eq_getElem v 0 hi]
  simpa [memReadBytes_eq] using hread

/-- The frame of a block write: no byte outside the block changes. -/
theorem memRead_memWriteBytes_outside {e a b : Nat} {m : List Host.Cell} {v : List Byte}
    (hwf : Memory.wf e m = true) (hfit : a + v.length ≤ Config.memArraySize)
    (hb : b < a ∨ a + v.length ≤ b) :
    memRead e (memWriteBytes e m a v) b = memRead e m b := by
  rw [memRead_memWriteBytes v b hwf hfit, if_neg (by omega)]

/-- Settles O28, from what one read gives after a block write and from the canonical form, which each byte
written keeps. -/
theorem memoryBytes : Obligations.MemoryBytes := by
  intro e a m v hwf hfit
  exact ⟨wf_memWriteBytes v hwf hfit, memReadBytes_memWriteBytes hwf hfit,
    fun _ hb => memRead_memWriteBytes_outside hwf hfit hb⟩

end Sys2Proof.Machine
end

section
/-! PROOFS. The registers after hardware reset (R42, R350), and the records of the wire. -/

namespace Sys2Proof.Machine

theorem reset_atReset : AtReset State.reset := by
  constructor <;> simp [State.reset]

/-- Whatever was going on, a hardware reset gives every register its value. -/
theorem hardwareReset_atReset (s : State) : AtReset (hardwareReset s) := by
  constructor <;> simp [hardwareReset, State.reset]

/-- A reset in the middle of an operation is a reset, from a state that keeps the records so far. -/
theorem cutByReset_atReset (events pieces : Nat) (s t : State) :
    AtReset (cutByReset events pieces s t) := hardwareReset_atReset _

/-- The input `rst` is what the step takes when no sub-step waits. -/
theorem step_rst {s : State} {rest : List Input} (hq : s.qStep = []) (hi : s.inputs = .rst :: rest) :
    step s = .next (hardwareReset { s with inputs := rest }) := by simp [step, hq, hi]

/-- Settles O9: the first state and the state of a hardware reset have the values of `AtReset`, and the
reset copies what belongs to the outside world. -/
theorem resetValues : Obligations.ResetValues :=
  ⟨reset_atReset, fun _ _ hq hi => ⟨_, step_rst hq hi, hardwareReset_atReset _, rfl, rfl, rfl, rfl⟩⟩

/-- From `s` to `t` as many waveforms as wire events were recorded, and no hardware reset came. -/
def Recorded (s t : State) : Prop :=
  t.epoch = s.epoch ∧ ∃ n, t.wire.length = s.wire.length + n ∧ t.line.length = s.line.length + n

theorem HostEffect.recorded {s t : State} (h : HostEffect s t) : Recorded s t := by
  obtain ⟨es, ls, _, _, _, _, _, _, _, _, _, _, _, _, rfl, hlen, _, _⟩ := h
  exact ⟨rfl, es.length, by simp [Nat.add_comm], by simp [hlen, Nat.add_comm]⟩

theorem EngineEffect.recorded {s t : State} (h : EngineEffect s t) : Recorded s t := by
  obtain ⟨es, ls, _, _, _, _, _, _, _, _, rfl, hlen⟩ := h
  exact ⟨rfl, es.length, by simp [Nat.add_comm], by simp [hlen, Nat.add_comm]⟩

/-- The line is drawn on in host role alone; every other operation leaves the records as they are. -/
theorem PortEffect.recorded {starts stops : Prop} {s t : State} (h : PortEffect starts stops s t) :
    Recorded s t := by
  cases h with
  | onLine b v d u _ _ hu => exact hu.recorded
  | refused | offLine | contract | start | stop => exact ⟨rfl, 0, rfl, rfl⟩

/-- Every wire event has its waveform, and a hardware reset may have cut one more (R350). -/
def RecordsFit (s : State) : Prop :=
  s.wire.length ≤ s.line.length ∧ s.line.length ≤ s.wire.length + s.epoch

theorem Recorded.fit {s t : State} (h : Recorded s t) (hs : RecordsFit s) : RecordsFit t := by
  obtain ⟨hepoch, n, hwire, hline⟩ := h
  unfold RecordsFit at *
  omega

/-- The reset counts itself in `epoch`, which makes room for the one waveform that the cut leaves without
its event. -/
theorem cutByReset_fit (events pieces : Nat) {s t : State} (h : Recorded s t) (hs : RecordsFit s) :
    RecordsFit (cutByReset events pieces s t) := by
  obtain ⟨_, n, hwire, hline⟩ := h
  unfold RecordsFit at *
  simp only [cutByReset, hardwareReset, List.length_append, List.length_reverse, List.length_take,
    hwire, hline]
  split <;> simp only [List.length_nil, List.length_singleton] <;> omega

end Sys2Proof.Machine
end

section
/-! PROOFS. The invariant of Safety.lean, part by part: what holds in every role, and what holds outside and
inside a session; that the reset states have it and that every step keeps it. -/

namespace Sys2Proof.Machine

/-- The part of the invariant that has nothing to do with the session. -/
structure BlockInv (s : State) : Prop where
  memory : Memory.wf s.epoch s.mem = true
  sequencer : s.qStep = [] ∧ s.qPage = 0 ∧ s.qIdx = 0 ∧ s.qElapsed = 0 ∧ s.qMismatch = false
  released : s.owPull = false
  okStatus : s.ok = true → s.status = .ok
  faultCode : s.fault = true ↔ s.faultCode = .writeMemSize
  hostFramer : s.hFramer.Idle
  records : RecordsFit s

/-- Outside a session the slave-role engine is at rest (R33 to R35, R201). -/
structure NoSession (s : State) : Prop where
  role : s.role = .off
  installed : s.emuInstalled = false
  phase : s.slPhase = .off
  task : s.task = .none
  speed : s.odSlave = false
  framer : s.sFramer.bitcnt.toNat < 8 ∧ s.sFramer.timer = 0

/-- In a session the engine keeps its own invariant; the session has a family and there is no fault (R200,
R322). -/
structure InSession (s : State) : Prop where
  engine : EngineInv s
  installed : s.emuInstalled = true
  noFault : s.fault = false
  family : (familyOf s.famHeld).isSome = true

theorem Inv.block {s : State} (h : Inv s) : BlockInv s := { h with }

theorem Inv.noSession {s : State} (h : Inv s) (hr : s.role ≠ .slave) : NoSession s where
  role := by
    cases e : s.role with
    | off => rfl
    | host => exact absurd e h.notHost
    | slave => exact absurd e hr
  installed := Bool.eq_false_iff.2 fun e => hr (h.installed.1 e)
  phase := h.phase.2 hr
  task := by
    by_contra ht
    have hp := h.responder.2 ht
    rw [h.phase.2 hr] at hp
    cases hp
  speed := Bool.eq_false_iff.2 fun e => hr (h.overdrive e).1
  framer := ⟨h.slaveFramer.1, h.slaveTimer hr⟩

theorem Inv.inSession {s : State} (h : Inv s) (hr : s.role = .slave) : InSession s where
  engine :=
    { role := hr
      phaseOn := fun e => h.phase.1 e hr
      noPresence := h.noPresence
      responder := h.responder
      overdrive := fun e => (h.overdrive e).2
      statelessIdle := h.statelessIdle hr
      framer := h.slaveFramer
      range := h.range }
  installed := h.installed.2 hr
  noFault := by
    by_contra hf
    have := h.faultOff (by simpa using hf)
    rw [hr] at this
    cases this
  family := h.session hr

theorem NoSession.inv {s : State} (h : NoSession s) (hb : BlockInv s) : Inv s :=
  have hr : s.role ≠ .slave := by simp [h.role]
  { hb with
    notHost := by simp [h.role]
    installed := by simp [h.installed, h.role]
    phase := by simp [h.phase, h.role]
    noPresence := by simp [h.phase]
    responder := by simp [h.phase, h.task]
    faultOff := fun _ => h.role
    overdrive := by simp [h.speed]
    session := fun e => absurd e hr
    statelessIdle := fun e => absurd e hr
    slaveFramer := framerWaits h.framer.1 h.framer.2
    slaveTimer := fun _ => h.framer.2
    range := taskInRange_none h.task }

theorem InSession.inv {s : State} (h : InSession s) (hb : BlockInv s) : Inv s :=
  have hr : s.role = .slave := h.engine.role
  { hb with
    notHost := by simp [hr]
    installed := by simp [h.installed, hr]
    phase := by simp [h.engine.phaseOn, hr]
    noPresence := h.engine.noPresence
    responder := h.engine.responder
    faultOff := by simp [h.noFault]
    overdrive := fun e => ⟨hr, h.engine.overdrive e⟩
    session := fun _ => h.family
    statelessIdle := fun _ => h.engine.statelessIdle
    slaveFramer := h.engine.framer
    slaveTimer := fun e => absurd hr e
    range := h.engine.range }

/-! ## Reset -/

/-- The values of reset are those of a block at rest; what they do not say is MEM and the
records. -/
theorem AtReset.inv {s : State} (h : AtReset s) (hm : s.mem = []) (hrec : RecordsFit s) : Inv s := by
  obtain ⟨_, hOk, _, _⟩ := h.response
  obtain ⟨hFault, hCode⟩ := h.fault
  obtain ⟨hInstalled, _, hPhase, hTask⟩ := h.session
  obtain ⟨hHost, hSlave⟩ := h.framers
  have hn : NoSession s :=
    { role := h.role, installed := hInstalled, phase := hPhase, task := hTask, speed := h.speeds.2
      framer := by simp [hSlave] }
  exact hn.inv
    { memory := hm ▸ wf_nil _, sequencer := h.sequencer, released := h.line
      okStatus := by simp [hOk]
      faultCode := by simp [hFault, hCode]
      hostFramer := hHost ▸ ⟨rfl, rfl, rfl⟩
      records := hrec }

/-- Settles O11: the reset state has the values of R42, an empty MEM and no records. -/
theorem invAtReset : Obligations.InvAtReset :=
  reset_atReset.inv rfl ⟨Nat.le_refl _, Nat.le_refl _⟩

theorem hardwareReset_inv {s : State} (h : Inv s) : Inv (hardwareReset s) :=
  (hardwareReset_atReset s).inv rfl ⟨h.records.1, h.records.2.trans (Nat.le_succ _)⟩

theorem cutByReset_inv (events pieces : Nat) {s t : State} (h : Inv s) (hrec : Recorded s t) :
    Inv (cutByReset events pieces s t) :=
  (cutByReset_atReset events pieces s t).inv rfl (cutByReset_fit events pieces hrec h.records)

/-! ## Steps -/

/-- The inputs still to come are no part of the invariant. -/
theorem Inv.withInputs {s : State} (h : Inv s) (rest : List Input) : Inv { s with inputs := rest } :=
  { h with }

/-- Neither is the level of the `fam` input: a session has the value it sampled (R37). -/
theorem Inv.withFamIn {s : State} (h : Inv s) (sel : FamSel) : Inv { s with famIn := sel } :=
  { h with
    statelessIdle := fun hr hs => h.statelessIdle hr (by
      simpa [State.stateless, State.fam, show s.role = .slave from hr] using hs) }

theorem reply_okStatus (b : Bool) (v : Byte) (d : List Byte) (s : State) :
    (reply b v d s).ok = true → (reply b v d s).status = .ok := by
  intro hb
  have hb' : b = true := hb
  simp [hb']

/-- A host-role operation ends with the sequencer cleared, the line let go and role `Off` (R335). -/
theorem HostEffect.endHost_inv {s u : State} (h : HostEffect s u) (hi : Inv s) (hr : s.role ≠ .slave)
    (b : Bool) (v : Byte) (d : List Byte) : Inv (endHost (reply b v d u)) := by
  have hrec : RecordsFit u := h.recorded.fit hi.records
  obtain ⟨_, _, _, _, _, _, _, _, _, _, _, _, _, _, rfl, _, hIdle, hwf⟩ := h
  exact NoSession.inv { hi.noSession hr with role := rfl }
    { memory := hwf hi.memory
      sequencer := ⟨hi.sequencer.1, rfl, rfl, rfl, rfl⟩
      released := rfl
      okStatus := reply_okStatus b v d s
      faultCode := hi.faultCode
      hostFramer := hIdle hi.hostFramer
      records := hrec }

/-- Every port operation keeps the invariant. -/
theorem PortEffect.inv {starts stops : Prop} {s t : State} (h : PortEffect starts stops s t)
    (hi : Inv s) : Inv t := by
  cases h with
  | refused st _ => exact { hi with okStatus := nofun }
  | offLine b st v d crc rom ar mem _ hb _ _ hw =>
    exact { hi with memory := hw hi.memory, okStatus := hb }
  | onLine b v d u _ hr hu => exact hu.endHost_inv hi hr b v d
  | contract _ hr =>
    exact NoSession.inv { hi.noSession hr with role := rfl }
      { hi.block with okStatus := nofun, faultCode := iff_of_true rfl rfl }
  | start _ hf _ hfam =>
    refine InSession.inv ?_ { hi.block with okStatus := fun _ => rfl }
    exact
      { engine :=
          { role := rfl, phaseOn := nofun, noPresence := nofun, responder := by simp
            overdrive := nofun, statelessIdle := fun _ => rfl
            framer := framerWaits (by simp) rfl, range := rfl }
        installed := rfl, noFault := hf, family := hfam }
  | stop =>
    exact NoSession.inv ⟨rfl, rfl, rfl, rfl, rfl, by simp⟩
      { hi.block with released := rfl, okStatus := fun _ => rfl }

/-- The engine writes its own registers and the records; its invariant takes care of the registers. -/
theorem EngineEffect.inv {s t : State} (h : EngineEffect s t) (hi : Inv s) (ht : EngineInv t) :
    Inv t := by
  have hrec : RecordsFit t := h.recorded.fit hi.records
  have hrole : s.role = .slave := h.fam.1 ▸ ht.role
  have hs := hi.inSession hrole
  obtain ⟨_, _, _, _, _, _, _, _, _, _, rfl, _⟩ := h
  exact InSession.inv { hs with engine := ht } { hi.block with records := hrec }

/-- Settles O12, case by case over what a step can do (`StepEffect`). -/
theorem invKeptByStep : Obligations.InvKeptByStep := by
  intro s t hi hstep
  cases step_effect hstep with
  | idle => exact hi
  | subStep u q hq => exact absurd hi.sequencer.1 hq
  | port w rest i t _ _ _ he => exact he.inv (hi.withInputs rest)
  | line t _ he _ hkeep hother =>
    by_cases hr : s.role = .slave
    · exact he.inv hi (hkeep (hi.inSession hr).engine)
    · obtain ⟨rest, rfl⟩ := hother hr
      exact hi.withInputs rest
  | fam rest sel => exact (hi.withInputs rest).withFamIn sel
  | reset rest => exact hardwareReset_inv (hi.withInputs rest)
  | cut rest events pieces i t _ he =>
    exact cutByReset_inv events pieces (hi.withInputs rest) he.recorded

end Sys2Proof.Machine
end

section
/-! PROOFS. The CRC of a sequence by bits and by bytes (R64, R122). -/

namespace Sys2Proof.Machine

/-- The bit steps over two runs of bits are those over the first and then those over the second. -/
theorem crc8Bits_append (c : Byte) (a b : List Bool) :
    crc8Bits c (a ++ b) = crc8Bits (crc8Bits c a) b := List.foldl_append

/-- A byte step is the eight bit steps of the byte in wire order, so the sequence's bits give its CRC. -/
theorem crc8Bits_wireBits (c : Byte) (s : List Byte) : crc8Bits c (wireBits s) = crc8Buf c s := by
  induction s generalizing c with
  | nil => rfl
  | cons b s ih =>
    calc crc8Bits c (wireBits (b :: s))
      _ = crc8Bits (crc8Byte c b) (wireBits s) := by rw [wireBits_cons, crc8Bits_append, crc8Byte]
      _ = crc8Buf c (b :: s) := ih _

/-- A sequence may be fed in two parts: so may its bits. -/
theorem crc8Buf_append (c : Byte) (s t : List Byte) :
    crc8Buf c (s ++ t) = crc8Buf (crc8Buf c s) t := by
  simp only [← crc8Bits_wireBits, wireBits_append, crc8Bits_append]

/-- Settles O17, by induction on the sequence. -/
theorem crcWireOrder : Obligations.CrcWireOrder := fun c s t =>
  ⟨crc8Bits_wireBits c s, crc8Buf_append c s t⟩

end Sys2Proof.Machine
end

section
/-! PROOFS. What every step keeps: the storage in a session (R71, R359), and the record of the wire with the
command byte parameters (R74, R6). -/

namespace Sys2Proof.Machine

/-! ## Storage in a session -/

/-- From `s` to `t` the storage is the same, and no hardware reset came. -/
def SameStorage (s t : State) : Prop :=
  t.rom = s.rom ∧ t.aregs = s.aregs ∧ t.mem = s.mem ∧ t.epoch = s.epoch

theorem SameStorage.refl (s : State) : SameStorage s s := ⟨rfl, rfl, rfl, rfl⟩

/-- The slave-role engine reads the storage and never writes it. -/
theorem EngineEffect.sameStorage {s t : State} (h : EngineEffect s t) : SameStorage s t := by
  obtain ⟨_, _, _, _, _, _, _, _, _, _, rfl, _⟩ := h
  exact .refl s

/-- Every operation that writes the storage is refused in role `Slave` (R335). -/
theorem PortEffect.sameStorage {starts stops : Prop} {s t : State} (h : PortEffect starts stops s t)
    (hr : s.role = .slave) : SameStorage s t := by
  cases h with
  | offLine _ _ _ _ _ _ _ _ _ _ _ hkeep =>
    obtain ⟨hrom, haregs, hmem⟩ := hkeep hr
    exact ⟨hrom, haregs, hmem, rfl⟩
  | onLine _ _ _ _ _ hn => exact absurd hr hn
  | contract _ hn => exact absurd hr hn
  | start _ _ hoff => exact absurd (hr.symm.trans hoff) (by decide)
  | refused | stop => exact .refl s

/-- The end of a host sequence writes `role`, the line and the sequencer's registers. -/
theorem closeSequence_cases (s : State) : closeSequence s = endHost s ∨ closeSequence s = s := by
  unfold closeSequence
  split
  · exact .inl rfl
  · exact .inr rfl

theorem closeSequence_sameStorage (s : State) : SameStorage s (closeSequence s) := by
  rcases closeSequence_cases s with e | e <;> rw [e] <;> exact .refl s

/-- Settles O46, case by case over what a step can do: a sub-step acts in role `Host` alone, a port
operation in a session writes no storage, and only a reset counts in `epoch`. -/
theorem sessionFreezesStorage : Obligations.SessionFreezesStorage := by
  intro s t hr hstep
  cases step_effect hstep with
  | idle | fam => exact .inl (SameStorage.refl s)
  | subStep u q _ _ hother =>
    obtain rfl : u = s := hother (by simp [hr])
    exact .inl (closeSequence_sameStorage { u with qStep := q })
  | port w rest i t _ _ _ he => exact .inl (he.sameStorage hr)
  | line t _ he => exact .inl he.sameStorage
  | reset | cut => exact .inr rfl

/-! ## The record of the wire -/

/-- From `s` to `t` the record of the wire is only extended, and the parameters are the same. -/
def KeepsRecord (s t : State) : Prop := (∃ es, t.wire = es ++ s.wire) ∧ t.cmdBytes = s.cmdBytes

theorem KeepsRecord.refl (s : State) : KeepsRecord s s := ⟨⟨[], rfl⟩, rfl⟩

theorem HostEffect.keepsRecord {s t : State} (h : HostEffect s t) : KeepsRecord s t := by
  obtain ⟨es, _, _, _, _, _, _, _, _, _, _, _, _, _, rfl, _⟩ := h
  exact ⟨⟨es, rfl⟩, rfl⟩

theorem EngineEffect.keepsRecord {s t : State} (h : EngineEffect s t) : KeepsRecord s t := by
  obtain ⟨es, _, _, _, _, _, _, _, _, _, rfl, _⟩ := h
  exact ⟨⟨es, rfl⟩, rfl⟩

theorem PortEffect.keepsRecord {starts stops : Prop} {s t : State} (h : PortEffect starts stops s t) :
    KeepsRecord s t := by
  cases h with
  | onLine _ _ _ _ _ _ hu => exact hu.keepsRecord
  | refused | offLine | contract | start | stop => exact .refl s

/-- A hardware reset leaves the record standing (log entry 26). -/
theorem hardwareReset_keepsRecord (s : State) : KeepsRecord s (hardwareReset s) := .refl s

/-- A reset that cuts an operation keeps the events that have happened. -/
theorem cutByReset_keepsRecord (events pieces : Nat) (s t : State) :
    KeepsRecord s (cutByReset events pieces s t) := ⟨⟨_, rfl⟩, rfl⟩

theorem closeSequence_keepsRecord {s t : State} (h : KeepsRecord s t) :
    KeepsRecord s (closeSequence t) := by
  rcases closeSequence_cases t with e | e <;> rw [e] <;> exact h

/-- Settles O47, case by case over what a step can do. -/
theorem wireOnlyGrows : Obligations.WireOnlyGrows := by
  intro s t hstep
  cases step_effect hstep with
  | idle | fam => exact KeepsRecord.refl s
  | subStep u q _ hu => exact closeSequence_keepsRecord (t := { u with qStep := q }) hu.keepsRecord
  | port w rest i t _ _ _ he => exact he.keepsRecord
  | line t _ he => exact he.keepsRecord
  | reset rest => exact hardwareReset_keepsRecord { s with inputs := rest }
  | cut rest events pieces i t => exact cutByReset_keepsRecord events pieces { s with inputs := rest } t

end Sys2Proof.Machine
end

section
/-! PROOFS. What `FAM.READ` stores: the record and the memory, both from the peer's answers (R68, R268,
R269). -/

namespace Sys2Proof.Machine

/-- Different byte sequences have different bits on the wire. -/
theorem wireBits_injective : Function.Injective wireBits := by
  intro a b h
  have hlen : a.length = b.length := by
    have := congrArg List.length h
    simp only [wireBits_length] at this
    omega
  rw [← bytesOf_wireBits a, ← bytesOf_wireBits b, h, hlen]

/-! ## What has been stored -/

/-- `t` is a state that holds the record of the bits `romBits` and, from address 0 on, the bytes of
`memBits`; the rest of its memory is that of `s`. -/
def Stores (romBits memBits : List Bool) (s t : State) : Prop :=
  wireBits t.rom.toList = romBits ∧ t.epoch = s.epoch ∧
  ∃ d, wireBits d = memBits ∧ t.mem = memWriteBytes s.epoch s.mem 0 d

/-- What two states store from the same bits is the same, whatever they held before. -/
theorem Stores.agree {romBits memBits : List Bool} {n : Nat} {s t u v : State}
    (ht : Stores romBits memBits s t) (hv : Stores romBits memBits u v)
    (hlen : memBits.length = 8 * n) (hfit : n ≤ Config.memArraySize)
    (hs : Memory.wf s.epoch s.mem = true) (hu : Memory.wf u.epoch u.mem = true) :
    v.rom = t.rom ∧ ∀ a, a < n → v.memAt a = t.memAt a := by
  obtain ⟨htRom, htEpoch, d, htBits, htMem⟩ := ht
  obtain ⟨hvRom, hvEpoch, d', hvBits, hvMem⟩ := hv
  obtain rfl : d' = d := wireBits_injective (hvBits.trans htBits.symm)
  have hd : d'.length = n := by
    have := congrArg List.length htBits
    rw [wireBits_length, hlen] at this
    omega
  refine ⟨Vector.toList_inj.1 (wireBits_injective (hvRom.trans htRom.symm)), fun a ha => ?_⟩
  have hin : 0 ≤ a ∧ a < 0 + d'.length := by omega
  rw [State.memAt, State.memAt, hvEpoch, hvMem, htEpoch, htMem,
    memRead_memWriteBytes d' a hu (by omega), memRead_memWriteBytes d' a hs (by omega),
    if_pos hin, if_pos hin]

/-! ## On the way to it -/

/-- From `s` to `u` the peer has given `n` answers, and the record is now `r`; memory is as it was. -/
structure Answered (n : Nat) (r : Vector Byte 8) (s u : State) : Prop where
  oracle : u.oracle = s.oracle.drop n
  record : u.rom = r
  memory : u.mem = s.mem
  epoch : u.epoch = s.epoch

theorem Answered.begin (s : State) : Answered 0 s.rom s (beginHost s) := ⟨rfl, rfl, rfl, rfl⟩

section
variable {n : Nat} {r : Vector Byte 8} {s t u : State}

/-- The hidden registers do not matter. -/
theorem Answered.hidden (h : Answered n r s u) (k : SameButHidden t u) : Answered n r s t := by
  obtain ⟨_, _, _, _, _, rfl, _⟩ := k
  exact ⟨h.oracle, h.record, h.memory, h.epoch⟩

theorem Answered.played (h : Answered n r s u) (es : List WireEvent) :
    Answered (n + answersUsed es) r s (played es u) where
  oracle := by rw [← List.drop_drop, ← h.oracle]; rfl
  record := h.record
  memory := h.memory
  epoch := h.epoch

theorem Answered.reset (h : Answered n r s u) : Answered (n + 1) r s (hostReset u).2 := by
  rw [hostReset_eq]
  have hplayed := h.played [.hReset (u.oracle.headD false)]
  exact ⟨hplayed.oracle, hplayed.record, hplayed.memory, hplayed.epoch⟩

theorem Answered.overdrive (h : Answered n r s u) (p : CommandBytes) :
    Answered n r s (frameOverdriveSkipRom p u) := by
  have hsaid := (h.played (writeEvents [p.overdriveSkipRom])).hidden
    ((says_writeByte p.overdriveSkipRom).2 u)
  rw [answersUsed_writeEvents] at hsaid
  exact ⟨hsaid.oracle, hsaid.record, hsaid.memory, hsaid.epoch⟩

/-- The read-ROM frame replaces the record by the next 64 answers. -/
theorem Answered.readRom (h : Answered n r s u) :
    ∃ q : Vector Byte 8, wireBits q.toList = nextBits 64 (s.oracle.drop n) ∧
      Answered (n + 64) q s (frameReadRom u) := by
  obtain ⟨q, hq, hsame⟩ := frameReadRom_same u
  have hplayed := h.played (writeEvents [0x33] ++ readEvents (nextBits 64 u.oracle))
  rw [answersUsed_append, answersUsed_writeEvents, answersUsed_readEvents, nextBits_length,
    Nat.zero_add] at hplayed
  have hstored : Answered (n + 64) q s
      { Machine.played (writeEvents [0x33] ++ readEvents (nextBits 64 u.oracle)) u with rom := q } :=
    ⟨hplayed.oracle, rfl, hplayed.memory, hplayed.epoch⟩
  exact ⟨q, h.oracle ▸ hq, hstored.hidden hsame⟩

/-- A read of no bytes of memory stores the record alone. -/
theorem Answered.stores (h : Answered n r s u) : Stores (wireBits r.toList) [] s u :=
  ⟨h.record ▸ rfl, h.epoch, [], rfl, h.memory⟩

/-- The read-memory frame, its bytes stored from address 0 on. -/
theorem Answered.storesRead (h : Answered n r s u) (size : Nat) :
    Stores (wireBits r.toList) (nextBits (8 * size) (s.oracle.drop n)) s
      (storeMem 0 (frameReadMem 0 size u).1 (frameReadMem 0 size u).2) := by
  obtain ⟨d, _, hbits, hread, _, _, _, _, _, hsame, _⟩ := frameReadMem_same 0 size u
  rw [hread, hsame]
  refine ⟨h.record ▸ rfl, h.epoch, d, h.oracle ▸ hbits, ?_⟩
  show memWriteBytes u.epoch u.mem 0 d = _
  rw [h.epoch, h.memory]

end

/-! ## The two operations -/

/-- A sequence that answers `ok`, and where that is true has stored the bits. -/
def Reads (ok : Bool) (romBits memBits : List Bool) (s : State) (r : Bool × State) : Prop :=
  r.1 = ok ∧ (ok = true → Stores romBits memBits s r.2)

/-- A bus reset in front: its presence answer decides as well. -/
theorem Reads.afterReset {ok : Bool} {romBits memBits : List Bool} {s u : State}
    {k : State → Bool × State} (h : Reads ok romBits memBits s (k (hostReset u).2)) :
    Reads (u.oracle.headD false && ok) romBits memBits s (gate (hostReset u) k) := by
  have hanswer : (hostReset u).1 = u.oracle.headD false := by rw [hostReset_eq]
  cases hp : u.oracle.headD false with
  | true => rw [gate, hanswer, hp]; exact h
  | false => rw [gate, hanswer, hp]; exact ⟨hanswer.trans hp, nofun⟩

theorem Reads.overdriveOff {ok : Bool} {romBits memBits : List Bool} {s : State} {r : Bool × State}
    (h : Reads ok romBits memBits s r) : Reads ok romBits memBits s (overdriveOff r) := h

/-- A host-role operation answers what its sequence does; one that the family lacks answers 0. -/
theorem Reads.hostOp {ok supported : Bool} {romBits memBits : List Bool} {s t : State}
    {run : State → Bool × State} (hready : HostReady s)
    (hrun : Reads ok romBits memBits s (run (beginHost s)))
    (e : hostOp supported (fun s => let r := run s; reply r.1 0 [] r.2) s = .next t) :
    Reads (supported && ok) romBits memBits s (t.ok, t) := by
  cases supported with
  | true =>
    rw [hostOp_ready hready] at e
    cases e
    exact hrun
  | false =>
    have he : Machine.hostOp false (fun s => let r := run s; reply r.1 0 [] r.2) s =
        .next (refuse .errUnsupported s) := by
      simp [Machine.hostOp, portOp, hready.1, RolePolicy.allows, hready.2]
    cases he.symm.trans e
    exact ⟨rfl, nofun⟩

theorem HostReady.fam {s : State} (h : HostReady s) : s.fam = s.famIn := if_neg h.2

/-- The ROM phase of R268 and R269: a reset, then the read-ROM frame. -/
theorem romPhase_answered (s : State) :
    ∃ r : Vector Byte 8, wireBits r.toList = nextBits 64 (s.oracle.drop 1) ∧
      Answered 65 r s (frameReadRom (hostReset (beginHost s)).2) :=
  (Answered.begin s).reset.readRom

/-- R268: with presence, the record is the answers after the first, the memory those after the record. -/
theorem execFamRead_reads {s t : State} (h : HostReady s) (e : execFamRead s = .next t) :
    Reads ((familyOf s.famIn).isSome && s.oracle.headD false) (nextBits 64 (s.oracle.drop 1))
      (nextBits (8 * memSize s.famIn) (s.oracle.drop 65)) s (t.ok, t) := by
  obtain ⟨r, hr, hrom⟩ := romPhase_answered s
  unfold execFamRead at e
  rw [h.fam] at e
  rw [← hr, ← Bool.and_true (s.oracle.headD false)]
  refine Reads.hostOp h ?_ e
  refine Reads.afterReset ?_
  simp only
  by_cases hn : 0 < memSize s.famIn
  · rw [if_pos hn]
    exact ⟨rfl, fun _ => hrom.storesRead (memSize s.famIn)⟩
  · rw [if_neg hn, Nat.eq_zero_of_not_pos hn]
    exact ⟨rfl, fun _ => hrom.stores⟩

/-- R269: the memory follows the answer to a second reset. -/
theorem execFamReadDs1996_reads {s t : State} (h : HostReady s)
    (hfam : familyOf s.famIn = some .ds1996) (e : execFamReadDs1996 s = .next t) :
    Reads ((familyOf s.famIn).isSome && (s.oracle.headD false && (s.oracle.drop 65).headD false))
      (nextBits 64 (s.oracle.drop 1)) (nextBits (8 * memSize s.famIn) (s.oracle.drop 66)) s (t.ok, t) := by
  obtain ⟨r, hr, hrom⟩ := romPhase_answered s
  have hsize : memSize s.famIn = 8192 := by simp [memSize, hfam, familyMemSize]
  unfold execFamReadDs1996 at e
  rw [h.fam, ← hsize] at e
  rw [← hr, ← hrom.oracle, ← Bool.and_true ((frameReadRom _).oracle.headD false)]
  refine Reads.hostOp h ?_ e
  refine Reads.overdriveOff ?_
  refine Reads.afterReset ?_
  refine Reads.afterReset ⟨rfl, fun _ => ?_⟩
  exact (hrom.reset.overdrive _).storesRead (memSize s.famIn)

theorem decodePort_famRead {w : PortWord} (h : w.opsel = 0x38) (fam : FamSel) :
    decodePort fam w = .ok (selectRead fam) := by
  simp [decodePort, h]

/-- What a read answers and stores is a matter of the family and the peer's answers. -/
theorem famRead_reads (fam : FamSel) (o : List Bool) :
    ∃ ok romBits memBits, memBits.length = 8 * memSize fam ∧
      ∀ s t : State, HostReady s → s.famIn = fam → s.oracle = o → exec (selectRead fam) s = .next t →
        Reads ok romBits memBits s (t.ok, t) := by
  unfold selectRead
  split
  · rename_i hfam
    refine ⟨(familyOf fam).isSome && (o.headD false && (o.drop 65).headD false),
      nextBits 64 (o.drop 1), _, nextBits_length _ (o.drop 66), ?_⟩
    rintro s t hs rfl rfl e
    exact execFamReadDs1996_reads hs hfam e
  · refine ⟨(familyOf fam).isSome && o.headD false,
      nextBits 64 (o.drop 1), _, nextBits_length _ (o.drop 65), ?_⟩
    rintro s t hs rfl rfl e
    exact execFamRead_reads hs e

/-- Settles O54: both runs store the same bits, and what is stored of these is the same. -/
theorem famReadDependsOnPeerOnly : Obligations.FamReadDependsOnPeerOnly := by
  intro s u s' u' w i hs hu hfam horacle hsMem huMem hw hi hsRun huRun hok
  rw [decodePort_famRead hw, hs.fam] at hi
  cases hi
  obtain ⟨ok, romBits, memBits, hlen, hreads⟩ := famRead_reads s.famIn s.oracle
  obtain ⟨hsOk, hsStores⟩ := hreads s s' hs rfl rfl hsRun
  obtain ⟨huOk, huStores⟩ := hreads u u' hu hfam.symm horacle.symm huRun
  have hOk : ok = true := hsOk.symm.trans hok
  exact ⟨huOk.trans hOk,
    (hsStores hOk).agree (huStores hOk) hlen (memSize_le s.famIn) hsMem huMem⟩

end Sys2Proof.Machine
end

section
/-! PROOFS. The decoder and the encoder (R91 to R99): what each select of the port and each command byte is
decoded to, what the decoder leaves to the reserved and unrecognised rows, and the round trip. -/

namespace Sys2Proof

/-! ## The command port -/

/-- A payload that `len` can count is taken whole (R91). -/
theorem withPayload_encoded {din : List Byte} (h : checkPayload din = none) (w : PortWord)
    (mk : List Byte → Instr) :
    withPayload { w with len := BitVec.ofNat 16 din.length, din := din } mk = .ok (mk din) := by
  have hlen : din.length < 65536 := by
    unfold checkPayload at h
    split at h
    · assumption
    · cases h
  simp [withPayload, Nat.mod_eq_of_lt hlen]

theorem withPayload_ne {w : PortWord} {mk : List Byte → Instr} {i : Instr} (h : mk w.din ≠ i) :
    withPayload w mk ≠ .ok i := by
  unfold withPayload
  split
  · exact fun e => h (Except.ok.inj e)
  · nofun

theorem selectRead_ne (fam : FamSel) (op : Byte) : selectRead fam ≠ .reservedOpsel op := by
  unfold selectRead
  split <;> nofun

theorem selectWriteCopy_ne (fam : FamSel) (t : Micros) (op : Byte) :
    selectWriteCopy fam t ≠ .reservedOpsel op := by
  unfold selectWriteCopy
  split <;> nofun

theorem mem_assignedSelects_iff (op : Byte) :
    op ∈ assignedSelects ↔ op.toNat ∈ assignedSelects.map BitVec.toNat :=
  (List.mem_map_of_injective fun _ _ => BitVec.eq_of_toNat_eq).symm

/-- The reserved selects are those without a row in R92. -/
theorem decodePort_reserved_iff (fam : FamSel) (w : PortWord) :
    decodePort fam w = .ok (.reservedOpsel w.opsel) ↔ w.opsel ∉ assignedSelects := by
  unfold decodePort
  split
  case h_39 =>
    refine iff_of_true rfl ?_
    simp_all [assignedSelects, ← BitVec.toNat_inj]
  all_goals
    rename_i hop
    have hmem : w.opsel ∈ assignedSelects := by
      rw [mem_assignedSelects_iff, hop]
      decide
    refine iff_of_false ?_ (not_not.2 hmem)
    simp [withPayload_ne, selectRead_ne, selectWriteCopy_ne]

/-- The selects without a row in R92, as R93 lists them. -/
theorem not_mem_assignedSelects_iff (op : Byte) :
    op ∉ assignedSelects ↔
      op = 0x06 ∨ op = 0x07 ∨ (0x19 ≤ op ∧ op ≤ 0x1F) ∨ (0x22 ≤ op ∧ op ≤ 0x2F) ∨
      op = 0x37 ∨ op = 0x3B ∨ op = 0x3F ∨ 0x40 ≤ op := by
  revert op
  decide

/-! ## Received command bytes -/

@[simp] theorem decode_bus (fam : FamSel) (st : CmdState) (c : Byte) (p : CommandBytes) :
    decode (.bus fam st c) p = .ok (decodeBus fam st c p) := rfl

/-- A family decodes by its class (R224). -/
theorem decodeBus_selOf (f : Family) (st : CmdState) (c : Byte) (p : CommandBytes) :
    decodeBus (selOf f) st c p = if hasState f then decodeStateful f st c p else decodeStateless c := by
  cases f <;> rfl

/-- The bytes that a stateful family does not recognise (R99): they name no command of R224. -/
theorem decodeStateful_unrecognised_iff (f : Family) (st : CmdState) (c d : Byte) (p : CommandBytes) :
    decodeStateful f st c p = .unrecognisedStateful d ↔
      (c ∉ statefulBytes p ∧ ¬(c = p.overdriveSkipRom ∧ f = .ds1996)) ∧ c = d := by
  unfold decodeStateful
  split
  · next h => cases st <;> simp [statefulBytes, h]
  split
  · next h => cases st <;> simp [statefulBytes, h]
  split
  · next h => simp [statefulBytes, h]
  split
  · next h => simp [h]
  · next hsearch hread hskip hoverdrive => simp [statefulBytes, hsearch, hread, hskip, hoverdrive]

/-- The bytes that a stateless family does not recognise (R99). -/
theorem decodeStateless_other_iff (c d : Byte) :
    decodeStateless c = .anyOtherStateless d ↔ c ∉ statelessBytes ∧ c = d := by
  unfold decodeStateless
  split
  · next h => simp [statelessBytes, h]
  split
  · next h => simp [statelessBytes, h]
  · next hsearch hread => simp [statelessBytes, hsearch, hread]

theorem decodeStateful_ne_other (f : Family) (st : CmdState) (c d : Byte) (p : CommandBytes) :
    decodeStateful f st c p ≠ .anyOtherStateless d := by
  unfold decodeStateful
  split
  · cases st <;> nofun
  split
  · split <;> nofun
  split
  · nofun
  split <;> nofun

theorem decodeStateless_ne_unrecognised (c d : Byte) : decodeStateless c ≠ .unrecognisedStateful d := by
  unfold decodeStateless
  split
  · nofun
  split <;> nofun

/-- `CMD_SKIP_ROM` is none of the two constants (R8), so a stateful family finds it third. -/
theorem decodeStateful_skipRom (f : Family) (st : CmdState) (p : CommandBytes) :
    decodeStateful f st p.skipRom p = .skipRom := by
  obtain ⟨hsearch, hread, _⟩ := Machine.commandBytes_ne p
  exact (if_neg hsearch).trans ((if_neg hread).trans (if_pos rfl))

/-- `CMD_OVERDRIVE_SKIP_ROM` is none of the other three bytes (R8), so DS1996 finds it last. -/
theorem decodeStateful_overdriveSkipRom (st : CmdState) (p : CommandBytes) :
    decodeStateful .ds1996 st p.overdriveSkipRom p = .overdriveSkipRom := by
  obtain ⟨_, _, hsearch, hread, hskip⟩ := Machine.commandBytes_ne p
  exact (if_neg hsearch).trans ((if_neg hread).trans ((if_neg hskip).trans (if_pos ⟨rfl, rfl⟩)))

/-! ## Sent command bytes -/

theorem decodeHost_skipRom (p : CommandBytes) :
    decodeHost { cmd := p.skipRom, group := .select } p = .ok .hostSkipRom := by
  simp [decodeHost]

theorem decodeHost_overdriveSkipRom (p : CommandBytes) :
    decodeHost { cmd := p.overdriveSkipRom, group := .select } p = .ok .hostOverdriveSkipRom := by
  obtain ⟨_, _, _, _, hskip⟩ := Machine.commandBytes_ne p
  simp [decodeHost, hskip]

/-! ## The obligations about the code -/

/-- A select that has no row in R92 is decoded to itself. -/
theorem decode_encode_reserved {op : Byte} (h : Instr.WellFormed (.reservedOpsel op)) (p : CommandBytes) :
    decode (encode (.reservedOpsel op) p) p = .ok (.reservedOpsel op) := by
  refine (decodePort_reserved_iff (selOf .generic) { opsel := op }).2 fun hmem => ?_
  simp [Instr.WellFormed, Instr.check, hmem] at h

/-- DS1992, which a code of this row is encoded with, has no overdrive (R7, R228). -/
theorem decode_encode_unrecognised {c : Byte} {p : CommandBytes}
    (h : Instr.WellFormed (.unrecognisedStateful c) p) :
    decode (encode (.unrecognisedStateful c) p) p = .ok (.unrecognisedStateful c) := by
  refine congrArg _
    ((decodeStateful_unrecognised_iff .ds1992 .idle c c p).2 ⟨⟨fun hmem => ?_, nofun⟩, rfl⟩)
  simp [Instr.WellFormed, Instr.check, hmem] at h

theorem decode_encode_anyOther {c : Byte} {p : CommandBytes}
    (h : Instr.WellFormed (.anyOtherStateless c) p) :
    decode (encode (.anyOtherStateless c) p) p = .ok (.anyOtherStateless c) := by
  refine congrArg _ ((decodeStateless_other_iff c c).2 ⟨fun hmem => ?_, rfl⟩)
  simp [Instr.WellFormed, Instr.check, hmem] at h

/-- Settles O1, row by row. Where the code holds constants alone the decoder computes; the other rows go
by their operand: a Boolean, which has two codes; a payload, which `len` counts; a byte, which no other row
takes; or one of the two command byte parameters. -/
theorem decodeOfEncode : Obligations.DecodeOfEncode := by
  intro p i h
  cases i with
  | crcBit d | owWbit d | owSetod d => cases d <;> rfl
  | crcBuf din | owWbytes din | seqWriteScratch a din | seqWriteMem t pg din | bwRw1990V1 din
  | bwRw1990V2 din | bwTm2004 din => exact withPayload_encoded h _ _
  | reservedOpsel op => exact decode_encode_reserved h p
  | skipRom => exact congrArg _ (decodeStateful_skipRom .ds1992 .idle p)
  | overdriveSkipRom => exact congrArg _ (decodeStateful_overdriveSkipRom .idle p)
  | unrecognisedStateful c => exact decode_encode_unrecognised h
  | anyOtherStateless c => exact decode_encode_anyOther h
  | hostSkipRom => exact decodeHost_skipRom p
  | hostOverdriveSkipRom => exact decodeHost_overdriveSkipRom p
  | _ => rfl

/-- Settles O2: each word computes. -/
theorem specWordsDecode : Obligations.SpecWordsDecode :=
  ⟨rfl, rfl, rfl, rfl, rfl, rfl, rfl, rfl, rfl, rfl, rfl⟩

/-- Settles O3: what is decoded as reserved is what R92 has no row for, and its one meaning is the refusal
(R93). -/
theorem reservedSelects : Obligations.ReservedSelects := by
  refine ⟨fun fam w => ?_, fun s op hfault => ?_⟩
  · rw [decodePort_reserved_iff, not_mem_assignedSelects_iff]
  · show Machine.execReservedOpsel op s = _
    simp [Machine.execReservedOpsel, Machine.portOp, Machine.RolePolicy.allows, Machine.refuse, hfault]

/-- Settles O5: a byte is decoded after its direction, the command state and what sends it. -/
theorem oneByteSeveralMeanings : Obligations.OneByteSeveralMeanings := by
  refine ⟨fun p f hstate => ?_, fun _ _ _ => rfl, fun _ => rfl, fun p st => ?_,
    decodeHost_overdriveSkipRom, fun _ _ => rfl, rfl⟩
  · simp only [decode_bus, decodeBus_selOf, hstate, if_true]
    exact ⟨rfl, rfl, rfl⟩
  · exact congrArg _ (decodeStateful_overdriveSkipRom st p)

/-- Settles O7: in each group the bytes are compared one after another. -/
theorem subStepBytes : Obligations.SubStepBytes := by
  rintro ⟨cmd, group, a16, len, t32, bit, data⟩ p
  cases group <;> rfl

end Sys2Proof
end

section
/-! PROOFS. Commands that get no response (R99, R229, R232), and the step as a fetch (R91, R198, R335). -/

namespace Sys2Proof.Machine

/-! ## Commands without a response -/

/-- Which bytes a family does not recognise, by family (R99). -/
theorem decodeBus_unrecognised_iff (f : Family) (st : CmdState) (c : Byte) (p : CommandBytes) :
    (decodeBus (selOf f) st c p = .unrecognisedStateful c ∨
      decodeBus (selOf f) st c p = .anyOtherStateless c) ↔
    if hasState f then c ∉ statefulBytes p ∧ ¬(c = p.overdriveSkipRom ∧ f = .ds1996)
    else c ∉ statelessBytes := by
  rw [decodeBus_selOf]
  split
  · simp [decodeStateful_unrecognised_iff, decodeStateful_ne_other]
  · simp [decodeStateless_other_iff, decodeStateless_ne_unrecognised]

/-- A command that is not accepted in a session leaves the engine waiting for a reset (R99). -/
theorem busCommand_refused {s : State} (h : s.role = .slave) :
    busCommand false (fun s => s) s = .next (waitForReset s) := by
  simp [busCommand, h, endCommand]

/-- Settles O6: the decoder's lists family by family, and the one meaning of the refused rows. -/
theorem unrecognisedBytes : Obligations.UnrecognisedBytes := by
  refine ⟨fun p f st c => ?_, fun s c hrole i hi => ?_⟩
  · rw [decodeBus_unrecognised_iff]
    cases f <;> simp [hasState, statefulBytes, statelessBytes, Config.cmdSearchRom, Config.cmdReadRom,
      and_assoc]
  · simp only [List.mem_cons, List.not_mem_nil, or_false] at hi
    obtain rfl | rfl | rfl | rfl := hi <;> exact busCommand_refused hrole

/-! ## The step -/

theorem runCode_ok {c : Code} {s : State} {i : Instr} (h : decode c s.cmdBytes = .ok i) :
    runCode c s = exec i s := by
  simp [runCode, h]

/-- The command port is served when no sub-step waits (R91). -/
theorem step_port {s : State} {w : PortWord} {rest : List Input} (hq : s.qStep = [])
    (hi : s.inputs = .port w :: rest) :
    step s = runCode (.port s.fam w) { s with inputs := rest } := by
  simp only [step, hq, hi]

/-- A sub-step that waits comes before everything from outside (R36, R335). -/
theorem step_subStep {s : State} {f : HostFrame} {fs : List HostFrame} (hq : s.qStep = f :: fs) :
    step s = mapNext closeSequence (runCode (.host f) { s with qStep := fs }) := by
  simp only [step, hq]

/-- With its eighth slot a command byte is decoded for the family in force and the command state (R198). -/
theorem slaveStep_lastBit {u : State} (hphase : u.slPhase = .recvCmd) (hbit : u.sFramer.bitcnt + 1 = 8)
    (m : Bool) :
    slaveStep (.slot m) u = runCode (.bus u.fam u.cmdState (shiftIn m u.sFramer.sh))
      (slavePlayed [.sRecv m true] { u with slErr := .none, slPhase := .respond, sFramer := {} }) := by
  rw [slaveStep_recv _ u hphase, recv_command m u hbit]
  rfl

/-- Settles O8: the step fetches a port operation, a sub-step, or the command of which the last bit arrives,
and what runs it is `runCode`. -/
theorem stepRunsDecodedInstruction : Obligations.StepRunsDecodedInstruction := by
  refine ⟨fun s w rest i hq hi hd => ?_, fun s m rest c i hq hrole hphase hbit hi hc hd => ?_,
    fun s f fs i hq hd => ?_⟩
  · exact (step_port hq hi).trans (runCode_ok hd)
  · subst hc
    have hlast : s.sFramer.bitcnt + 1 = 8 := by rw [hbit]; rfl
    rw [step_act hq hi hrole]
    refine (slaveStep_lastBit (u := waited 0 { s with inputs := rest }) hphase hlast m).trans
      (runCode_ok ?_)
    have hfam : (waited 0 { s with inputs := rest }).fam = s.famHeld := if_pos hrole
    rw [hfam]
    exact hd
  · rw [step_subStep hq]
    exact congrArg (mapNext closeSequence) (runCode_ok hd)

end Sys2Proof.Machine
end

section
/-! PROOFS. The commands that a host sequence sends (R97, R100): each is a sub-step that says its events or
plays its moves, and what it reads is stored. -/

namespace Sys2Proof.Machine

/-- A change that neither reads nor writes the hidden registers does not tell such states apart. -/
theorem SameButHidden.map {t u : State} (k : SameButHidden t u) {g : State → State}
    (hg : ∀ (v : State) h p i e m,
      g { v with hFramer := h, qPage := p, qIdx := i, qElapsed := e, qMismatch := m } =
        { g v with hFramer := h, qPage := p, qIdx := i, qElapsed := e, qMismatch := m })
    (hidle : ∀ v : State, (g v).hFramer = v.hFramer) : SameButHidden (g t) (g u) := by
  obtain ⟨h, p, i, e, m, rfl, hi⟩ := k
  exact ⟨h, p, i, e, m, hg .., fun hu => hi (hidle u ▸ hu)⟩

/-- Where a payload that has been read is kept (log entry 20). -/
theorem SameButHidden.answer {t u : State} (k : SameButHidden t u) (d : List Byte) :
    SameButHidden { t with dout := d } { u with dout := d } :=
  k.map (g := fun v => { v with dout := d }) (fun _ _ _ _ _ _ => rfl) fun _ => rfl

/-- Where the rest of a sequence waits (log entry 20). -/
theorem SameButHidden.rest {t u : State} (k : SameButHidden t u) (q : List HostFrame) :
    SameButHidden { t with qStep := q } { u with qStep := q } :=
  k.map (g := fun v => { v with qStep := q }) (fun _ _ _ _ _ _ => rfl) fun _ => rfl

/-- The speed of the host framer (R159). -/
theorem SameButHidden.speed {t u : State} (k : SameButHidden t u) (b : Bool) :
    SameButHidden (hostSetOverdrive b t) (hostSetOverdrive b u) :=
  k.map (g := hostSetOverdrive b) (fun _ _ _ _ _ _ => rfl) fun _ => rfl

/-- The sub-steps still to run are no hidden register. -/
theorem SameButHidden.qStep {t u : State} (k : SameButHidden t u) : t.qStep = u.qStep := by
  obtain ⟨_, _, _, _, _, rfl, _⟩ := k
  rfl

/-- 0xA5 and the settle delay, R272 (d). -/
theorem says_ds1971Finalization : Says (writeEvents [0xA5] ++ [.hDelay 250]) frameDs1971Finalization :=
  ((says_writeByte 0xA5).comp (says_delay Config.tDs1971Settle)).to rfl fun _ => rfl

/-- 0xD1, R302: bit 1 locks. -/
theorem says_v1Lock (b : Bool) :
    Says (writeEvents [0xD1] ++ (if b then [.hWrite true, .hDelay 10000]
      else [.hDelay Config.tRwShort, .hWrite false, .hDelay 5000])) (frameV1Lock b) := by
  cases b with
  | false => exact says_rwUnlock 0xD1 false
  | true => exact says_rwLock 0xD1 true

/-- 0x1D, R303: bit 1 unlocks. -/
theorem says_v2Lock (b : Bool) :
    Says (writeEvents [0x1D] ++ (if b then [.hDelay Config.tRwShort, .hWrite true, .hDelay 5000]
      else [.hWrite false, .hDelay 10000])) (frameV2Lock b) := by
  cases b with
  | false => exact says_rwLock 0x1D false
  | true => exact says_rwUnlock 0x1D true

section
variable {s : State} (hr : s.role = .host)
include hr

/-- A sub-step that writes and delays. -/
theorem hostCommand_says {es : List WireEvent} {f : State → State} (hf : Says es f) :
    ∃ t, hostCommand (fun s => (true, f s)) s = .next t ∧ SameButHidden t (played es s) :=
  ⟨f s, hostCommand_ok hr f, hf.2 s⟩

/-- A sub-step that can fail; if it does, the rest of the sequence is dropped (R260). -/
theorem hostCommand_plays {ms : List Move} {f : State → Bool × State} (hf : Plays ms f) :
    ∃ t, hostCommand f s = .next t ∧
      SameButHidden t { afterMoves ms s with qStep := if movesOk ms s then s.qStep else [] } := by
  obtain ⟨hok, hsame⟩ := hf.2 s
  refine ⟨{ (f s).2 with qStep := if movesOk ms s then s.qStep else [] }, ?_, hsame.rest _⟩
  have hq : (f s).2.qStep = s.qStep := hsame.qStep
  simp only [hostCommand, hr, ne_eq, not_true_eq_false, if_false, hok, ← hq]
  split <;> rfl

/-- 0x33, R262. -/
theorem hostReadRom_sent :
    ∃ (r : Vector Byte 8) (t : State), wireBits r.toList = nextBits 64 s.oracle ∧
      exec .hostReadRom s = .next t ∧
      SameButHidden t { played (writeEvents [0x33] ++ readEvents (wireBits r.toList)) s with rom := r } := by
  obtain ⟨r, hbits, hsame⟩ := frameReadRom_same s
  exact ⟨r, _, hbits, hostCommand_ok hr frameReadRom, hbits ▸ hsame⟩

/-- 0xAA, R264. -/
theorem hostReadScratch_sent (len : Half) :
    ∃ (r : Vector Byte 3) (d : List Byte) (t : State),
      wireBits (r.toList ++ d) = nextBits (24 + 8 * len.toNat) s.oracle ∧ d.length = len.toNat ∧
      exec (.hostReadScratch len) s = .next t ∧
      SameButHidden t { played (writeEvents [0xAA] ++ readEvents (wireBits (r.toList ++ d))) s with
        aregs := r, dout := d } := by
  obtain ⟨r, d, hlen, hbits, rfl, hsame⟩ := frameReadScratch_same len.toNat s
  exact ⟨r, _, _, hbits, hlen, hostCommand_ok hr fun s =>
    { (frameReadScratch len.toNat s).2 with dout := (frameReadScratch len.toNat s).1 }, hsame.answer _⟩

/-- 0xF0, R266. -/
theorem hostReadMem_sent (a len : Half) :
    ∃ (d : List Byte) (t : State),
      wireBits d = nextBits (8 * len.toNat) s.oracle ∧ d.length = len.toNat ∧
      exec (.hostReadMem a len) s = .next t ∧
      SameButHidden t { played (writeEvents [0xF0, addrLo a, addrHi a] ++ readEvents (wireBits d)) s with
        dout := d } := by
  obtain ⟨d, hlen, hbits, rfl, hsame⟩ := frameReadMem_same a len.toNat s
  exact ⟨_, _, hbits, hlen, hostCommand_ok hr fun s =>
    { (frameReadMem a len.toNat s).2 with dout := (frameReadMem a len.toNat s).1 }, hsame.answer _⟩

/-- `CMD_SKIP_ROM`, R261. -/
theorem hostSkipRom_sent :
    ∃ t, exec .hostSkipRom s = .next t ∧ SameButHidden t (played (writeEvents [s.cmdBytes.skipRom]) s) :=
  ⟨_, hostCommand_ok hr fun s => frameSkipRom s.cmdBytes s, (says_writeByte s.cmdBytes.skipRom).2 s⟩

/-- `CMD_OVERDRIVE_SKIP_ROM` at the old speed, then overdrive (R269). -/
theorem hostOverdriveSkipRom_sent :
    ∃ t, exec .hostOverdriveSkipRom s = .next t ∧
      SameButHidden t { played (writeEvents [s.cmdBytes.overdriveSkipRom]) s with odHost := true } :=
  ⟨_, hostCommand_ok hr fun s => frameOverdriveSkipRom s.cmdBytes s,
    ((says_writeByte s.cmdBytes.overdriveSkipRom).2 s).speed true⟩

end

/-- Settles O59: a row that reads stores what it has read, the rows that can fail play their moves, and
every other row says its events. -/
theorem sentCommandFrames : Obligations.SentCommandFrames := fun _ hr =>
  ⟨hostReadRom_sent hr,
    fun a data => hostCommand_says hr (says_writeScratch a data),
    hostReadScratch_sent hr,
    fun us => hostCommand_plays hr (plays_copyScratch us),
    hostReadMem_sent hr,
    hostSkipRom_sent hr,
    hostOverdriveSkipRom_sent hr,
    hostCommand_says hr says_ds1971Finalization,
    fun b => hostCommand_says hr (says_v1Lock b),
    fun data => hostCommand_says hr (says_rwWrite data),
    fun b => hostCommand_says hr (says_v2Lock b),
    hostCommand_ok hr id,
    fun data => hostCommand_plays hr (plays_tm2004 data)⟩

end Sys2Proof.Machine
end

section
/-! PROOFS. The algebra of the CRC (R120 to R123): every step is linear over xor, a byte step is a matter of
`c xor b` alone, and it loses nothing of that. What R123 says of sequences follows from these three. -/

namespace Sys2Proof.Machine

/-! ## Bit steps and byte steps -/

/-- Settles O15: the formula is the model's own, and each bit of it is the bit above, with the feedback where
0x8C has a one. -/
theorem crcBitLayout : Obligations.CrcBitLayout := by
  intro c d
  refine ⟨rfl, ?_⟩
  simp only [crc8Bit]
  cases c.getLsbD 0 ^^ d <;> simp

/-- The feedback of two registers together is that of each. -/
theorem feedback_xor (f g : Bool) :
    (if f ^^ g then (0x8C : Byte) else 0x00) =
      (if f then 0x8C else 0x00) ^^^ (if g then 0x8C else 0x00) := by
  revert f g; decide

/-- The bit step is linear: its shift is, and its feedback is. -/
theorem crc8Bit_xor (c c' : Byte) (d d' : Bool) :
    crc8Bit (c ^^^ c') (d ^^ d') = crc8Bit c d ^^^ crc8Bit c' d' := by
  have hfb : ((c ^^^ c').getLsbD 0 ^^ (d ^^ d')) = ((c.getLsbD 0 ^^ d) ^^ (c'.getLsbD 0 ^^ d')) := by
    simp only [BitVec.getLsbD_xor, Bool.xor_assoc, Bool.xor_left_comm d]
  simp only [crc8Bit, hfb, feedback_xor, BitVec.ushiftRight_xor_distrib]
  ac_rfl

theorem crc8Bits_xor (c c' : Byte) : ∀ (ds ds' : List Bool), ds.length = ds'.length →
    crc8Bits (c ^^^ c') (List.zipWith (· ^^ ·) ds ds') = crc8Bits c ds ^^^ crc8Bits c' ds' := by
  intro ds
  induction ds generalizing c c' with
  | nil => rintro (_ | _) h <;> [rfl; cases h]
  | cons d ds ih =>
    rintro (_ | ⟨d', ds'⟩) h
    · cases h
    · exact (congrArg (crc8Bits · _) (crc8Bit_xor c c' d d')).trans (ih _ _ ds' (Nat.succ.inj h))

theorem bitsOf_xor (b b' : Byte) :
    bitsOf (b ^^^ b') = List.zipWith (· ^^ ·) (bitsOf b) (bitsOf b') := by
  simp [bitsOf]

/-- The byte step is linear, as eight bit steps. -/
theorem crc8Byte_xor (c c' b b' : Byte) :
    crc8Byte (c ^^^ c') (b ^^^ b') = crc8Byte c b ^^^ crc8Byte c' b' := by
  rw [crc8Byte, bitsOf_xor]
  exact crc8Bits_xor c c' (bitsOf b) (bitsOf b') rfl

/-- A register fed with its own value has no feedback in any of the eight steps. -/
theorem crc8Byte_self (c : Byte) : crc8Byte c c = 0x00 := by
  revert c; decide

/-- The table entry `T[c xor b]` (R121). -/
theorem crc8Byte_eq_table (c b : Byte) : crc8Byte c b = crc8Byte 0x00 (c ^^^ b) :=
  calc crc8Byte c b
    _ = crc8Byte c b ^^^ crc8Byte c c := by simp [crc8Byte_self]
    _ = crc8Byte (c ^^^ c) (b ^^^ c) := (crc8Byte_xor c c b c).symm
    _ = crc8Byte 0x00 (c ^^^ b) := by simp [BitVec.xor_comm b c]

theorem crc8ByteParallel_zero (x : Byte) : crc8ByteParallel 0x00 x = crc8Byte 0x00 x := by
  revert x; decide

/-- Settles O16: both forms depend on `c xor b` alone, so they agree if their tables do. -/
theorem crcByteForms : Obligations.CrcByteForms := by
  intro c b
  have htable := crc8Byte_eq_table c b
  have hparallel : crc8ByteParallel c b = crc8ByteParallel 0x00 (c ^^^ b) := by
    simp [crc8ByteParallel]
  exact ⟨by rw [htable, hparallel, crc8ByteParallel_zero], htable⟩

/-- The table has a zero for 0x00 and no other. -/
theorem crc8Byte_zero_eq_zero_iff (x : Byte) : crc8Byte 0x00 x = 0x00 ↔ x = 0x00 := by
  revert x; decide

theorem crc8Byte_eq_zero_iff (c b : Byte) : crc8Byte c b = 0x00 ↔ c = b := by
  rw [crc8Byte_eq_table, crc8Byte_zero_eq_zero_iff]
  exact BitVec.xor_eq_zero_iff

/-- The byte step loses nothing of `c xor b`. -/
theorem crc8Byte_inj (c c' b b' : Byte) :
    crc8Byte c b = crc8Byte c' b' ↔ c ^^^ c' = b ^^^ b' := by
  rw [← BitVec.xor_eq_zero_iff, ← crc8Byte_xor]
  exact crc8Byte_eq_zero_iff _ _

theorem crc8Byte_left_inj (c c' b : Byte) : crc8Byte c b = crc8Byte c' b ↔ c = c' := by
  rw [crc8Byte_inj, BitVec.xor_self]
  exact BitVec.xor_eq_zero_iff

theorem crc8Byte_right_inj (c b b' : Byte) : crc8Byte c b = crc8Byte c b' ↔ b = b' := by
  rw [crc8Byte_inj, BitVec.xor_self, eq_comm]
  exact BitVec.xor_eq_zero_iff

/-- Settles O20: the step is injective, and there are as many values before it as after it. -/
theorem crcByteBijective : Obligations.CrcByteBijective := fun b =>
  Finite.injective_iff_bijective.1 fun c c' h => (crc8Byte_left_inj c c' b).1 h

/-! ## Sequences -/

theorem crc8Buf_xor (c c' : Byte) : ∀ (s t : List Byte), s.length = t.length →
    crc8Buf (c ^^^ c') (List.zipWith (· ^^^ ·) s t) = crc8Buf c s ^^^ crc8Buf c' t := by
  intro s
  induction s generalizing c c' with
  | nil => rintro (_ | _) h <;> [rfl; cases h]
  | cons a s ih =>
    rintro (_ | ⟨b, t⟩) h
    · cases h
    · exact (congrArg (crc8Buf · _) (crc8Byte_xor c c' a b)).trans (ih _ _ t (Nat.succ.inj h))

theorem crc8Buf_zeros (n : Nat) : crc8Buf 0x00 (List.replicate n 0x00) = 0x00 := by
  induction n with
  | zero => rfl
  | succ n ih => rwa [List.replicate_succ, crc8Buf, crc8Byte_self]

theorem zipWith_xor_zeros (s : List Byte) :
    List.zipWith (· ^^^ ·) (List.replicate s.length 0x00) s = s := by
  induction s with
  | nil => rfl
  | cons b s ih => simpa [List.replicate_succ] using ih

/-- Settles O18: the second equation splits the register from the data, `c` from `0x00` and the zeros from
the sequence. -/
theorem crcLinear : Obligations.CrcLinear := by
  refine ⟨crc8Buf_zeros, fun s t h => ⟨crc8Buf_xor 0x00 0x00 s t h, fun c => ?_⟩⟩
  have hsplit := crc8Buf_xor c 0x00 (List.replicate s.length 0x00) s List.length_replicate
  rw [zipWith_xor_zeros] at hsplit
  simpa using hsplit

theorem crc8Buf_append_eq_zero_iff (s : List Byte) (v : Byte) :
    crc8Buf 0x00 (s ++ [v]) = 0x00 ↔ v = crc8Buf 0x00 s := by
  rw [crc8Buf_append, crc8Buf, crc8Buf, crc8Byte_eq_zero_iff, eq_comm]

/-- Two registers that differ still differ after the same sequence. -/
theorem crc8Buf_left_inj (s : List Byte) (c c' : Byte) : crc8Buf c s = crc8Buf c' s ↔ c = c' := by
  induction s generalizing c c' with
  | nil => exact Iff.rfl
  | cons b s ih => exact (ih _ _).trans (crc8Byte_left_inj c c' b)

/-- One byte changed changes the CRC: the registers are the same before it, differ after it, and go on to
differ. -/
theorem crc8Buf_set_eq_iff (c v : Byte) {s : List Byte} {i : Nat} (h : i < s.length) :
    crc8Buf c (s.set i v) = crc8Buf c s ↔ v = s[i] := by
  have hs : s = s.take i ++ s[i] :: s.drop (i + 1) := by simp
  have hset : s.set i v = s.take i ++ v :: s.drop (i + 1) := by
    simp [List.set_eq_take_append_cons_drop, h]
  calc crc8Buf c (s.set i v) = crc8Buf c s
    _ ↔ crc8Buf c (s.take i ++ v :: s.drop (i + 1)) = crc8Buf c (s.take i ++ s[i] :: s.drop (i + 1)) := by
      rw [hset, ← hs]
    _ ↔ v = s[i] := by
      simp only [crc8Buf_append, crc8Buf, crc8Buf_left_inj, crc8Byte_right_inj]

/-! ## The record -/

theorem romAt_eq_getElem (s : State) {i : Nat} (h : i < 8) : s.romAt i = s.rom[i] := by
  simp [State.romAt, h]

theorem rom_toList_split (r : Vector Byte 8) : r.toList = r.toList.take 7 ++ [r[7]] := by
  have h := List.take_append_drop 7 r.toList
  rw [List.drop_eq_getElem_cons (by simp), List.drop_of_length_le (by simp)] at h
  exact h.symm

/-- A record is valid exactly when it leaves nothing in the register (R123 c). -/
theorem romResidue_iff (r : Vector Byte 8) : crc8Buf 0x00 r.toList = 0x00 ↔ romCrc r = r[7] := by
  rw [rom_toList_split, crc8Buf_append_eq_zero_iff, eq_comm]
  rfl

/-- Settles O19: the last step gives 0x00 exactly when the register and the last byte are equal. -/
theorem crcResidue : Obligations.CrcResidue :=
  ⟨crc8Buf_append_eq_zero_iff, fun s => by
    rw [romAt_eq_getElem s (by decide)]
    exact romResidue_iff s.rom⟩

end Sys2Proof.Machine
end

section
/-! PROOFS. The checks in front of a port operation (R324), the operations on the CRC register and on the
record (R124 to R130, R137), and the round trip and the sensitivity of the record (R123). -/

namespace Sys2Proof.Machine

/-! ## The checks of R324 -/

section
variable {s : State} {policy : RolePolicy} {supported inRange : Bool} {run : State → State}

/-- Check 3: a session refuses what R335 keeps out of it, before the checks of family and range. -/
theorem portOp_inSession (hf : s.fault = false) (hr : s.role = .slave) :
    portOp .notSlave supported inRange run s = .next (refuse .errRole s) := by
  simp [portOp, hf, hr, RolePolicy.allows]

/-- Check 5, in a role that allows the operation. -/
theorem portOp_outOfRange (hf : s.fault = false) (hp : policy.allows s.role = true)
    (hrange : inRange = false) : portOp policy true inRange run s = .next (refuse .errRange s) := by
  simp [portOp, hf, hp, hrange]

/-- No check refuses the operation. -/
theorem portOp_passed (hf : s.fault = false) (hp : policy.allows s.role = true)
    (hrange : inRange = true) : portOp policy true inRange run s = .next (run s) := by
  simp [portOp, hf, hp, hrange]

/-- An operation of every role that has no check of its own. -/
theorem portOp_always (hf : s.fault = false) : portOp .always true true run s = .next (run s) :=
  portOp_passed hf rfl rfl

end

theorem notSlave_allows {r : Role} (h : r ≠ .slave) : RolePolicy.notSlave.allows r = true := by
  simpa [RolePolicy.allows] using h

/-! ## The meanings of these operations -/

section
variable (s : State) (a : Half) (d : Byte)

theorem exec_nop : exec .nop s = execNop s := rfl
theorem exec_crcClr : exec .crcClr s = execCrcClr s := rfl
theorem exec_crcBit (b : Bool) : exec (.crcBit b) s = execCrcBit b s := rfl
theorem exec_crcByte : exec (.crcByte d) s = execCrcByte d s := rfl
theorem exec_crcBuf (din : List Byte) : exec (.crcBuf din) s = execCrcBuf din s := rfl
theorem exec_crcGet : exec .crcGet s = execCrcGet s := rfl
theorem exec_romValid : exec .romValid s = execRomValid s := rfl
theorem exec_romApply : exec (.romApply d) s = execRomApply d s := rfl
theorem exec_romWr : exec (.romWr a d) s = execRomWr a d s := rfl
theorem exec_romRd : exec (.romRd a) s = execRomRd a s := rfl
theorem exec_memWr : exec (.memWr a d) s = execMemWr a d s := rfl
theorem exec_memRd : exec (.memRd a) s = execMemRd a s := rfl
theorem exec_aregsWr : exec (.aregsWr a d) s = execAregsWr a d s := rfl
theorem exec_aregsRd : exec (.aregsRd a) s = execAregsRd a s := rfl

end

/-! ## The CRC register -/

theorem decodePort_crcBuf {w : PortWord} (h : w.opsel = 0x04) (hlen : w.din.length = w.len.toNat)
    (fam : FamSel) : decodePort fam w = .ok (.crcBuf w.din) := by
  simp [decodePort, h, withPayload, hlen]

/-- Settles O21: no check refuses these operations, so each answers what its meaning says. -/
theorem crcRegisterOperations : Obligations.CrcRegisterOperations := by
  intro s w hf
  refine ⟨fun h => ⟨by simp [decodePort, h], ?_⟩, fun h => ⟨by simp [decodePort, h], ?_⟩,
    fun h => ⟨by simp [decodePort, h], ?_⟩, fun h => ⟨by simp [decodePort, h], ?_⟩,
    fun h hlen => ⟨decodePort_crcBuf h hlen _, ?_⟩, fun h => ⟨by simp [decodePort, h], ?_⟩⟩
  · rw [exec_nop, execNop, portOp_always hf]
  · rw [exec_crcClr, execCrcClr, portOp_always hf]
  · rw [exec_crcBit, execCrcBit, portOp_always hf]
  · rw [exec_crcByte, execCrcByte, portOp_always hf]
  · rw [exec_crcBuf, execCrcBuf, portOp_always hf]
  · rw [exec_crcGet, execCrcGet, portOp_always hf]

/-! ## The record -/

theorem setIfInBounds_eq_set {n i : Nat} (h : i < n) (r : Vector Byte n) (v : Byte) :
    r.setIfInBounds i v = r.set i v := by
  ext
  simp [Vector.getElem_set, Vector.getElem_setIfInBounds]

theorem storeRom_eq_set (s : State) {i : Nat} (h : i < 8) (v : Byte) :
    storeRom i v s = { s with rom := s.rom.set i v } := by
  rw [storeRom, setIfInBounds_eq_set h]

/-- `ROM.VALID` (R129): the verdict compares the CRC with the byte 7. -/
theorem romValid_next {s : State} (hf : s.fault = false) :
    exec .romValid s =
      .next (replyVerdict (romCrc s.rom == s.romAt 7) (romCrc s.rom) { s with crc := romCrc s.rom }) := by
  rw [exec_romValid, execRomValid, portOp_always hf]

/-- The record that `ROM.APPLY` leaves (R130): this byte 0, the serial number, and their CRC. -/
def appliedRecord (d : Byte) (r : Vector Byte 8) : Vector Byte 8 :=
  (r.set 0 d).set 7 (romCrc (r.set 0 d))

/-- The checksum byte has no part in the checksum. -/
theorem romCrc_set_seven (r : Vector Byte 8) (v : Byte) : romCrc (r.set 7 v) = romCrc r := by
  simp [romCrc, Vector.toList_set, List.take_set_of_le]

theorem romCrc_appliedRecord (d : Byte) (r : Vector Byte 8) :
    romCrc (appliedRecord d r) = romCrc (r.set 0 d) := romCrc_set_seven _ _

/-- Byte 0 is the operand, and the bytes 1 to 6 are those of the record. -/
theorem romCrc_set_zero (d : Byte) (r : Vector Byte 8) :
    romCrc (r.set 0 d) = crc8Buf 0x00 (d :: (r.toList.take 7).drop 1) := by
  simp [romCrc, Vector.toList_set, List.set_eq_take_append_cons_drop, List.drop_take]

theorem appliedRecord_zero (d : Byte) (r : Vector Byte 8) : (appliedRecord d r)[0] = d := by
  simp [appliedRecord]

theorem appliedRecord_seven (d : Byte) (r : Vector Byte 8) :
    (appliedRecord d r)[7] = romCrc (r.set 0 d) := Vector.getElem_set_self _

theorem appliedRecord_serial (d : Byte) (r : Vector Byte 8) {k : Nat} (h1 : 1 ≤ k) (h6 : k ≤ 6) :
    (appliedRecord d r)[k] = r[k] := by
  rw [appliedRecord, Vector.getElem_set_ne _ _ (by omega), Vector.getElem_set_ne _ _ (by omega)]

/-- The byte 0 is already there. -/
theorem appliedRecord_set_zero (d : Byte) (r : Vector Byte 8) :
    (appliedRecord d r).set 0 d = appliedRecord d r := by
  rw [appliedRecord, Vector.set_comm _ _ (by decide), Vector.set_set]

theorem appliedRecord_idem (d : Byte) (r : Vector Byte 8) :
    appliedRecord d (appliedRecord d r) = appliedRecord d r :=
  calc appliedRecord d (appliedRecord d r)
    _ = (appliedRecord d r).set 7 (romCrc (appliedRecord d r)) := by
      rw [appliedRecord, appliedRecord_set_zero]
    _ = appliedRecord d r := by
      rw [romCrc_appliedRecord, appliedRecord, Vector.set_set]

/-- The state that `ROM.APPLY` leaves. -/
def romApplied (d : Byte) (s : State) : State :=
  reply true (romCrc (s.rom.set 0 d)) []
    { s with rom := appliedRecord d s.rom, crc := romCrc (s.rom.set 0 d) }

theorem romApplied_rom (d : Byte) (s : State) : (romApplied d s).rom = appliedRecord d s.rom := rfl

/-- `ROM.APPLY` outside a session (R130). -/
theorem romApply_next {s : State} (h : HostReady s) (d : Byte) :
    exec (.romApply d) s = .next (romApplied d s) := by
  rw [exec_romApply, execRomApply, portOp_ready h]
  simp only [storeRom_eq_set s (show 0 < 8 by decide), storeRom_eq_set _ (show 7 < 8 by decide)]
  rfl

theorem romApplied_idem (d : Byte) (s : State) : romApplied d (romApplied d s) = romApplied d s := by
  rw [romApplied, romApplied_rom, appliedRecord_idem, appliedRecord_set_zero, romCrc_appliedRecord]
  rfl

/-- Settles O22: the verdict and the record left are those of `romValid_next` and `romApply_next`; in a
session `ROM.APPLY` stops at the role check. -/
theorem romRecordOperations : Obligations.RomRecordOperations := by
  intro s w hf
  refine ⟨fun h => ⟨by simp [decodePort, h], ?_⟩, fun h => ⟨by simp [decodePort, h], fun hr => ?_,
    fun hr => ?_⟩⟩
  · rw [romValid_next hf, romAt_eq_getElem s (by decide)]
    rfl
  · rw [romApply_next ⟨hf, hr⟩, romApplied, appliedRecord, romCrc_set_zero]
  · rw [exec_romApply, execRomApply, portOp_inSession hf hr]

/-- Settles O23: `ROM.APPLY` writes the byte 0 and the CRC that `ROM.VALID` computes, and a second one
writes the same. -/
theorem applyThenValid : Obligations.ApplyThenValid := by
  intro s d h
  have hready : HostReady (romApplied d s) := h
  refine ⟨_, romApply_next h d, ?_, fun k h1 h6 => ?_, ⟨_, romValid_next hready.1, ?_, rfl, rfl⟩, ?_⟩
  · rw [romAt_eq_getElem _ (by decide)]
    exact appliedRecord_zero d s.rom
  · rw [romAt_eq_getElem _ (by omega), romAt_eq_getElem _ (by omega)]
    exact appliedRecord_serial d s.rom h1 h6
  · rw [romAt_eq_getElem _ (by decide)]
    exact beq_iff_eq.2 ((romCrc_appliedRecord d s.rom).trans (appliedRecord_seven d s.rom).symm)
  · rw [romApply_next hready, romApplied_idem]

/-! ## A bit of the record flipped -/

/-- A valid record with one byte changed is no longer valid. -/
theorem romCrc_set_ne {r : Vector Byte 8} (hvalid : romCrc r = r[7]) {i : Nat} (hi : i < 8) {v : Byte}
    (hv : v ≠ r[i]) : romCrc (r.set i v) ≠ (r.set i v)[7] := by
  have hlen : i < r.toList.length := by simpa using hi
  intro h
  have hsame : crc8Buf 0x00 (r.toList.set i v) = crc8Buf 0x00 r.toList := by
    rw [← Vector.toList_set hi, (romResidue_iff _).2 h, (romResidue_iff r).2 hvalid]
  exact hv (by simpa using (crc8Buf_set_eq_iff 0x00 v hlen).1 hsame)

theorem xor_bit_ne (b : Byte) {m : Nat} (h : m < 8) : b ^^^ BitVec.ofNat 8 (2 ^ m) ≠ b := by
  have hbit : ∀ m < 8, BitVec.ofNat 8 (2 ^ m) ≠ 0#8 := by decide
  intro e
  refine hbit m h ?_
  simpa using congrArg (b ^^^ ·) e

/-- Settles O24: the residue of the record was 0x00, and one byte changed changes it. -/
theorem singleBitErrorsAreFound : Obligations.SingleBitErrorsAreFound := by
  intro s k hf hk hvalid
  have hi : k / 8 < 8 := by omega
  rw [romAt_eq_getElem s (by decide)] at hvalid
  rw [romAt_eq_getElem s hi, storeRom_eq_set s hi]
  refine ⟨_, romValid_next hf, ?_, rfl⟩
  rw [romAt_eq_getElem _ (by decide)]
  exact beq_eq_false_iff_ne.2 (romCrc_set_ne hvalid hi (xor_bit_ne _ (Nat.mod_lt k (by decide))))

end Sys2Proof.Machine
end

section
/-! PROOFS. Byte access to the record, to AREGS and to MEM (R131 to R136, R69). -/

namespace Sys2Proof.Machine

theorem aregAt_eq_getElem (s : State) {i : Nat} (h : i < 3) : s.aregAt i = s.aregs[i] := by
  simp [State.aregAt, h]

theorem storeAreg_eq_set (s : State) {i : Nat} (h : i < 3) (v : Byte) :
    storeAreg i v s = { s with aregs := s.aregs.set i v } := by
  rw [storeAreg, setIfInBounds_eq_set h]

/-- Settles O25, check by check: the role (writes alone), the range, the byte of the record. -/
theorem romAccess : Obligations.RomAccess := by
  intro s w hf
  refine ⟨fun h => ⟨by simp [decodePort, h], fun hr => ?_, fun hr hout => ?_, fun hr hin => ?_⟩,
    fun h => ⟨by simp [decodePort, h], fun hout => ?_, fun hin => ?_⟩⟩
  · rw [exec_romWr, execRomWr, portOp_inSession hf hr]
  · rw [exec_romWr, execRomWr, portOp_outOfRange hf (notSlave_allows hr) (decide_eq_false (by omega))]
  · rw [← storeRom_eq_set s hin, exec_romWr, execRomWr,
      portOp_passed hf (notSlave_allows hr) (decide_eq_true hin)]
  · rw [exec_romRd, execRomRd, portOp_outOfRange hf rfl (decide_eq_false (by omega))]
  · rw [← romAt_eq_getElem s hin, exec_romRd, execRomRd, portOp_passed hf rfl (decide_eq_true hin)]

/-- Settles O26, by the same checks with the bound 3. -/
theorem aregsAccess : Obligations.AregsAccess := by
  intro s w hf
  refine ⟨fun h => ⟨by simp [decodePort, h], fun hr => ?_, fun hr hout => ?_, fun hr hin => ?_⟩,
    fun h => ⟨by simp [decodePort, h], fun hout => ?_, fun hin => ?_⟩⟩
  · rw [exec_aregsWr, execAregsWr, portOp_inSession hf hr]
  · rw [exec_aregsWr, execAregsWr, portOp_outOfRange hf (notSlave_allows hr) (decide_eq_false (by omega))]
  · rw [← storeAreg_eq_set s hin, exec_aregsWr, execAregsWr,
      portOp_passed hf (notSlave_allows hr) (decide_eq_true hin)]
  · rw [exec_aregsRd, execAregsRd, portOp_outOfRange hf rfl (decide_eq_false (by omega))]
  · rw [← aregAt_eq_getElem s hin, exec_aregsRd, execAregsRd, portOp_passed hf rfl (decide_eq_true hin)]

/-- A byte inside the family's memory is inside the array. -/
theorem lt_memArraySize {fam : FamSel} {a : Nat} (h : a < memSize fam) : a < Config.memArraySize :=
  h.trans_le (memSize_le fam)

/-- Settles O27: the byte written is a `memWrite`, of which Laws/Memory.lean says what is read after it. -/
theorem memAccess : Obligations.MemAccess := by
  intro s w hf
  refine ⟨fun h => ⟨by simp [decodePort, h], fun hr => ?_, fun hr hout => ?_,
      fun hr hin hwf => ⟨memWrite s.epoch s.mem w.a16.toNat w.d8, ?_, ?_, fun a => ?_⟩⟩,
    fun h => ⟨by simp [decodePort, h], fun hout => ?_, fun hin => ?_⟩⟩
  · rw [exec_memWr, execMemWr, portOp_inSession hf hr]
  · rw [exec_memWr, execMemWr, portOp_outOfRange hf (notSlave_allows hr) (decide_eq_false (by omega))]
  · rw [exec_memWr, execMemWr, portOp_passed hf (notSlave_allows hr) (decide_eq_true hin)]
    rfl
  · exact wf_memWrite hwf (lt_memArraySize hin)
  · exact memRead_memWrite hwf
  · rw [exec_memRd, execMemRd, portOp_outOfRange hf rfl (decide_eq_false (by omega))]
  · rw [exec_memRd, execMemRd, portOp_passed hf rfl (decide_eq_true hin)]

end Sys2Proof.Machine
end

section
/-! PROOFS. The port operations of the host framer (R161 to R169): what each answers where it may run, by the
closed forms of the framer's primitives, and its decoding. -/

namespace Sys2Proof.Machine

/-! ## The meanings of these operations -/

section
variable (s : State)

theorem exec_owReset : exec .owReset s = execOwReset s := rfl
theorem exec_owWbit (d : Bool) : exec (.owWbit d) s = execOwWbit d s := rfl
theorem exec_owRbit : exec .owRbit s = execOwRbit s := rfl
theorem exec_owWbyte (d : Byte) : exec (.owWbyte d) s = execOwWbyte d s := rfl
theorem exec_owRbyte : exec .owRbyte s = execOwRbyte s := rfl
theorem exec_owWbytes (din : List Byte) : exec (.owWbytes din) s = execOwWbytes din s := rfl
theorem exec_owRbytes (len : Half) : exec (.owRbytes len) s = execOwRbytes len s := rfl
theorem exec_owSetod (d : Bool) : exec (.owSetod d) s = execOwSetod d s := rfl
theorem exec_owDelay (t : Micros) : exec (.owDelay t) s = execOwDelay t s := rfl

end

/-! ## The operations where they may run -/

/-- Check 3: a session refuses `OW.RESET` (R335). -/
theorem owReset_inSession {s : State} (hf : s.fault = false) (hr : s.role = .slave) :
    exec .owReset s = .next (refuse .errRole s) := by
  rw [exec_owReset, execOwReset, hostOp, portOp_inSession hf hr]

section
variable {s : State} (h : HostReady s)
include h

/-- One reset; the response is the presence answer (R161, R152). -/
theorem owReset_next :
    exec .owReset s = .next (endHost (reply (s.oracle.headD false) 0 []
      { played [.hReset (s.oracle.headD false)] s with presence := s.oracle.headD false })) := by
  rw [exec_owReset, execOwReset, hostOp_ready h, hostReset_eq]
  rfl

/-- One write slot (R162, R153). -/
theorem owWbit_next (d : Bool) :
    exec (.owWbit d) s = .next (endHost (reply true 0 [] (played [.hWrite d] s))) := by
  rw [exec_owWbit, execOwWbit, hostOp_ready h, hostWriteBit_eq]
  rfl

/-- One read slot, whose bit is answered in `rdata` (R163, R154). -/
theorem owRbit_next :
    exec .owRbit s = .next (endHost (reply true (bitByte (s.oracle.headD true)) []
      (played [.hRead (s.oracle.headD true)] s))) := by
  rw [exec_owRbit, execOwRbit, hostOp_ready h, hostReadBit_eq]
  rfl

/-- The write slots of one byte (R164, R155). -/
theorem owWbyte_next (d : Byte) :
    ∃ f, exec (.owWbyte d) s =
      .next { endHost (reply true 0 [] (played (writeEvents [d]) s)) with hFramer := f } := by
  obtain ⟨f, hend⟩ := endSays (says_writeByte d) s true 0 []
  refine ⟨f, ?_⟩
  rw [exec_owWbyte, execOwWbyte, hostOp_ready h, hend]

/-- The write slots of a payload (R166, R157). -/
theorem owWbytes_next (din : List Byte) :
    ∃ f, exec (.owWbytes din) s =
      .next { endHost (reply true 0 [] (played (writeEvents din) s)) with hFramer := f } := by
  obtain ⟨f, hend⟩ := endSays (says_writeBytes din) s true 0 []
  refine ⟨f, ?_⟩
  rw [exec_owWbytes, execOwWbytes, hostOp_ready h, hend]

/-- Eight read slots; the byte whose bits they are is answered in `rdata` (R165, R156). -/
theorem owRbyte_next :
    ∃ v f, bitsOf v = nextBits 8 s.oracle ∧ exec .owRbyte s =
      .next { endHost (reply true v [] (played (readEvents (bitsOf v)) s)) with hFramer := f } := by
  have hbits := bits_byte (nextBits 8 s.oracle) (nextBits_length ..)
  refine ⟨_, { sh := byteOf (nextBits 8 s.oracle) }, hbits, ?_⟩
  rw [exec_owRbyte, execOwRbyte, hostOp_ready h, hostReadByte_eq, hbits]
  rfl

/-- The read slots of so many bytes; the bytes whose bits they are are answered in `dout` (R167, R158). -/
theorem owRbytes_next (len : Half) :
    ∃ v f, v.length = len.toNat ∧ wireBits v = nextBits (8 * len.toNat) s.oracle ∧
      exec (.owRbytes len) s =
        .next { endHost (reply true 0 v (played (readEvents (wireBits v)) s)) with hFramer := f } := by
  have hbits := wireBits_bytesOf len.toNat (nextBits (8 * len.toNat) s.oracle) (nextBits_length ..)
  have hread : (hostReadBytes len.toNat (beginHost s)).1 =
      bytesOf len.toNat (nextBits (8 * len.toNat) s.oracle) := hostReadBytes_fst ..
  obtain ⟨f, hend⟩ := endReads len.toNat s true 0 (hostReadBytes len.toNat (beginHost s)).1
  refine ⟨_, f, bytesOf_length .., hbits, ?_⟩
  rw [exec_owRbytes, execOwRbytes, hostOp_ready h, hbits, ← hread, ← hend]

/-- The speed of the host framer, and nothing on the wire (R168, R159). -/
theorem owSetod_next (d : Bool) :
    exec (.owSetod d) s = .next (endHost (reply true 0 [] { s with odHost := d })) := by
  rw [exec_owSetod, execOwSetod, hostOp_ready h]
  rfl

/-- One delay (R169, R160). -/
theorem owDelay_next (t : Micros) :
    exec (.owDelay t) s = .next (endHost (reply true 0 [] (played [.hDelay t.toNat] s))) := by
  rw [exec_owDelay, execOwDelay, hostOp_ready h, hostDelay_eq]
  rfl

end

/-! ## The obligations -/

theorem decodePort_owWbytes {w : PortWord} (h : w.opsel = 0x15) (hlen : w.din.length = w.len.toNat)
    (fam : FamSel) : decodePort fam w = .ok (.owWbytes w.din) := by
  simp [decodePort, h, withPayload, hlen]

/-- Settles O29: the peer's answer outside a session, the refusal in one. -/
theorem owResetResult : Obligations.OwResetResult := by
  intro s w hf hop
  exact ⟨by simp [decodePort, hop], fun hr => owReset_next ⟨hf, hr⟩, owReset_inSession hf⟩

/-- Settles O30: the slots of a byte are its bits in wire order, those of a payload the slots of its bytes in
turn. -/
theorem owWrites : Obligations.OwWrites := by
  intro s w h
  exact ⟨fun hop => ⟨by simp [decodePort, hop], owWbit_next h _⟩,
    fun hop => ⟨by simp [decodePort, hop], owWbyte_next h _⟩,
    fun hop hlen => ⟨decodePort_owWbytes hop hlen _, owWbytes_next h _⟩⟩

/-- Settles O31: the bytes answered are put together from the peer's next answers, and so have these as their
bits. -/
theorem owReads : Obligations.OwReads := by
  intro s w h
  exact ⟨fun hop => ⟨by simp [decodePort, hop], owRbit_next h⟩,
    fun hop => ⟨by simp [decodePort, hop], owRbyte_next h⟩,
    fun hop => ⟨by simp [decodePort, hop], owRbytes_next h w.len⟩⟩

/-- Settles O32: the speed leaves the wire alone, the delay is one event. -/
theorem owSpeedAndDelay : Obligations.OwSpeedAndDelay := by
  intro s w h
  exact ⟨fun hop => ⟨by simp [decodePort, hop], owSetod_next h _⟩,
    fun hop => ⟨by simp [decodePort, hop], owDelay_next h _⟩⟩

end Sys2Proof.Machine
end

section
/-! PROOFS. The byte machines of the host framer, slot by slot (R174, R175). -/

namespace Sys2Proof.Machine

/-! ## Between two slots -/

/-- A byte machine that has drawn `k` of its eight slots: ready for the next one, or at rest with the count
cleared (R35). -/
def framerAfter (k : Nat) (sh : Byte) : HostFramer :=
  if k < 8 then { sh := sh, bitcnt := BitVec.ofNat 4 k, phase := .low } else { sh := sh }

theorem framerAfter_running {k : Nat} (hk : k < 8) (sh : Byte) :
    framerAfter k sh = { sh := sh, bitcnt := BitVec.ofNat 4 k, phase := .low } := if_pos hk

theorem framerAfter_eight (sh : Byte) : framerAfter 8 sh = { sh := sh } := rfl

theorem framerAfter_phase_ne_idle {k : Nat} (hk : k < 8) (sh : Byte) :
    (framerAfter k sh).phase ≠ .idle := by
  simp [framerAfter_running hk]

/-- The end of slot `k`, in whatever phase the slot ends. -/
theorem endSlot_eq_framerAfter {k : Nat} (hk : k < 8) (sh : Byte) (p : HPhase) :
    endSlot { sh := sh, bitcnt := BitVec.ofNat 4 k, phase := p } = framerAfter (k + 1) sh := by
  have hlast : (BitVec.ofNat 4 k + 1 = 8) ↔ ¬ k + 1 < 8 := by
    rw [← BitVec.toNat_inj]
    simp
    omega
  have hnext : BitVec.ofNat 4 k + 1 = BitVec.ofNat 4 (k + 1) := (BitVec.ofNat_add k 1).symm
  by_cases hmore : k + 1 < 8
  · rw [framerAfter_running hmore, endSlot, if_neg (hlast.not.2 (not_not.2 hmore)), hnext]
  · rw [framerAfter, if_neg hmore, endSlot, if_pos (hlast.2 hmore)]

/-! ## The write-byte machine -/

theorem writeMachine_add (t : HostTiming) (m n : Nat) (h : HostFramer) :
    writeMachine t (m + n) h =
      ((writeMachine t n (writeMachine t m h).1).1,
        (writeMachine t m h).2 ++ (writeMachine t n (writeMachine t m h).1).2) := by
  induction m generalizing h with
  | zero => simp [writeMachine]
  | succ m ih => rw [Nat.succ_add, writeMachine, ih, writeMachine, List.append_assoc]

/-- The two phases of a write slot draw the waveform of bit 0 of the shift register (R172). -/
theorem writeMachine_slot (t : HostTiming) {k : Nat} (hk : k < 8) (sh : Byte) :
    writeMachine t 2 (framerAfter k sh) =
      (framerAfter (k + 1) (sh >>> 1), writeWave t (sh.getLsbD 0)) := by
  rw [framerAfter_running hk, ← endSlot_eq_framerAfter hk _ .recover]
  rw [writeMachine, writeMachine, writeMachine, writePhase, writePhase, writeWave]
  cases sh.getLsbD 0 <;> rfl

theorem bitsOf_getElem? (v : Byte) {k : Nat} (hk : k < 8) : (bitsOf v)[k]? = some (v.getLsbD k) := by
  have hall : ∀ i : Fin 8, (bitsOf v)[i.val]? = some (v.getLsbD i) := by
    simp [Fin.forall_fin_succ, bitsOf]
  exact hall ⟨k, hk⟩

/-- After `k` slots: the bits below bit `k` are drawn and shifted out. -/
theorem writeMachine_slots (t : HostTiming) (v : Byte) {k : Nat} (hk : k ≤ 8) :
    writeMachine t (2 * k) (writeByteStart v) =
      (framerAfter k (v >>> k), ((bitsOf v).take k).flatMap (writeWave t)) := by
  induction k with
  | zero => simp [writeMachine, framerAfter, writeByteStart]
  | succ k ih =>
    have hnext : (v >>> k).getLsbD 0 = v.getLsbD k := by simp
    rw [Nat.mul_succ, writeMachine_add, ih (by omega), writeMachine_slot t hk, hnext, ← BitVec.shiftRight_add,
      List.take_add_one, bitsOf_getElem? v hk]
    simp

/-- In the middle of a slot the machine is in its second phase. -/
theorem writeMachine_midSlot_phase (t : HostTiming) (v : Byte) {k : Nat} (hk : k < 8) :
    (writeMachine t (2 * k + 1) (writeByteStart v)).1.phase = .recover := by
  rw [writeMachine_add, writeMachine_slots t v hk.le, framerAfter_running hk]
  rfl

theorem writeMachine_phase_ne_idle (t : HostTiming) (v : Byte) {n : Nat} (hn : n < 16) :
    (writeMachine t n (writeByteStart v)).1.phase ≠ .idle := by
  obtain ⟨k, rfl | rfl⟩ := Nat.even_or_odd' n
  · rw [writeMachine_slots t v (by omega)]
    exact framerAfter_phase_ne_idle (by omega) _
  · rw [writeMachine_midSlot_phase t v (by omega)]
    decide

/-! ## The read-byte machine -/

/-- The three phases of a read slot draw its waveform and shift in the level sampled (R173). -/
theorem readSlot_framerAfter (t : HostTiming) {k : Nat} (hk : k < 8) (b : Bool) (sh : Byte) :
    readSlot t b (framerAfter k sh) = (framerAfter (k + 1) (shiftIn b sh), readWave t) := by
  rw [framerAfter_running hk, ← endSlot_eq_framerAfter hk _ .recover]
  rfl

/-- The shift register after these bits. -/
def shiftInAll (sh : Byte) (bits : List Bool) : Byte := bits.foldl (fun sh b => shiftIn b sh) sh

/-- After these slots: each has drawn the read-slot waveform, and their bits are shifted in. -/
theorem readMachine_slots (t : HostTiming) (bits : List Bool) (k : Nat) (sh : Byte)
    (hk : k + bits.length ≤ 8) :
    readMachine t bits (framerAfter k sh) =
      (framerAfter (k + bits.length) (shiftInAll sh bits), bits.flatMap fun _ => readWave t) := by
  induction bits generalizing k sh with
  | nil => rfl
  | cons b bits ih =>
    rw [List.length_cons] at hk ⊢
    rw [readMachine, readSlot_framerAfter t (by omega), ih _ _ (by omega),
      show k + (bits.length + 1) = k + 1 + bits.length by omega]
    rfl

/-- Eight shifts move the first bit to bit 0. -/
theorem shiftInAll_bitsOf (v : Byte) : shiftInAll 0 (bitsOf v) = v := by
  revert v
  decide

theorem readMachine_start (t : HostTiming) (bits : List Bool) (hlen : bits.length ≤ 8) :
    readMachine t bits readByteStart =
      (framerAfter bits.length (shiftInAll 0 bits), bits.flatMap fun _ => readWave t) := by
  have h := readMachine_slots t bits 0 0 (by omega)
  rwa [Nat.zero_add] at h

/-- Settles O33: sixteen phases are eight write slots; the read machine runs slot by slot. -/
theorem byteMachinesDrawTheSlots : Obligations.ByteMachinesDrawTheSlots := by
  refine fun t => ⟨fun v => ⟨?_, fun n hn => writeMachine_phase_ne_idle t v hn⟩,
    fun v => ⟨?_, fun n hn => ?_⟩⟩
  · have hempty : v >>> 8 = 0 := BitVec.ushiftRight_eq_zero le_rfl
    have hslots := writeMachine_slots t v (le_refl 8)
    rwa [hempty, framerAfter_eight, List.take_of_length_le (bitsOf_length v).le] at hslots
  · rw [readMachine_start t _ le_rfl, bitsOf_length, framerAfter_eight, shiftInAll_bitsOf]
  · have hlen : ((bitsOf v).take n).length = n := List.length_take_of_le hn.le
    rw [readMachine_start t _ (by omega), hlen]
    exact framerAfter_phase_ne_idle hn _

end Sys2Proof.Machine
end

section
/-! PROOFS. The slave framer and its engine: how a low pulse and a wait are classified (R204, R206), the start
and the end of a session (R200, R201), WAIT_RESET (R198), the interruption of a command or of a response
(R203, R326), and one slot of either as a step (R192 to R195, R233 to R235). -/

namespace Sys2Proof.Machine

/-! ## What the line is to the framer -/

section
variable {std od : SlaveTiming} {odSlave : Bool} {l : Nat}

theorem classifyLow_resetStd (h : std.rstlMin.toNat ≤ l) : classifyLow std od odSlave l = .resetStd :=
  if_pos h

theorem classifyLow_resetShort (h : l < std.rstlMin.toNat) (hod : odSlave = true)
    (hmin : od.rstlMin.toNat ≤ l) (hmax : l ≤ od.rstlMax.toNat) :
    classifyLow std od odSlave l = .resetShort := by
  rw [classifyLow, if_neg (Nat.not_le_of_lt h), if_pos ⟨hod, hmin, hmax⟩]

/-- A low pulse that is no reset is a slot; the bit is read under the table of the speed in force (R206). -/
theorem classifyLow_slot (h : l < std.rstlMin.toNat)
    (hno : ¬ (odSlave ∧ od.rstlMin.toNat ≤ l ∧ l ≤ od.rstlMax.toNat)) :
    classifyLow std od odSlave l =
      .slot (decide (l < (if odSlave then od else std).w1lMax.toNat)) := by
  rw [classifyLow, if_neg (Nat.not_le_of_lt h), if_neg hno]

end

/-- Settles O34: a standard reset by its length, else in overdrive a short one, else a slot. -/
theorem pulseClasses : Obligations.PulseClasses := by
  refine ⟨fun std od odSlave l => ⟨classifyLow_resetStd, classifyLow_resetShort, fun h hod => ?_,
    fun h hod hout => ?_⟩, fun t l => rfl⟩
  · subst hod
    exact classifyLow_slot h (by simp)
  · subst hod
    exact classifyLow_slot h (by omega)

/-- A low pulse is heard as the action that its length makes it (R206). -/
theorem hear_low (us : Nat) (s : State) :
    hear (.low us) s =
      hear (.act (classifyLow (Config.tSlave false) (Config.tSlave true) s.odSlave us)) s := rfl

section
variable {s : State} {us : Nat}

/-- A wait that has become longer than `WAIT_MAX` is heard as a silence (R204). -/
theorem hear_quiet_silence
    (h : (Config.tSlave s.odSlave).waitMax.toNat < s.sFramer.timer.toNat + us) :
    hear (.quiet us) s = hear (.act .silence) s := by
  simp only [hear, classifyQuiet, if_pos h]

/-- A wait within `WAIT_MAX` goes on (R204). -/
theorem hear_quiet_wait
    (h : s.sFramer.timer.toNat + us ≤ (Config.tSlave s.odSlave).waitMax.toNat) :
    hear (.quiet us) s = (none, waited (BitVec.ofNat 16 (s.sFramer.timer.toNat + us)) s) := by
  simp only [hear, classifyQuiet, if_neg (Nat.not_lt_of_le h)]

end

/-- A wait within `WAIT_MAX` fits the timer. -/
theorem timer_toNat {t : SlaveTiming} {l : Nat} (h : l ≤ t.waitMax.toNat) :
    (BitVec.ofNat 16 l).toNat = l :=
  (BitVec.toNat_ofNat l 16).trans (Nat.mod_eq_of_lt (h.trans_lt t.waitMax.isLt))

/-- A quiet time after a wait that has timed `l` is one quiet time more in the wait so far (R204). -/
theorem hear_quiet_waited {s : State} {l : BitVec 16} {us : Nat} (hl : l.toNat = s.sFramer.timer.toNat + us)
    (more : Nat) : hear (.quiet more) (waited l s) = hear (.quiet (us + more)) s := by
  have htimer : (waited l s).sFramer.timer.toNat + more = s.sFramer.timer.toNat + (us + more) := by
    rw [← Nat.add_assoc, ← hl]
    rfl
  have hspeed : (waited l s).odSlave = s.odSlave := rfl
  simp only [hear, htimer, hspeed]
  rfl

/-! ## The start and the end of a session -/

theorem exec_emuStart (s : State) : exec .emuStart s = execEmuStart s := rfl
theorem exec_emuStop (s : State) : exec .emuStop s = execEmuStop s := rfl

section
variable {s : State} {policy : RolePolicy} {supported inRange : Bool} {run : State → State}

/-- Check 3: a role that the operation does not run in (R335). -/
theorem portOp_roleRefused (hf : s.fault = false) (hp : policy.allows s.role = false) :
    portOp policy supported inRange run s = .next (refuse .errRole s) := by
  simp [portOp, hf, hp]

/-- Check 4, in a role that allows the operation. -/
theorem portOp_unsupported (hf : s.fault = false) (hp : policy.allows s.role = true)
    (hs : supported = false) :
    portOp policy supported inRange run s = .next (refuse .errUnsupported s) := by
  simp [portOp, hf, hp, hs]

end

/-- The select values 6 and 7 name no family (R7, R37). -/
theorem familyOf_isSome (sel : FamSel) : (familyOf sel).isSome = decide (sel.toNat ≤ 5) := by
  revert sel
  decide

/-- Outside a session the family in force is the input (R37). -/
theorem State.fam_noSession {s : State} (h : s.role ≠ .slave) : s.fam = s.famIn := if_neg h

/-- In a session the family in force is the one sampled at its start (R37). -/
theorem State.fam_session {s : State} (h : s.role = .slave) : s.fam = s.famHeld := if_pos h

/-- Check 4 of `EMU.START` reads the `fam` input (R37, R200). -/
theorem emuStart_supported {s : State} (hr : s.role = .off) :
    (familyOf s.fam).isSome = decide (s.famIn.toNat ≤ 5) := by
  rw [State.fam_noSession (by rw [hr]; decide), familyOf_isSome]

/-- Settles O35: the checks of R324 that `EMU.START` and `EMU.STOP` meet, and what each writes. -/
theorem sessionStartAndStop : Obligations.SessionStartAndStop := by
  refine fun s w hf => ⟨fun hop => ⟨by simp only [decodePort, hop]; rfl, fun hr => ?_, fun hr hfam => ?_,
    fun hr hfam => ?_⟩, fun hop => ⟨by simp only [decodePort, hop]; rfl, fun hr => ?_, fun hr => ?_⟩⟩
  · rw [exec_emuStart]
    exact portOp_roleRefused hf (by simpa [RolePolicy.allows] using hr)
  · have hsup : (familyOf s.fam).isSome = false := by
      rw [emuStart_supported hr]
      exact decide_eq_false (Nat.not_le_of_lt hfam)
    rw [exec_emuStart]
    exact portOp_unsupported hf (by rw [hr]; rfl) hsup
  · have hsup : (familyOf s.fam).isSome = true := by
      rw [emuStart_supported hr]
      exact decide_eq_true hfam
    rw [exec_emuStart, execEmuStart, hsup]
    exact portOp_passed hf (by rw [hr]; rfl) rfl
  · rw [exec_emuStop]
    exact portOp_roleRefused hf (by simpa [RolePolicy.allows] using hr)
  · rw [exec_emuStop]
    exact portOp_passed hf (by rw [hr]; rfl) rfl

/-! ## WAIT_RESET and the measured line -/

/-- In the roles `Off` and `Host` the block does not watch the line (R325). -/
theorem lineStep_noSession {s : State} (h : s.role ≠ .slave) (p : PeerInput) : lineStep p s = .next s :=
  if_neg h

/-- In a session two inputs that are heard alike lead to the same step. -/
theorem lineStep_congr {s u : State} {p q : PeerInput} (hs : s.role = .slave) (hu : u.role = .slave)
    (h : hear p s = hear q u) : lineStep p s = lineStep q u := by
  unfold lineStep
  rw [if_pos hs, if_pos hu, h]

/-- In a session an input that makes no action yet only times the wait. -/
theorem lineStep_wait {s t : State} {p : PeerInput} (hs : s.role = .slave) (h : hear p s = (none, t)) :
    lineStep p s = .next t := by
  unfold lineStep
  rw [if_pos hs, h]

/-- The engine while it waits for a reset (R198). -/
theorem slaveStep_waitReset {s : State} (h : s.slPhase = .waitReset) (a : PeerAction) :
    slaveStep a s = .next (waitResetAction a s) := by
  simp only [slaveStep, h]

/-- With no host sequence running, the step takes an input on the line with the others still waiting. -/
theorem step_line_waiting {s : State} {p : PeerInput} {rest : List Input} (hq : s.qStep = [])
    (hi : s.inputs = .line p :: rest) : step s = lineStep p (waiting rest s) := step_line hq hi

/-- In a session the engine takes an action with the others still waiting; the wait before it is over. -/
theorem step_act_waiting {s : State} {a : PeerAction} {rest : List Input} (hq : s.qStep = [])
    (hr : s.role = .slave) (hi : s.inputs = .line (.act a) :: rest) :
    step s = slaveStep a (waited 0 (waiting rest s)) := step_act hq hi hr

/-- An action that the engine takes in WAIT_RESET. -/
theorem step_waitReset {s : State} {a : PeerAction} {rest : List Input} (hq : s.qStep = [])
    (hr : s.role = .slave) (hp : s.slPhase = .waitReset) (hi : s.inputs = .line (.act a) :: rest) :
    step s = .next (waitResetAction a (waited 0 (waiting rest s))) :=
  (step_act_waiting hq hr hi).trans (slaveStep_waitReset (s := waited 0 (waiting rest s)) hp a)

/-- Settles O37: what the framer hears decides the step, and the wait so far is part of what it hears. -/
theorem waitResetAndMeasuredLine : Obligations.WaitResetAndMeasuredLine := by
  refine fun s rest hq => ⟨fun p hr hi => ?_, fun hr hp => ⟨fun m => step_waitReset hq hr hp,
    step_waitReset hq hr hp, step_waitReset hq hr hp, step_waitReset hq hr hp⟩, fun hr us => ?_⟩
  · exact (step_line_waiting hq hi).trans (lineStep_noSession (s := waiting rest s) hr p)
  · intro limit wait hearing
    have hearing_step (p : PeerInput) : step (hearing p) = lineStep p (waiting rest s) :=
      step_line_waiting hq rfl
    refine ⟨fun hi => ?_, fun hi => ⟨fun hlong => ?_, fun hshort => ?_⟩, fun more hi hshort => ?_⟩
    · rw [step_line_waiting hq hi, hearing_step]
      exact lineStep_congr hr hr (hear_low us (waiting rest s))
    · rw [step_line_waiting hq hi, hearing_step]
      exact lineStep_congr hr hr (hear_quiet_silence hlong)
    · exact ⟨_, timer_toNat hshort,
        (step_line_waiting hq hi).trans (lineStep_wait hr (hear_quiet_wait hshort))⟩
    · let heard := waited (BitVec.ofNat 16 wait) (waiting (.line (.quiet more) :: rest) s)
      have hmore : step heard = lineStep (.quiet more) (waiting rest heard) := step_line_waiting hq rfl
      refine ⟨heard, (step_line_waiting hq hi).trans (lineStep_wait hr (hear_quiet_wait hshort)), ?_⟩
      rw [hmore, hearing_step]
      exact lineStep_congr hr hr (hear_quiet_waited (s := waiting rest s) (timer_toNat hshort) more)

/-! ## A reset or a silence in a slot -/

/-- What a peer action that is no slot makes of a slot whose failure is the event `e`: a reset is taken, a
silence ends the command (R192, R193, R203). -/
def interrupted (e : WireEvent) (a : PeerAction) (s : State) : State :=
  match a with
  | .resetStd =>
    takeBusReset false (slavePlayed [e] { s with slErr := .resetInProgress, slRstShort := false })
  | .resetShort =>
    takeBusReset true (slavePlayed [e] { s with slErr := .resetInProgress, slRstShort := true })
  | _ => waitForReset (slavePlayed [e] { s with slErr := .timeout })

theorem takeBusReset_phase (b : Bool) (s : State) : (takeBusReset b s).slPhase ≠ .respond := by
  obtain ⟨-, -, -, -, -, -, hphase | hphase⟩ := takeBusReset_effect b s <;> simp [hphase]

/-- The response is abandoned (R326). -/
theorem interrupted_phase (e : WireEvent) (a : PeerAction) (s : State) :
    (interrupted e a s).slPhase ≠ .respond := by
  cases a with
  | resetStd | resetShort => exact takeBusReset_phase _ _
  | slot m | silence => simp [interrupted]

/-- The interruption does not look at the inputs that wait. -/
theorem interrupted_waiting (e : WireEvent) (a : PeerAction) (x : List Input) (s : State) :
    interrupted e a (waiting x s) = waiting x (interrupted e a s) := by
  cases a with
  | resetStd =>
    exact takeBusReset_waiting false x
      (slavePlayed [e] { s with slErr := .resetInProgress, slRstShort := false })
  | resetShort =>
    exact takeBusReset_waiting true x
      (slavePlayed [e] { s with slErr := .resetInProgress, slRstShort := true })
  | slot m | silence => rfl

/-- The wait that was timed is over. -/
theorem interrupted_waited (e : WireEvent) (a : PeerAction) (t : BitVec 16) (s : State) :
    interrupted e a (waited t s) = interrupted e a s := by
  cases a <;> rfl

section
variable {a : PeerAction} (h : ∀ m, a ≠ .slot m)
include h

theorem sendSlot_interrupted (b : Bool) (k : State → State) (s : State) :
    sendSlot b a k s = interrupted (.sSend b false) a s := by
  cases a with
  | slot m => exact absurd rfl (h m)
  | resetStd | resetShort | silence => rfl

theorem receiveSlot_interrupted (k : Bool → State → State) (s : State) :
    receiveSlot a k s = interrupted (.sRecv false false) a s := by
  cases a with
  | slot m => exact absurd rfl (h m)
  | resetStd | resetShort | silence => rfl

/-- A command byte that is arriving is dropped (R198 RECV_CMD). -/
theorem receiveCommandBit_interrupted (s : State) :
    receiveCommandBit a s = .going (interrupted (.sRecv false false) a s) := by
  cases a with
  | slot m => exact absurd rfl (h m)
  | resetStd | resetShort | silence => rfl

end

/-- The event of the slot that fails where the responder stands (R192, R193). -/
def failedSlot (s : State) : WireEvent :=
  match s.task with
  | .search k .bit _ => .sSend (s.romBit k) false
  | .search k .complement _ => .sSend (!s.romBit k) false
  | .sendRom _ _ | .sendMem _ => .sSend (s.sFramer.sh.getLsbD 0) false
  | .search _ .choice _ | .recvAddr _ | .none => .sRecv false false

/-- Wherever a responder stands, its slot fails with the event of that place (R203). -/
theorem slaveSlot_interrupted {a : PeerAction} (h : ∀ m, a ≠ .slot m) {s : State} (ht : s.task ≠ .none) :
    slaveSlot a s = interrupted (failedSlot s) a s := by
  unfold slaveSlot failedSlot
  cases hk : s.task with
  | none => exact absurd hk ht
  | search k part chain =>
    cases part <;> simp only [searchSlot, sendSlot_interrupted h, receiveSlot_interrupted h]
  | sendRom k chain => exact sendSlot_interrupted h _ _ s
  | recvAddr lo => exact receiveSlot_interrupted h _ s
  | sendMem n => exact sendSlot_interrupted h _ _ s

/-- In SL_RESPOND the responder takes the action and goes on over what waits (log entry 4). -/
theorem slaveStep_respond {s : State} (h : s.slPhase = .respond) (a : PeerAction) :
    slaveStep a s = .next (runResponse s.inputs (slaveSlot a s)) := by
  simp only [slaveStep, h]

section
variable {s : State} {a : PeerAction} {rest : List Input} (hq : s.qStep = []) (hr : s.role = .slave)
  (hi : s.inputs = .line (.act a) :: rest) (h : ∀ m, a ≠ .slot m)
include hq hr hi h

/-- An action that is no slot, while a command byte is on its way (R198). -/
theorem step_interruptsCommand (hp : s.slPhase = .recvCmd) :
    step s = .next (interrupted (.sRecv false false) a (waiting rest s)) := by
  rw [step_act_waiting hq hr hi, slaveStep_recv a (waited 0 (waiting rest s)) hp,
    receiveCommandBit_interrupted h, interrupted_waited]

/-- An action that is no slot, while a response is on its way (R203, R326). -/
theorem step_interruptsResponse (hp : s.slPhase = .respond) (ht : s.task ≠ .none) :
    step s = .next (interrupted (failedSlot s) a (waiting rest s)) := by
  have hslot : slaveSlot a (waited 0 (waiting rest s)) = interrupted (failedSlot s) a (waiting rest s) :=
    (slaveSlot_interrupted h (s := waited 0 (waiting rest s)) ht).trans (interrupted_waited _ a 0 _)
  rw [step_act_waiting hq hr hi, slaveStep_respond (s := waited 0 (waiting rest s)) hp, hslot,
    runResponse_done (interrupted_phase _ a _), interrupted_waiting]
  rfl

end

/-- Settles O39: in either phase the step is the interruption of the slot that the engine stands in. -/
theorem busResetPreempts : Obligations.BusResetPreempts := by
  intro s rest a hq hr hi hslot e hplace
  have hstep : step s = .next (interrupted e a (waiting rest s)) := by
    obtain ⟨hp, rfl⟩ | ⟨hp, hresponse⟩ := hplace
    · exact step_interruptsCommand hq hr hi hslot hp
    · have hevent : s.task ≠ .none ∧ failedSlot s = e := by
        unfold failedSlot
        obtain ⟨_, _, ht, rfl⟩ | ⟨_, _, ht, rfl⟩ | ⟨_, _, ht, rfl⟩ | ⟨_, _, ht, rfl⟩ | ⟨_, ht, rfl⟩ |
          ⟨_, ht, rfl⟩ := hresponse <;> simp [ht]
      obtain ⟨ht, rfl⟩ := hevent
      exact step_interruptsResponse hq hr hi hslot hp ht
  rw [hstep]
  cases a with
  | slot m => exact absurd rfl (hslot m)
  | resetStd | resetShort | silence => rfl

/-! ## One slot of a command or of a response -/

/-- A received bit comes in at bit 7 (R195, R204). -/
theorem shiftIn_eq (b : Bool) (sh : Byte) :
    shiftIn b sh = BitVec.ofNat 8 (sh.toNat / 2 + if b then 128 else 0) := by
  revert b sh
  decide

theorem bitcnt_midByte {b : BitVec 4} (h : b.toNat < 7) : ¬ b + 1 = 8 := by
  revert b
  decide

theorem bitcnt_lastBit {b : BitVec 4} (h : b = 7) : b + 1 = 8 := by
  rw [h]
  rfl

/-- The end of a command clears the responder's place and the framer (R198; log entry 28). -/
theorem endCommand_eq (chain : Bool) (s : State) :
    endCommand chain s = { s with
      slPhase := if chain then .recvCmd else .waitReset, task := .none, sFramer := {} } := by
  cases chain <;> rfl

/-- The end of a command forgets the bits that the framer has shifted. -/
theorem endCommand_shiftSent (chain : Bool) (s : State) :
    endCommand chain (shiftSent s) = endCommand chain s := endCommand_forgets chain _ s.task s

/-- What a slot that takes place leaves before the engine goes on: `sl_err` is 0, the event is recorded
(R192, R193). -/
def slotTaken (e : WireEvent) (s : State) : State := slavePlayed [e] { s with slErr := .none }

section
variable (m : Bool) {s : State}

/-- A slot of the search triplet that sends (R233). -/
theorem slaveSlot_searchBit {k : Nat} {chain : Bool} (ht : s.task = .search k .bit chain) :
    slaveSlot (.slot m) s =
      { slotTaken (.sSend (s.romBit k) true) s with task := .search k .complement chain } := by
  simp only [slaveSlot, ht]
  rfl

/-- The next slot of the triplet sends the complement (R233). -/
theorem slaveSlot_searchComplement {k : Nat} {chain : Bool} (ht : s.task = .search k .complement chain) :
    slaveSlot (.slot m) s =
      { slotTaken (.sSend (!s.romBit k) true) s with task := .search k .choice chain } := by
  simp only [slaveSlot, ht]
  rfl

/-- The reader's choice is not looked at; the triplet of the next bit follows, after bit 63 the end (R233). -/
theorem slaveSlot_searchChoice {k : Nat} {chain : Bool} (ht : s.task = .search k .choice chain) :
    slaveSlot (.slot m) s =
      if k < 63 then { slotTaken (.sRecv m true) s with task := .search (k + 1) .bit chain }
      else endCommand chain (slotTaken (.sRecv m true) s) := by
  simp only [slaveSlot, ht]
  exact if_congr (by omega : k + 1 < 64 ↔ k < 63) rfl rfl

/-- A bit of the record in the middle of a byte (R194, R234). -/
theorem slaveSlot_sendRom_midByte {k : Nat} {chain : Bool} (ht : s.task = .sendRom k chain)
    (hb : s.sFramer.bitcnt.toNat < 7) :
    slaveSlot (.slot m) s = shiftSent (slotTaken (.sSend (s.sFramer.sh.getLsbD 0) true) s) := by
  simp only [slaveSlot, ht]
  exact if_neg (bitcnt_midByte hb)

/-- The last bit of a byte of the record: the next byte is loaded, after byte 7 the end (R234). -/
theorem slaveSlot_sendRom_lastBit {k : Nat} {chain : Bool} (ht : s.task = .sendRom k chain)
    (hb : s.sFramer.bitcnt = 7) :
    slaveSlot (.slot m) s =
      if k < 7 then loadByte (s.romAt (k + 1)) (.sendRom (k + 1) chain)
        (slotTaken (.sSend (s.sFramer.sh.getLsbD 0) true) s)
      else endCommand chain (slotTaken (.sSend (s.sFramer.sh.getLsbD 0) true) s) := by
  simp only [slaveSlot, ht]
  exact (if_pos (bitcnt_lastBit hb)).trans
    (if_congr (by omega : k + 1 < 8 ↔ k < 7) rfl (endCommand_shiftSent chain _))

/-- A bit of the address in the middle of a byte (R195, R235). -/
theorem slaveSlot_recvAddr_midByte {lo : Option Byte} (ht : s.task = .recvAddr lo)
    (hb : s.sFramer.bitcnt.toNat < 7) :
    slaveSlot (.slot m) s = shiftReceived m (slotTaken (.sRecv m true) s) := by
  simp only [slaveSlot, ht]
  exact if_neg (bitcnt_midByte hb)

/-- The low byte of the address is in (R235). -/
theorem slaveSlot_recvAddr_low (ht : s.task = .recvAddr none) (hb : s.sFramer.bitcnt = 7) :
    slaveSlot (.slot m) s =
      { slotTaken (.sRecv m true) s with
        task := .recvAddr (some (shiftIn m s.sFramer.sh)), sFramer := {} } := by
  simp only [slaveSlot, ht]
  exact if_pos (bitcnt_lastBit hb)

/-- The high byte of the address is in: the range check, and the first byte of the stream (R235). -/
theorem slaveSlot_recvAddr_high {lo : Byte} (ht : s.task = .recvAddr (some lo))
    (hb : s.sFramer.bitcnt = 7) :
    slaveSlot (.slot m) s =
      if addrOf lo (shiftIn m s.sFramer.sh) < memSize s.fam then
        loadByte (s.memAt (addrOf lo (shiftIn m s.sFramer.sh)))
          (.sendMem (addrOf lo (shiftIn m s.sFramer.sh))) (slotTaken (.sRecv m true) s)
      else endCommand false (slotTaken (.sRecv m true) s) := by
  simp only [slaveSlot, ht]
  exact if_pos (bitcnt_lastBit hb)

/-- A bit of the memory in the middle of a byte (R194, R235). -/
theorem slaveSlot_sendMem_midByte {a : Nat} (ht : s.task = .sendMem a)
    (hb : s.sFramer.bitcnt.toNat < 7) :
    slaveSlot (.slot m) s = shiftSent (slotTaken (.sSend (s.sFramer.sh.getLsbD 0) true) s) := by
  simp only [slaveSlot, ht]
  exact if_neg (bitcnt_midByte hb)

/-- The last bit of a byte of the memory: the next byte is loaded, after the buffer's end the end (R235). -/
theorem slaveSlot_sendMem_lastBit {a : Nat} (ht : s.task = .sendMem a) (hb : s.sFramer.bitcnt = 7) :
    slaveSlot (.slot m) s =
      if a + 1 < memSize s.fam then loadByte (s.memAt (a + 1)) (.sendMem (a + 1))
        (slotTaken (.sSend (s.sFramer.sh.getLsbD 0) true) s)
      else endCommand false (slotTaken (.sSend (s.sFramer.sh.getLsbD 0) true) s) := by
  simp only [slaveSlot, ht]
  exact if_pos (bitcnt_lastBit hb)

end

section
variable {s : State} {m : Bool} {rest : List Input} (hq : s.qStep = []) (hr : s.role = .slave)
  (hi : s.inputs = .line (.act (.slot m)) :: rest)
include hq hr hi

/-- A slot that is not the eighth of a command byte, as a step (R195, R198). -/
theorem step_commandBit (hp : s.slPhase = .recvCmd) (hb : s.sFramer.bitcnt.toNat < 7) :
    step s = .next (shiftReceived m (slotTaken (.sRecv m true) (waited 0 (waiting rest s)))) := by
  rw [step_act_waiting hq hr hi, slaveStep_recv (.slot m) (waited 0 (waiting rest s)) hp,
    recv_going m (waited 0 (waiting rest s)) (bitcnt_midByte hb)]
  rfl

/-- A slot of a response, as a step (log entry 4). -/
theorem slotLeads_slaveSlot (hp : s.slPhase = .respond) :
    SlotLeads s rest (slaveSlot (.slot m) (waited 0 (waiting rest s))) := by
  set u := waited 0 (waiting rest s)
  obtain ⟨heffect, -, -⟩ := EngineStep.slot (s := u) hp (.slot m)
  have hinputs : (slaveSlot (.slot m) u).inputs = rest :=
    congrArg State.inputs (slaveSlot_waiting (.slot m) rest u)
  obtain ⟨hsequencer, hrole⟩ :
      (slaveSlot (.slot m) u).qStep = [] ∧ (slaveSlot (.slot m) u).role = .slave := by
    obtain ⟨_, _, _, _, _, _, _, _, _, _, hslot, -⟩ := heffect
    rw [hslot]
    exact ⟨hq, hr⟩
  exact slotLeads hq hr hp hi rfl hinputs hsequencer hrole

end

/-- Settles O40: the slot of a command byte is shifted in; that of a response is the responder's slot at the
place where it stands. -/
theorem slaveSlotByStep : Obligations.SlaveSlotByStep := by
  intro s m rest hq hr hi shifted heard sent received ended loaded out shiftedOut
  have hshifted : shifted =
      { sh := shiftIn m s.sFramer.sh, bitcnt := s.sFramer.bitcnt + 1, timer := 0 } := by
    rw [shiftIn_eq]
  have hended (chain : Bool) (t : State) : ended chain t = endCommand chain t :=
    (endCommand_eq chain t).symm
  have hsize : memSize s.famHeld = memSize (waited 0 (waiting rest s)).fam :=
    congrArg memSize (State.fam_session (s := waited 0 (waiting rest s)) hr).symm
  refine ⟨fun hp hb => ?_, fun hp => ?_⟩
  · rw [hshifted]
    exact step_commandBit hq hr hi hp hb
  have leads {t : State} (h : slaveSlot (.slot m) (waited 0 (waiting rest s)) = t) : SlotLeads s rest t :=
    h ▸ slotLeads_slaveSlot hq hr hi hp
  refine ⟨fun k chain ht => leads ?_, fun k chain ht => leads ?_, fun k chain ht => leads ?_,
    fun k chain ht => ⟨fun hb => leads ?_, fun hb => leads ?_⟩, fun lo ht hb => leads ?_,
    fun ht hb => leads ?_, fun lo ht hb => leads ?_,
    fun a ht => ⟨fun hb => leads ?_, fun hb => leads ?_⟩⟩
  · exact slaveSlot_searchBit m ht
  · exact slaveSlot_searchComplement m ht
  · rw [hended]
    exact slaveSlot_searchChoice m ht
  · exact slaveSlot_sendRom_midByte m ht hb
  · rw [hended]
    exact slaveSlot_sendRom_lastBit m ht hb
  · rw [hshifted]
    exact slaveSlot_recvAddr_midByte m ht hb
  · rw [hshifted]
    exact slaveSlot_recvAddr_low m ht hb
  · rw [hshifted, hended, hsize]
    exact slaveSlot_recvAddr_high m ht hb
  · exact slaveSlot_sendMem_midByte m ht hb
  · rw [hended, hsize]
    exact slaveSlot_sendMem_lastBit m ht hb

end Sys2Proof.Machine
end

section
/-! PROOFS. The name of a received command byte (R224, R236). -/

namespace Sys2Proof

/-- 0xF0 goes by the command state (R225). -/
theorem decodeStateful_searchRom (f : Family) (st : CmdState) (p : CommandBytes) :
    decodeStateful f st 0xF0 p =
      if st = .idle then .searchRom else if st = .romCommandAccepted then .readMem
      else .searchRomRefused := by
  cases st <;> rfl

/-- 0x33 is a command from `Idle` alone (R226). -/
theorem decodeStateful_readRom (f : Family) (st : CmdState) (p : CommandBytes) :
    decodeStateful f st 0x33 p = if st = .idle then .readRom else .readRomRefused := rfl

/-- A byte that is none of the two constants is compared with the two parameters (R227 to R229). -/
theorem decodeStateful_other {c : Byte} (hsearch : c ≠ 0xF0) (hread : c ≠ 0x33) (f : Family)
    (st : CmdState) (p : CommandBytes) :
    decodeStateful f st c p =
      if c = p.skipRom then .skipRom
      else if c = p.overdriveSkipRom ∧ f = .ds1996 then .overdriveSkipRom
      else .unrecognisedStateful c :=
  (if_neg hsearch).trans (if_neg hread)

theorem decodeStateless_other {c : Byte} (hsearch : c ≠ 0xF0) (hread : c ≠ 0x33) :
    decodeStateless c = .anyOtherStateless c :=
  (if_neg hsearch).trans (if_neg hread)

/-- Settles O4: the two constants first, for either class; what is left is compared with the parameters,
which a stateless family, DS1996 being none, does not look at. -/
theorem commandByteNames : Obligations.CommandByteNames := by
  refine ⟨⟨rfl, rfl⟩, fun p f st c => ?_⟩
  rw [decodeBus_selOf]
  by_cases hsearch : c = 0xF0
  · rw [if_pos hsearch, hsearch, decodeStateful_searchRom]
    rfl
  by_cases hread : c = 0x33
  · rw [if_neg hsearch, if_pos hread, hread, decodeStateful_readRom]
    rfl
  rw [if_neg hsearch, if_neg hread, decodeStateful_other hsearch hread, decodeStateless_other hsearch hread]
  cases hstate : hasState f with
  | true => simp
  | false =>
    have hfamily : f ≠ .ds1996 := by
      rintro rfl
      cases hstate
    simp [hfamily]

end Sys2Proof
end

section
/-! PROOFS. The dispatcher of a session (R220 to R237): the reset rule of each class, the commands that
complete and the state after them, and the paths through `cmd_state`. -/

namespace Sys2Proof.Machine

/-! ## The reset rules -/

section
variable {s : State} (isShort : Bool)

/-- DS1996 accepts both resets and leaves overdrive (R222). -/
theorem resetRule_ds1996 (h : familyOf s.fam = some .ds1996) :
    resetRule isShort s = (true, { s with odSlave := false, cmdState := .idle }) := by
  simp only [resetRule, h]

/-- DS1971 and DS1992 accept the standard reset (R221). -/
theorem resetRule_standardSpeed (h : familyOf s.fam = some .ds1971 ∨ familyOf s.fam = some .ds1992) :
    resetRule isShort s = if isShort then (false, s) else (true, { s with cmdState := .idle }) := by
  obtain h | h := h <;> simp only [resetRule, h] <;> cases isShort <;> rfl

/-- The stateless families accept the standard reset, and have nothing to put back (R223). -/
theorem resetRule_stateless {f : Family} (h : familyOf s.fam = some f) (hf : hasState f = false) :
    resetRule isShort s = (!isShort, s) := by
  cases f <;> cases hf <;> simp only [resetRule, h] <;> cases isShort <;> rfl

/-- The bus reset is on record and what it interrupts is dropped: the state in which the reset rule runs
(R198, R327; log entry 28). -/
def resetHeard (s : State) : State :=
  { emit (.sReset isShort) [] s with slErr := .none, task := .none, sFramer := {} }

theorem takeBusReset_eq :
    takeBusReset isShort s =
      if (resetRule isShort (resetHeard isShort s)).1 then
        waitForCommand (presencePulse (resetRule isShort (resetHeard isShort s)).2)
      else waitForReset (resetRule isShort (resetHeard isShort s)).2 := rfl

/-- The reset rule goes on. -/
theorem takeBusReset_accepted {u : State} (h : resetRule isShort (resetHeard isShort s) = (true, u)) :
    takeBusReset isShort s = waitForCommand (presencePulse u) := by
  rw [takeBusReset_eq, h]
  rfl

/-- The reset rule does not go on. -/
theorem takeBusReset_ignored {u : State} (h : resetRule isShort (resetHeard isShort s) = (false, u)) :
    takeBusReset isShort s = waitForReset u := by
  rw [takeBusReset_eq, h]
  rfl

end

/-- Settles O38: the reset rule of each class in the state in which it runs. -/
theorem busResetTaken : Obligations.BusResetTaken := by
  intro s isShort f hr hfam listening deaf
  have hheard : familyOf (resetHeard isShort s).fam = some f :=
    (congrArg familyOf (State.fam_session (s := resetHeard isShort s) hr)).trans hfam
  refine ⟨fun hf => ?_, fun hf => ?_, fun hf => ?_⟩
  · have hrule := resetRule_standardSpeed (s := resetHeard isShort s) isShort
      (by obtain rfl | rfl := hf; exacts [.inl hheard, .inr hheard])
    cases isShort with
    | false => exact takeBusReset_accepted false hrule
    | true => exact takeBusReset_ignored true hrule
  · exact takeBusReset_accepted isShort (resetRule_ds1996 isShort (hf ▸ hheard))
  · have hrule := resetRule_stateless (s := resetHeard isShort s) isShort hheard
      (by obtain rfl | rfl | rfl := hf <;> rfl)
    cases isShort with
    | false => exact takeBusReset_accepted false hrule
    | true => exact takeBusReset_ignored true hrule

/-! ## Commands -/

section
variable (s : State)

theorem exec_searchRom : exec .searchRom s = execSearchRom s := rfl
theorem exec_searchRomStateless : exec .searchRomStateless s = execSearchRomStateless s := rfl
theorem exec_readRom : exec .readRom s = execReadRom s := rfl
theorem exec_readRomStateless : exec .readRomStateless s = execReadRomStateless s := rfl
theorem exec_readMem : exec .readMem s = execReadMem s := rfl
theorem exec_skipRom : exec .skipRom s = execSkipRom s := rfl
theorem exec_overdriveSkipRom : exec .overdriveSkipRom s = execOverdriveSkipRom s := rfl

end

section
variable {s : State} (hr : s.role = .slave)
include hr

/-- In a session a command acts where it is accepted; elsewhere the engine waits for a reset (R99). -/
theorem busCommand_session (accepted : Bool) (act : State → State) :
    busCommand accepted act s = .next (if accepted then act s else waitForReset s) := by
  cases accepted <;> simp [busCommand, hr, endCommand]

variable {f : Family} (hfam : familyOf s.famHeld = some f)
include hfam

/-- In a session the class is that of the held family (R37, R220). -/
theorem stateful_session : s.stateful = hasState f := by
  simp only [State.stateful, State.fam_session hr, hfam]

theorem stateless_session : s.stateless = !hasState f := by
  simp only [State.stateless, State.fam_session hr, hfam]

theorem memSize_session : memSize s.fam = familyMemSize f := by
  simp only [memSize, State.fam_session hr, hfam]

/-- The rows of R236 that a stateful family accepts in one command state. -/
theorem busCommand_stateful (hstate : hasState f = true) (st : CmdState) (act : State → State) :
    busCommand (s.stateful && s.cmdState == st) act s =
      .next (if s.cmdState = st then act s else waitForReset s) := by
  rw [busCommand_session hr, stateful_session hr hfam, hstate]
  simp

/-- The rows of R236 of a stateless family. -/
theorem busCommand_stateless (hstate : hasState f = false) (act : State → State) :
    busCommand s.stateless act s = .next (act s) := by
  rw [busCommand_session hr, stateless_session hr hfam, hstate]
  rfl

end

/-! ## SKIP_ROM and OVERDRIVE_SKIP_ROM -/

/-- Settles O44: the parameters keep the two bytes apart from all others, and either command is accepted
from `Idle` alone. -/
theorem skipCommands : Obligations.SkipCommands := by
  intro s f hr hfam
  refine ⟨fun hstate => ⟨?_, ?_⟩, ?_⟩
  · simp only [decodeBus, hfam, hstate, if_true]
    exact decodeStateful_skipRom f s.cmdState s.cmdBytes
  · rw [exec_skipRom]
    exact busCommand_stateful hr hfam hstate .idle _
  · rintro rfl
    refine ⟨?_, ?_⟩
    · simp only [decodeBus, hfam]
      exact decodeStateful_overdriveSkipRom s.cmdState s.cmdBytes
    · rw [exec_overdriveSkipRom, execOverdriveSkipRom, busCommand_session hr, State.fam_session hr, hfam]
      simp only [BEq.rfl, Bool.true_and, beq_iff_eq]
      rfl

/-! ## The answers -/

/-- The responder is at its start, and no input has been taken. -/
def responding (k : SlaveTask) (s : State) : State := { s with slPhase := .respond, task := k }

theorem startResponse_eq (k : SlaveTask) {s : State} {ins : List Input} (hin : s.inputs = ins) :
    startResponse k s = runResponse ins (responding k s) := hin ▸ rfl

/-- The search answer (R233). -/
theorem startResponse_search (chain : Bool) {ms : List (Bool × Bool × Bool)} (hlen : ms.length = 64)
    {rest : List Input} {s : State} (hin : s.inputs = slots (ms.flatMap fun p => [p.1, p.2.1, p.2.2]) ++ rest) :
    startResponse (.search 0 .bit chain) s =
      { endCommand chain (slavePlayed (searchEvents s.rom.toList (ms.map (·.2.2)))
          { s with slErr := .none }) with inputs := rest } := by
  rw [startResponse_eq _ hin, search_run chain rest 63 0 ms _ rfl hlen rfl rfl]
  cases chain <;> rfl

/-- The ROM answer, its first byte loaded (R234). -/
theorem startResponse_sendRom (chain : Bool) {ms : List Bool} (hlen : ms.length = 64) {rest : List Input}
    {s : State} (hfirst : s.sFramer = { sh := s.romAt 0 }) (hin : s.inputs = slots ms ++ rest) :
    startResponse (.sendRom 0 chain) s =
      { endCommand chain (slavePlayed (sendEvents s.rom.toList) { s with slErr := .none }) with
        inputs := rest } := by
  rw [startResponse_eq _ hin, readRom_run chain rest ms hlen (responding _ s) rfl rfl hfirst]
  cases chain <;> rfl

/-- Both bytes of the address are in, the high byte in `s_sh` (R235). -/
def addressReceived (lo hi : Byte) (s : State) : State :=
  slavePlayed (receiveEvents (wireBits [lo, hi]))
    { s with slErr := .none, task := .recvAddr (some lo), sFramer := { sh := hi, bitcnt := 8, timer := 0 } }

/-- The address phase of the memory read, and the range check after it (R235). -/
theorem startResponse_address (lo hi : Byte) {rest : List Input} {s : State} (hclear : s.sFramer = {})
    (hin : s.inputs = slots (wireBits [lo, hi]) ++ rest) :
    startResponse (.recvAddr none) s = runResponse rest
      (startMemoryStream (addrOf lo hi) (addressReceived lo hi (responding (.recvAddr none) s))) := by
  rw [startResponse_eq _ hin]
  exact recvAddr_run lo hi rest (responding (.recvAddr none) s) rfl rfl hclear

/-- An address inside the buffer is answered with the memory from there to its end (R235). -/
theorem memoryStream_run {a : Nat} {ms : List Bool} {rest : List Input} {s : State} (ha : a < memSize s.fam)
    (hlen : ms.length = 8 * (memSize s.fam - a)) (hp : s.slPhase = .respond) :
    runResponse (slots ms ++ rest) (startMemoryStream a s) =
      { endCommand false (slavePlayed (sendEvents (s.memBytes a (memSize s.fam - a)))
          { s with slErr := .none }) with inputs := rest } := by
  obtain ⟨k, hk⟩ : ∃ k, memSize s.fam - a = k + 1 := ⟨_, (Nat.succ_pred (by omega)).symm⟩
  have hend : a + (k + 1) = memSize s.fam := by omega
  have hload : startMemoryStream a s = loadByte (s.memAt a) (.sendMem a) s := if_pos ha
  rw [hk] at hlen ⊢
  rw [hload, sendMem_run (s := loadByte (s.memAt a) (.sendMem a) s) a k rest ms hend hlen hp rfl rfl]
  rfl

/-- An address outside the buffer ends the command (R235). -/
theorem memoryStream_outside {a : Nat} {rest : List Input} {s : State} (ha : memSize s.fam ≤ a) :
    runResponse rest (startMemoryStream a s) = { endCommand false s with inputs := rest } := by
  have hend : startMemoryStream a s = endCommand false s := if_neg (Nat.not_lt.2 ha)
  rw [hend, runResponse_done (endCommand_phase _ _)]

/-- The whole memory read of an address inside the buffer (R235). -/
theorem startResponse_memory {lo hi : Byte} {ms : List Bool} {rest : List Input} {s : State}
    (haddr : addrOf lo hi < memSize s.fam) (hlen : ms.length = 8 * (memSize s.fam - addrOf lo hi))
    (hclear : s.sFramer = {}) (hin : s.inputs = slots (wireBits [lo, hi]) ++ (slots ms ++ rest)) :
    startResponse (.recvAddr none) s =
      { endCommand false (slavePlayed (receiveEvents (wireBits [lo, hi]) ++
          sendEvents (s.memBytes (addrOf lo hi) (memSize s.fam - addrOf lo hi))) { s with slErr := .none }) with
        inputs := rest } := by
  rw [startResponse_address lo hi hclear hin,
    memoryStream_run (s := addressReceived lo hi (responding (.recvAddr none) s)) haddr hlen rfl,
    slavePlayed_append]
  rfl

/-- The whole memory read of an address outside the buffer (R235). -/
theorem startResponse_noMemory {lo hi : Byte} {rest : List Input} {s : State}
    (haddr : memSize s.fam ≤ addrOf lo hi) (hclear : s.sFramer = {})
    (hin : s.inputs = slots (wireBits [lo, hi]) ++ rest) :
    startResponse (.recvAddr none) s =
      { endCommand false (slavePlayed (receiveEvents (wireBits [lo, hi])) { s with slErr := .none }) with
        inputs := rest } := by
  rw [startResponse_address lo hi hclear hin,
    memoryStream_outside (s := addressReceived lo hi (responding (.recvAddr none) s)) haddr]
  rfl

/-- Settles O41: an accepted search command starts the answer; the chain goes on for a stateful family. -/
theorem searchAnswer : Obligations.SearchAnswer := by
  intro s f ms rest hr hfam hlen hin answer
  refine ⟨fun hstate hidle => ?_, fun hstate => ?_⟩
  · rw [exec_searchRom, execSearchRom, busCommand_stateful hr hfam hstate, if_pos hidle]
    exact congrArg _ (startResponse_search true hlen (s := { s with cmdState := .romCommandAccepted }) hin)
  · rw [exec_searchRomStateless, execSearchRomStateless, busCommand_stateless hr hfam hstate]
    exact congrArg _ (startResponse_search false hlen hin)

/-- Settles O42: as for the search, with the first byte of the record loaded. -/
theorem readRomAnswer : Obligations.ReadRomAnswer := by
  intro s f ms rest hr hfam hlen hin answer
  refine ⟨fun hstate hidle => ?_, fun hstate => ?_⟩
  · rw [exec_readRom, execReadRom, busCommand_stateful hr hfam hstate, if_pos hidle]
    exact congrArg _ (startResponse_sendRom true hlen
      (s := { s with cmdState := .romCommandAccepted, sFramer := { sh := s.romAt 0 } }) rfl hin)
  · rw [exec_readRomStateless, execReadRomStateless, busCommand_stateless hr hfam hstate]
    exact congrArg _ (startResponse_sendRom false hlen
      (s := { s with sFramer := { sh := s.romAt 0 } }) rfl hin)

/-- Settles O43: the accepted command receives the address, and the address decides what follows. -/
theorem memoryAnswer : Obligations.MemoryAnswer := by
  intro s f lo hi ms rest hr hfam hstate haccepted address size done
  have hsize : size = memSize s.fam := (memSize_session hr hfam).symm
  rw [exec_readMem, execReadMem, busCommand_stateful hr hfam hstate, if_pos haccepted, hsize]
  refine ⟨fun hlt hlen hin => ?_, fun hle hin => ?_⟩
  · exact congrArg _ (startResponse_memory
      (s := { s with cmdState := .memoryCommandAccepted, sFramer := {} }) hlt hlen rfl hin)
  · exact congrArg _ (startResponse_noMemory
      (s := { s with cmdState := .memoryCommandAccepted, sFramer := {} }) hle rfl hin)

/-! ## The paths through `cmd_state` -/

theorem selectRead_ne_emuStart (fam : FamSel) : selectRead fam ≠ .emuStart := by
  unfold selectRead
  split <;> nofun

theorem selectWriteCopy_ne_emuStart (fam : FamSel) (t : Micros) : selectWriteCopy fam t ≠ .emuStart := by
  unfold selectWriteCopy
  split <;> nofun

/-- `EMU.START` has one select (R92). -/
theorem decodePort_emuStart {fam : FamSel} {w : PortWord} (h : decodePort fam w = .ok .emuStart) :
    w.opsel = 0x20 := by
  unfold decodePort at h
  split at h
  case h_24 hop => exact BitVec.eq_of_toNat_eq hop
  all_goals
    simp [withPayload_ne, selectRead_ne_emuStart, selectWriteCopy_ne_emuStart] at h

/-- A port operation leaves `cmd_state`, but for `EMU.START` from role `Off` (R200). -/
theorem PortEffect.cmdState {starts stops : Prop} {s t : State} (h : PortEffect starts stops s t) :
    t.cmdState = s.cmdState ∨ (starts ∧ s.role = .off ∧ t.role = .slave ∧ t.cmdState = .idle) := by
  cases h with
  | refused | offLine | contract | stop => exact .inl rfl
  | onLine b v d u _ _ hu =>
    obtain ⟨_, _, _, _, _, _, _, _, _, _, _, _, _, _, rfl, _⟩ := hu
    exact .inl rfl
  | start hstarts _ hoff => exact .inr ⟨hstarts, hoff, rfl, rfl⟩

theorem HostEffect.cmdState {s t : State} (h : HostEffect s t) : t.cmdState = s.cmdState := by
  obtain ⟨_, _, _, _, _, _, _, _, _, _, _, _, _, _, rfl, _⟩ := h
  rfl

theorem closeSequence_cmdState (s : State) : (closeSequence s).cmdState = s.cmdState := by
  rcases closeSequence_cases s with e | e <;> rw [e]
  rfl

/-- The reset that was accepted and its presence pulse in the record, oldest event first. -/
theorem ResetAccepted.recorded {s t : State} (h : ResetAccepted s t) :
    ∃ isShort before after,
      t.wire.reverse = s.wire.reverse ++ before ++ [.sReset isShort, .sPresence] ++ after ∧
      (isShort = true → familyOf s.fam = some .ds1996) := by
  obtain ⟨-, isShort, es, fs, hwire, hshort⟩ := h
  exact ⟨isShort, es.reverse, fs.reverse, by simp [hwire], hshort⟩

/-- Settles O45, case by case over what a step can do: in a session the engine takes an edge of its own,
`EMU.START` and a hardware reset go to `Idle`, all else leaves `cmd_state`. -/
theorem cmdStateEdges : Obligations.CmdStateEdges := by
  intro s t hstep
  cases step_effect hstep with
  | idle | fam => exact .inl rfl
  | subStep u q _ hu => exact .inl ((closeSequence_cmdState { u with qStep := q }).trans hu.cmdState)
  | port w rest i t _ hin hdecode he =>
    rcases he.cmdState with hsame | ⟨rfl, hoff, hslave, hidle⟩
    · exact .inl hsame
    · exact .inr (.inr ⟨hidle, .inr (.inl ⟨hoff, hslave, w, rest, hin, decodePort_emuStart hdecode⟩)⟩)
  | line t _ he hedge _ hother =>
    by_cases hr : s.role = .slave
    · have ht : t.role = .slave := he.fam.1.trans hr
      rcases hedge with hsame | hreset | ⟨hstateful, hnext⟩
      · exact .inl hsame
      · refine .inr (.inr ⟨hreset.1, .inl ⟨hr, ht, ?_⟩⟩)
        rw [← State.fam_session hr]
        exact hreset.recorded
      · exact .inr (.inl ⟨hr, ht, hstateful, hnext⟩)
    · obtain ⟨rest, rfl⟩ := hother hr
      exact .inl rfl
  | reset | cut => exact .inr (.inr ⟨rfl, .inr (.inr rfl)⟩)

end Sys2Proof.Machine
end

section
/-! PROOFS. The host sequences `SEQ.*` (R261 to R267): what each port operation answers where it may run, by
what its frame or its moves leave, and its decoding. -/

namespace Sys2Proof.Machine

/-! ## The meanings of these operations -/

section
variable (s : State)

theorem exec_seqReadRom : exec .seqReadRom s = execSeqReadRom s := rfl
theorem exec_seqReadScratch (len : Half) : exec (.seqReadScratch len) s = execSeqReadScratch len s := rfl
theorem exec_seqReadMem (a len : Half) : exec (.seqReadMem a len) s = execSeqReadMem a len s := rfl
theorem exec_seqWriteMem (t : Micros) (pg : Half) (din : List Byte) :
    exec (.seqWriteMem t pg din) s = execSeqWriteMem t pg din s := rfl

end

/-! ## The end of a host operation -/

/-- A host operation ends with the response to what its sequence leaves, whatever the hidden registers are. -/
theorem hostOp_replies {s t u : State} (h : HostReady s) {run : State → State} {b : Bool} {v : Byte}
    {d : List Byte} (hrun : run (beginHost s) = reply b v d t)
    (ht : SameButHidden t { u with role := .host }) :
    ∃ f, hostOp true run s = .next { endHost (reply b v d u) with hFramer := f } := by
  obtain ⟨f, hend, -⟩ := ht.endHost b v d
  exact ⟨f, by rw [hostOp_ready h, hrun, hend]; rfl⟩

/-- A host operation whose sequence writes and delays. -/
theorem hostOp_says {s : State} (h : HostReady s) {es : List WireEvent} {f : State → State}
    (hf : Says es f) :
    ∃ k, hostOp true (fun s => reply true 0 [] (f s)) s =
      .next { endHost (reply true 0 [] (played es s)) with hFramer := k } := by
  obtain ⟨k, hend⟩ := endSays hf s true 0 []
  exact ⟨k, by rw [hostOp_ready h, hend]⟩

/-- A host operation whose sequence plays moves answers whether they succeed and leaves what they leave. -/
theorem hostOp_plays {s : State} (h : HostReady s) {ms : List Move} {f : State → Bool × State}
    (hf : Plays ms f) :
    ∃ h, hostOp true (fun s => let r := f s; reply r.1 0 [] r.2) s =
      .next { endHost (reply (movesOk ms s) 0 [] (afterMoves ms s)) with hFramer := h } := by
  obtain ⟨k, hend⟩ := endPlays hf s
  exact ⟨k, by rw [hostOp_ready h, hend]⟩

theorem SameButHidden.presence {t u : State} (h : SameButHidden t u) : t.presence = u.presence := by
  obtain ⟨_, _, _, _, _, rfl, -⟩ := h
  rfl

/-! ## The operations that are one frame -/

section
variable {s : State} (h : HostReady s)
include h

/-- The read-ROM frame; `ROM` is written whatever `presence` says, and `presence` is the answer (R262). -/
theorem seqReadRom_next :
    ∃ r : Vector Byte 8, wireBits r.toList = nextBits 64 s.oracle ∧
      ∃ f, exec .seqReadRom s = .next { endHost (reply s.presence 0 []
        { played (writeEvents [0x33] ++ readEvents (nextBits 64 s.oracle)) s with rom := r }) with
        hFramer := f } := by
  obtain ⟨r, hbits, hsame⟩ := frameReadRom_same (beginHost s)
  have hpresence : (frameReadRom (beginHost s)).presence = s.presence := hsame.presence
  refine ⟨r, hbits, ?_⟩
  rw [exec_seqReadRom]
  exact hostOp_replies h (congrArg (reply · 0 [] (frameReadRom (beginHost s))) hpresence)
    (hsame.trans ⟨_, _, _, _, _, rfl, id⟩)

/-- The read-scratchpad frame: three bytes into `AREGS`, the payload into `dout` (R264). -/
theorem seqReadScratch_next (len : Half) :
    ∃ (r : Vector Byte 3) (d : List Byte), d.length = len.toNat ∧
      wireBits (r.toList ++ d) = nextBits (24 + 8 * len.toNat) s.oracle ∧
      ∃ f, exec (.seqReadScratch len) s = .next { endHost (reply true 0 d
        { played (writeEvents [0xAA] ++ readEvents (wireBits (r.toList ++ d))) s with aregs := r }) with
        hFramer := f } := by
  obtain ⟨r, d, hlen, hbits, hd, hsame⟩ := frameReadScratch_same len.toNat (beginHost s)
  refine ⟨r, d, hlen, hbits, ?_⟩
  rw [exec_seqReadScratch]
  exact hostOp_replies h (congrArg (reply true 0 · _) hd) (hsame.trans ⟨_, _, _, _, _, rfl, id⟩)

/-- The read-memory frame: the payload into `dout` (R266). -/
theorem seqReadMem_next (a len : Half) :
    ∃ d : List Byte, d.length = len.toNat ∧ wireBits d = nextBits (8 * len.toNat) s.oracle ∧
      ∃ f, exec (.seqReadMem a len) s = .next { endHost (reply true 0 d
        (played (writeEvents [0xF0, addrLo a, addrHi a] ++ readEvents (wireBits d)) s)) with
        hFramer := f } := by
  obtain ⟨d, hlen, hbits, hd, hsame⟩ := frameReadMem_same a len.toNat (beginHost s)
  refine ⟨d, hlen, hbits, ?_⟩
  rw [exec_seqReadMem]
  exact hostOp_replies h (congrArg (reply true 0 · _) hd) (hsame.trans ⟨_, _, _, _, _, rfl, id⟩)

end

theorem decodePort_seqWriteScratch {w : PortWord} (h : w.opsel = 0x32) (hlen : w.din.length = w.len.toNat)
    (fam : FamSel) : decodePort fam w = .ok (.seqWriteScratch w.a16 w.din) := by
  simp [decodePort, h, withPayload, hlen]

/-- Settles O48: each operation is its frame between the two writes of `role`. -/
theorem sequenceFrames : Obligations.SequenceFrames := by
  refine fun s w h => ⟨fun hop => ⟨by simp [decodePort, hop], ?_⟩,
    fun hop => ⟨by simp [decodePort, hop], ?_⟩,
    fun hop hlen => ⟨decodePort_seqWriteScratch hop hlen _, ?_⟩,
    fun hop => ⟨by simp [decodePort, hop], ?_⟩, fun hop => ⟨by simp [decodePort, hop], ?_⟩⟩
  · exact hostOp_says h (says_writeByte s.cmdBytes.skipRom)
  · obtain ⟨r, hbits, f, hnext⟩ := seqReadRom_next h
    exact ⟨r, f, hbits, hnext⟩
  · exact hostOp_says h (says_writeScratch w.a16 w.din)
  · obtain ⟨r, d, hlen, hbits, f, hnext⟩ := seqReadScratch_next h w.len
    exact ⟨r, d, f, hlen, hbits, hnext⟩
  · obtain ⟨d, hlen, hbits, f, hnext⟩ := seqReadMem_next h w.a16 w.len
    exact ⟨d, f, hlen, hbits, hnext⟩

/-! ## The copy of the scratchpad -/

/-- Settles O49: the frame plays the command byte, the bytes of `AREGS` and the polls. -/
theorem copyScratchResult : Obligations.CopyScratchResult := by
  intro s w h hop
  exact ⟨by simp [decodePort, hop], hostOp_plays h (plays_copyScratch w.t32)⟩

/-! ## The poll loop of R265 -/

/-- The first 0 comes within the read slots of the loop: so many ones before it, and success. -/
theorem playPoll_zero (poll : Nat) (rest : List Bool) {n k : Nat} (hk : k < n) :
    playPoll poll n (List.replicate k true ++ false :: rest) =
      (true, (List.replicate k [WireEvent.hRead true, .hDelay poll]).flatten ++ [.hRead false], rest) := by
  induction k generalizing n with
  | zero =>
    obtain ⟨n, rfl⟩ := Nat.exists_eq_add_one_of_ne_zero hk.ne'
    rfl
  | succ k ih =>
    obtain ⟨n, rfl⟩ := Nat.exists_eq_add_one_of_ne_zero (Nat.ne_zero_of_lt hk)
    simp [playPoll, List.replicate_succ, ih (Nat.lt_of_succ_lt_succ hk)]

/-- No 0 comes within the read slots of the loop: all of them read 1, and there is no success. -/
theorem playPoll_ones (poll : Nat) {n : Nat} {o : List Bool}
    (h : ∀ k rest, o = List.replicate k true ++ false :: rest → n ≤ k) :
    playPoll poll n o =
      (false, (List.replicate n [WireEvent.hRead true, .hDelay poll]).flatten, o.drop n) := by
  induction n generalizing o with
  | zero => rfl
  | succ n ih =>
    have hhead : o.headD true = true := by
      rcases o with _ | ⟨_ | _, o⟩
      · rfl
      · exact absurd (h 0 o rfl) (by omega)
      · rfl
    have htail : ∀ k rest, o.drop 1 = List.replicate k true ++ false :: rest → n ≤ k := by
      intro k rest ho
      refine Nat.le_of_succ_le_succ (h (k + 1) rest ?_)
      rcases o with _ | ⟨b, o⟩
      · simp at ho
      · simp_all [List.replicate_succ]
    rw [playPoll, if_pos hhead]
    simp only [ih htail, List.drop_drop, List.replicate_succ, List.flatten_cons, Nat.add_comm 1 n]
    rfl

/-- A read slot is used for every `poll` begun of `t32`. -/
theorem lt_pollLimit_iff (t : Micros) (k : Nat) : k < pollLimit t ↔ k * pollInterval t < t.toNat := by
  obtain ⟨hcover, htight⟩ := pollLimit_mul t
  constructor
  · intro hk
    have := Nat.mul_le_mul_right (pollInterval t) (Nat.succ_le_of_lt hk)
    rw [Nat.succ_mul] at this
    omega
  · exact fun hk => Nat.lt_of_mul_lt_mul_right (hk.trans_le hcover)

/-- The remainder of `t32 div 20` adds at most four slots to the 20, for `poll` is at least 5 (log entry 18). -/
theorem pollLimit_le (t : Micros) : pollLimit t ≤ 24 := by
  by_contra h
  have hlt := (lt_pollLimit_iff t 24).1 (by omega)
  unfold pollInterval at hlt
  omega

theorem pollLimit_zero : pollLimit 0 = 0 := rfl

/-- Without a remainder there are exactly 20 slots. -/
theorem pollLimit_of_dvd {t : Micros} (hmin : 100 ≤ t.toNat) (hdvd : 20 ∣ t.toNat) : pollLimit t = 20 := by
  have hmore := lt_pollLimit_iff t 19
  have hless := lt_pollLimit_iff t 20
  unfold pollInterval at hmore hless
  omega

/-- Settles O50, by induction on the slots of the loop, and from what `ceil(t32 / poll)` is. -/
theorem pollLoop : Obligations.PollLoop := by
  intro t o
  refine ⟨?_, fun hnone => playPoll_ones _ fun k rest ho => ?_, pollLimit_le t, ?_, pollLimit_of_dvd⟩
  · rintro k rest rfl hk
    exact playPoll_zero _ _ ((lt_pollLimit_iff t k).2 hk)
  · have := lt_pollLimit_iff t k
    have := hnone k rest ho
    omega
  · rintro rfl
    exact pollLimit_zero

/-! ## `write_mem` -/

/-- The contract of R267 is what `writeMemContract` decides. -/
theorem writeMemContract_iff (pg : Half) (din : List Byte) :
    writeMemContract pg din = true ↔ pg ≠ 0 ∧ din.length % pg.toNat = 0 := by
  simp [writeMemContract, BitVec.toNat_eq]

/-- Settles O51: the contract decides between the violation and the pages, which play their moves. -/
theorem writeMemResult : Obligations.WriteMemResult := by
  intro s w h hop hlen
  have hcontract := writeMemContract_iff w.pg w.din
  rw [hlen] at hcontract
  refine ⟨by simp [decodePort, hop, withPayload, hlen], fun hbad => ?_, fun hpg hdvd => ?_⟩
  · have : writeMemContract w.pg w.din = false := by
      rw [← Bool.not_eq_true, hcontract]
      tauto
    rw [exec_seqWriteMem, execSeqWriteMem, portOp_ready h, this]
    rfl
  · obtain ⟨f, hend⟩ := endPlays (plays_writeMem s.cmdBytes w.t32 w.pg.toNat w.din) s
    refine ⟨f, ?_⟩
    rw [exec_seqWriteMem, execSeqWriteMem, portOp_ready h, hcontract.2 ⟨hpg, hdvd⟩, ← hend]
    rfl

end Sys2Proof.Machine
end

section
/-! PROOFS. The family operations `FAM.READ` and `FAM.WRITE_COPY` of DS1992 and DS1996 (R268 to R271, R273): what
each answers where it may run, phase by phase, and its decoding. -/

namespace Sys2Proof.Machine

/-! ## The phases of these operations -/

/-- The state after a bus reset that is answered by `p` (R152). -/
def afterReset (p : Bool) (s : State) : State := { played [.hReset p] s with presence := p }

theorem hostReset_eq_afterReset {s : State} {p : Bool} (h : s.oracle.headD false = p) :
    hostReset s = (p, afterReset p s) := by
  rw [hostReset_eq, h]
  rfl

/-- Without presence a reset ends the sequence (R260). -/
theorem gate_reset_absent {s : State} (h : s.oracle.headD false = false) (k : State → Bool × State) :
    gate (hostReset s) k = (false, afterReset false s) := by
  rw [hostReset_eq_afterReset h]
  rfl

/-- With presence the sequence goes on after the reset (R260). -/
theorem gate_reset_present {s : State} (h : s.oracle.headD false = true) (k : State → Bool × State) :
    gate (hostReset s) k = k (afterReset true s) := by
  rw [hostReset_eq_afterReset h]
  rfl

theorem SameButHidden.oracle {t u : State} (h : SameButHidden t u) : t.oracle = u.oracle := by
  obtain ⟨_, _, _, _, _, rfl, -⟩ := h
  rfl

theorem SameButHidden.afterReset {t u : State} (h : SameButHidden t u) (p : Bool) :
    SameButHidden (afterReset p t) (Machine.afterReset p u) :=
  h.map (g := Machine.afterReset p) (fun _ _ _ _ _ _ => rfl) fun _ => rfl

theorem SameButHidden.stored {t u : State} (h : SameButHidden t u) (a : Nat) (d : List Byte) :
    SameButHidden (storeMem a d t) (storeMem a d u) :=
  h.map (g := storeMem a d) (fun _ _ _ _ _ _ => rfl) fun _ => rfl

/-- The wire events of the ROM phase of `FAM.READ` with a device that has the record `r` (R268, R269). -/
def romPhaseEvents (r : Vector Byte 8) : List WireEvent :=
  [.hReset true] ++ writeEvents [0x33] ++ readEvents (wireBits r.toList)

theorem answersUsed_romPhaseEvents (r : Vector Byte 8) : answersUsed (romPhaseEvents r) = 65 := by
  simp [romPhaseEvents, answersUsed]

/-- The ROM phase after an answered reset: the record is stored. -/
theorem romPhase_same (s : State) :
    ∃ r : Vector Byte 8, wireBits r.toList = nextBits 64 (s.oracle.drop 1) ∧
      SameButHidden (frameReadRom (afterReset true s))
        { played (romPhaseEvents r) s with presence := true, rom := r } := by
  obtain ⟨r, hbits, hsame⟩ := frameReadRom_same (afterReset true s)
  refine ⟨r, hbits, ?_⟩
  rw [romPhaseEvents, List.append_assoc, played_append, hbits]
  exact hsame

/-- The wire events of the memory phase of `FAM.READ` that reads `d` (R268, R269). -/
def memPhaseEvents (d : List Byte) : List WireEvent :=
  writeEvents [0xF0, 0x00, 0x00] ++ readEvents (wireBits d)

/-- The memory phase: what is read is stored from address 0. -/
theorem memPhase_same {t u : State} (h : SameButHidden t u) (n : Nat) :
    ∃ d : List Byte, d.length = n ∧ wireBits d = nextBits (8 * n) u.oracle ∧
      SameButHidden (storeMem 0 (frameReadMem 0 n t).1 (frameReadMem 0 n t).2)
        (storeMem 0 d (played (memPhaseEvents d) u)) := by
  obtain ⟨d, hlen, hbits, hd, hsame⟩ := frameReadMem_same 0 n t
  refine ⟨d, hlen, h.oracle ▸ hbits, ?_⟩
  rw [hd]
  exact (hsame.trans (h.played _)).stored 0 d

/-- A host operation that answers the verdict of its sequence. -/
theorem hostOp_answers {s t u : State} (h : HostReady s) {f : State → Bool × State} {b : Bool}
    (hf : f (beginHost s) = (b, t)) (ht : SameButHidden t { u with role := .host }) :
    ∃ k, hostOp true (fun s => let r := f s; reply r.1 0 [] r.2) s =
      .next { endHost (reply b 0 [] u) with hFramer := k } :=
  hostOp_replies h (by simp only [hf]) ht

/-! ## `FAM.READ` -/

/-- The sequence of `FAM.READ` for a family with so many bytes of memory (R268). -/
def readSequence (n : Nat) (s : State) : Bool × State :=
  gate (hostReset s) fun s =>
    let s := frameReadRom s
    if 0 < n then
      let d := frameReadMem 0 n s
      (true, storeMem 0 d.1 d.2)
    else (true, s)

/-- The memory phase of `FAM.READ` inside the overdrive wrap, with its reset (R269). -/
def readInOverdrive (n : Nat) (s : State) : Bool × State :=
  gate (hostReset s) fun s =>
    let d := frameReadMem 0 n (frameOverdriveSkipRom s.cmdBytes s)
    (true, storeMem 0 d.1 d.2)

/-- The sequence of `FAM.READ` for DS1996 (R269). -/
def readSequenceDs1996 (s : State) : Bool × State :=
  overdriveOff (gate (hostReset s) fun s => readInOverdrive 8192 (frameReadRom s))

theorem exec_famRead {s : State} {f : Family} (hr : s.role ≠ .slave) (hfam : familyOf s.famIn = some f) :
    exec .famRead s =
      hostOp true (fun s => let r := readSequence (familyMemSize f) s; reply r.1 0 [] r.2) s := by
  show execFamRead s = _
  rw [execFamRead, State.fam_noSession hr, memSize, hfam]
  rfl

theorem exec_famReadDs1996 {s : State} (hr : s.role ≠ .slave) (hfam : familyOf s.famIn = some .ds1996) :
    exec .famReadDs1996 s =
      hostOp true (fun s => let r := readSequenceDs1996 s; reply r.1 0 [] r.2) s := by
  show execFamReadDs1996 s = _
  rw [execFamReadDs1996, State.fam_noSession hr, hfam]
  rfl

/-- With presence the record is stored, and so is the memory of a family that has one. -/
theorem readSequence_present {s : State} (h : s.oracle.headD false = true) (n : Nat) :
    ∃ (r : Vector Byte 8) (d : List Byte) (t : State),
      wireBits (r.toList ++ d) = nextBits (64 + 8 * n) (s.oracle.drop 1) ∧ d.length = n ∧
      readSequence n s = (true, t) ∧
      SameButHidden t { played (romPhaseEvents r ++ (if 0 < n then memPhaseEvents d else [])) s with
        presence := true, rom := r, mem := memWriteBytes s.epoch s.mem 0 d } := by
  obtain ⟨r, hrom, hsame⟩ := romPhase_same s
  rw [readSequence, gate_reset_present h]
  by_cases hn : 0 < n
  · obtain ⟨d, hlen, hbits, hstored⟩ := memPhase_same hsame n
    have hrest : wireBits d = nextBits (8 * n) ((s.oracle.drop 1).drop 64) := by
      rw [hbits]
      simp [answersUsed_romPhaseEvents]
    refine ⟨r, d, _, ?_, hlen, if_pos hn, ?_⟩
    · rw [wireBits_append, nextBits_add, hrom, hrest]
    · rw [if_pos hn, played_append]
      exact hstored
  · obtain rfl : n = 0 := by omega
    refine ⟨r, [], _, ?_, rfl, if_neg hn, ?_⟩
    · rw [List.append_nil, hrom]
    · rw [if_neg hn, List.append_nil]
      exact hsame

/-- OVERDRIVE_SKIP_ROM after an answered reset: the byte at the old speed, then overdrive (R269, R271). -/
theorem overdriveSkip_same {t u : State} (h : SameButHidden t u) :
    SameButHidden (frameOverdriveSkipRom (afterReset true t).cmdBytes (afterReset true t))
      { played ([.hReset true] ++ writeEvents [u.cmdBytes.overdriveSkipRom]) u with
        presence := true, odHost := true } := by
  have hbytes : (afterReset true t).cmdBytes = u.cmdBytes := by
    obtain ⟨_, _, _, _, _, rfl, -⟩ := h
    rfl
  rw [hbytes, played_append]
  exact (((says_writeByte u.cmdBytes.overdriveSkipRom).2 _).trans
    ((h.afterReset true).played _)).speed true

theorem readInOverdrive_absent {t u : State} (h : SameButHidden t u) (n : Nat)
    (habsent : u.oracle.headD false = false) : readInOverdrive n t = (false, afterReset false t) :=
  gate_reset_absent (h.oracle ▸ habsent) _

/-- The memory phase in overdrive, with an answered reset. -/
theorem readInOverdrive_present {t u : State} (h : SameButHidden t u) (n : Nat)
    (hpresent : u.oracle.headD false = true) :
    ∃ (d : List Byte) (v : State), d.length = n ∧ wireBits d = nextBits (8 * n) (u.oracle.drop 1) ∧
      readInOverdrive n t = (true, v) ∧
      SameButHidden v (storeMem 0 d (played (memPhaseEvents d)
        { played ([.hReset true] ++ writeEvents [u.cmdBytes.overdriveSkipRom]) u with
          presence := true, odHost := true })) := by
  obtain ⟨d, hlen, hbits, hstored⟩ := memPhase_same (overdriveSkip_same h) n
  refine ⟨d, _, hlen, ?_, ?_, hstored⟩
  · rw [hbits]
    simp [answersUsed]
  · rw [readInOverdrive, gate_reset_present (h.oracle ▸ hpresent)]

/-- With presence the record is stored at the speed in force; a second reset decides whether the memory phase
follows, in overdrive. -/
theorem readSequenceDs1996_present {s : State} (h : s.oracle.headD false = true) :
    ∃ r : Vector Byte 8, wireBits r.toList = nextBits 64 (s.oracle.drop 1) ∧
      ((s.oracle.drop 65).headD false = false →
        ∃ t, readSequenceDs1996 s = (false, t) ∧
          SameButHidden t { played (romPhaseEvents r ++ [.hReset false]) s with
            presence := false, rom := r, odHost := false }) ∧
      ((s.oracle.drop 65).headD false = true →
        ∃ (d : List Byte) (t : State), d.length = 8192 ∧ wireBits d = nextBits 65536 (s.oracle.drop 66) ∧
          readSequenceDs1996 s = (true, t) ∧
          SameButHidden t { played (memPhaseEvents d)
              { played (romPhaseEvents r ++ [.hReset true] ++ writeEvents [s.cmdBytes.overdriveSkipRom]) s with
                odHost := true } with
            presence := true, rom := r, mem := memWriteBytes s.epoch s.mem 0 d, odHost := false }) := by
  obtain ⟨r, hrom, hsame⟩ := romPhase_same s
  have horacle : s.oracle.drop 65 = s.oracle.drop (answersUsed (romPhaseEvents r)) := by
    rw [answersUsed_romPhaseEvents]
  rw [readSequenceDs1996, gate_reset_present h, horacle]
  refine ⟨r, hrom, fun hsecond => ?_, fun hsecond => ?_⟩
  · have hread := readInOverdrive_absent hsame 8192 hsecond
    refine ⟨hostSetOverdrive false (afterReset false (frameReadRom (afterReset true s))), ?_, ?_⟩
    · rw [hread, overdriveOff]
    · rw [played_append]
      exact (hsame.afterReset false).speed false
  · obtain ⟨d, t, hlen, hbits, hread, hstored⟩ := readInOverdrive_present hsame 8192 hsecond
    refine ⟨d, hostSetOverdrive false t, hlen, ?_, ?_, ?_⟩
    · rw [hbits]
      simp [answersUsed_romPhaseEvents]
    · rw [hread, overdriveOff]
    · rw [List.append_assoc, played_append]
      exact hstored.speed false

/-- Settles O52: without presence the reset is all there is; with it the phases follow. -/
theorem famReadResult : Obligations.FamReadResult := by
  intro s w f h hfam hne hop
  have hdecode : decodePort s.fam w = .ok .famRead := by
    simp [decodePort, hop, selectRead, State.fam_noSession h.2, hfam, hne]
  rw [exec_famRead h.2 hfam]
  refine ⟨hdecode, fun habsent => ?_, fun hpresent => ?_⟩
  · exact hostOp_answers h (gate_reset_absent (s := beginHost s) habsent _) ⟨_, _, _, _, _, rfl, id⟩
  · obtain ⟨r, d, t, hbits, hlen, hread, hsame⟩ :=
      readSequence_present (s := beginHost s) hpresent (familyMemSize f)
    exact ⟨r, d, exists_and_left.2 ⟨hbits, exists_and_left.2 ⟨hlen,
      hostOp_answers h hread (hsame.trans ⟨_, _, _, _, _, rfl, id⟩)⟩⟩⟩

/-- Settles O53: the first reset decides whether the record is read, the second whether the memory is; every
path ends with `HostSetOverdrive(0)`. -/
theorem famReadDs1996Result : Obligations.FamReadDs1996Result := by
  intro s w h hfam hop
  have hdecode : decodePort s.fam w = .ok .famReadDs1996 := by
    simp [decodePort, hop, selectRead, State.fam_noSession h.2, hfam]
  rw [exec_famReadDs1996 h.2 hfam]
  refine ⟨hdecode, fun habsent => ?_, fun hpresent => ?_⟩
  · have hread : readSequenceDs1996 (beginHost s) =
        (false, hostSetOverdrive false (afterReset false (beginHost s))) := by
      rw [readSequenceDs1996, gate_reset_absent (s := beginHost s) habsent]
      rfl
    exact hostOp_answers h hread ⟨_, _, _, _, _, rfl, id⟩
  · obtain ⟨r, hbits, hfails, hreads⟩ := readSequenceDs1996_present (s := beginHost s) hpresent
    refine ⟨r, hbits, fun hsecond => ?_, fun hsecond => ?_⟩
    · obtain ⟨t, hread, hsame⟩ := hfails hsecond
      exact hostOp_answers h hread (hsame.trans ⟨_, _, _, _, _, rfl, id⟩)
    · obtain ⟨d, t, hlen, hbits, hread, hsame⟩ := hreads hsecond
      exact ⟨d, exists_and_left.2 ⟨hlen, exists_and_left.2 ⟨hbits,
        hostOp_answers h hread (hsame.trans ⟨_, _, _, _, _, rfl, id⟩)⟩⟩⟩

/-! ## `FAM.WRITE_COPY` -/

/-- The sequence of `FAM.WRITE_COPY` for DS1996: the first `n` bytes of MEM, in pages of `pg` bytes (R271). -/
def writeInOverdrive (t : Micros) (pg n : Nat) (s : State) : Bool × State :=
  overdriveOff (gate (hostReset s) fun s =>
    writeMem s.cmdBytes t pg (s.memBytes 0 n) (frameOverdriveSkipRom s.cmdBytes s))

section
variable {s : State} (h : HostReady s)
include h

/-- Check 4 of R324 reads the `fam` input. -/
theorem writeCopySupported_of {f : Family} (hfam : familyOf s.famIn = some f) :
    writeCopySupported s = hasWriteCopy f := by
  rw [writeCopySupported, State.fam_noSession h.2, hfam]

/-- DS1992 writes its memory in pages of 4 bytes (R270). -/
theorem famWriteCopyDs1992_next (hfam : familyOf s.famIn = some .ds1992) (t : Micros) :
    let ms := writeMemMoves s.cmdBytes t 4 (s.memBytes 0 128)
    ∃ k, exec (.famWriteCopyDs1992 t) s =
      .next { endHost (reply (movesOk ms s) 0 [] (afterMoves ms s)) with hFramer := k } := by
  intro ms
  obtain ⟨k, hend⟩ := endPlays (plays_writeMem s.cmdBytes t 4 (s.memBytes 0 128)) s
  refine ⟨k, ?_⟩
  show execFamWriteCopyDs1992 t s = _
  rw [execFamWriteCopyDs1992, writeCopySupported_of h hfam, hasWriteCopy, hostOp_ready h, ← hend]
  rfl

/-- DS1996 writes its memory in pages of 32 bytes inside the overdrive wrap (R271). -/
theorem exec_famWriteCopyDs1996 (hfam : familyOf s.famIn = some .ds1996) (t : Micros) :
    exec (.famWriteCopyDs1996 t) s =
      hostOp true (fun s => let r := writeInOverdrive t 32 8192 s; reply r.1 0 [] r.2) s := by
  show execFamWriteCopyDs1996 t s = _
  rw [execFamWriteCopyDs1996, writeCopySupported_of h hfam]
  rfl

end

theorem writeInOverdrive_absent {s : State} (h : s.oracle.headD false = false) (t : Micros) (pg n : Nat) :
    writeInOverdrive t pg n s = (false, hostSetOverdrive false (afterReset false s)) := by
  rw [writeInOverdrive, gate_reset_absent h, overdriveOff]

/-- With presence the pages are written from the state that OVERDRIVE_SKIP_ROM leaves. -/
theorem writeInOverdrive_present {s : State} (h : s.oracle.headD false = true) (t : Micros) (pg n : Nat) :
    let u : State := { played ([.hReset true] ++ writeEvents [s.cmdBytes.overdriveSkipRom]) s with
      presence := true, odHost := true }
    let ms := writeMemMoves s.cmdBytes t pg (s.memBytes 0 n)
    ∃ v, writeInOverdrive t pg n s = (movesOk ms u, v) ∧
      SameButHidden v { afterMoves ms u with odHost := false } := by
  intro u ms
  have hsame := overdriveSkip_same (.refl s)
  obtain ⟨hok, hafter⟩ := (plays_writeMem s.cmdBytes t pg (s.memBytes 0 n)).2
    (frameOverdriveSkipRom (afterReset true s).cmdBytes (afterReset true s))
  rw [movesOk_same hsame] at hok
  refine ⟨_, ?_, (hafter.trans (afterMoves_same hsame ms)).speed false⟩
  rw [writeInOverdrive, gate_reset_present h, overdriveOff, ← hok]
  rfl

/-- Settles O55: the families with the operation play the moves of their pages, DS1996 after a reset of its
own; check 4 refuses every other family. -/
theorem writeCopyResult : Obligations.WriteCopyResult := by
  intro s w h hop
  have hdecode : decodePort s.fam w = .ok (selectWriteCopy s.famIn w.t32) := by
    simp [decodePort, hop, State.fam_noSession h.2]
  refine ⟨fun hfam => ⟨?_, famWriteCopyDs1992_next h hfam w.t32⟩,
    fun hfam => ⟨?_, fun habsent => ?_, fun hpresent => ?_⟩, fun hfam => ⟨?_, ?_⟩⟩
  · rw [hdecode, selectWriteCopy, hfam]
  · rw [hdecode, selectWriteCopy, hfam]
  · rw [exec_famWriteCopyDs1996 h hfam]
    exact hostOp_answers h (writeInOverdrive_absent (s := beginHost s) habsent w.t32 32 8192)
      ⟨_, _, _, _, _, rfl, id⟩
  · obtain ⟨v, hwrite, hsame⟩ :=
      writeInOverdrive_present (s := beginHost s) hpresent w.t32 32 8192
    rw [exec_famWriteCopyDs1996 h hfam]
    exact hostOp_answers h hwrite (hsame.trans ⟨_, _, _, _, _, rfl, id⟩)
  · rw [hdecode, selectWriteCopy]
    revert hfam
    cases familyOf s.famIn with
    | none => simp
    | some f => cases f <;> simp
  · show execFamWriteCopyAbsent w.t32 s = _
    rw [execFamWriteCopyAbsent, hostOp]
    exact portOp_unsupported h.1 (notSlave_allows h.2) rfl

end Sys2Proof.Machine
end

section
/-! PROOFS. `FAM.WRITE_COPY` for DS1971 (R272), whatever the open frame is (log entry 17): the moves up to the
comparison, and the copy step, which only an equal read-back reaches. -/

namespace Sys2Proof.Machine

/-! ## Events without delays -/

/-- No delay is among these events. -/
def Undelayed (es : List WireEvent) : Prop := ∀ us, WireEvent.hDelay us ∉ es

theorem undelayed_nil : Undelayed [] := fun _ => List.not_mem_nil

theorem Undelayed.append {a b : List WireEvent} (ha : Undelayed a) (hb : Undelayed b) :
    Undelayed (a ++ b) := fun us h => (List.mem_append.1 h).elim (ha us) (hb us)

theorem undelayed_reset (p : Bool) : Undelayed [.hReset p] := fun us => by simp

theorem undelayed_writeEvents (v : List Byte) : Undelayed (writeEvents v) := fun us => by simp [writeEvents]

theorem undelayed_readEvents (bits : List Bool) : Undelayed (readEvents bits) :=
  fun us => by simp [readEvents]

/-- Neither what this move says nor a poll brings a delay. -/
def Move.Undelayed (m : Move) : Prop :=
  (∀ es, m = .say es → Machine.Undelayed es) ∧ ∀ t, m ≠ .poll t

theorem playMove_undelayed {m : Move} (h : m.Undelayed) (o : List Bool) (regs : List Byte) :
    Undelayed (playMove m o regs).events := by
  cases m with
  | reset => exact undelayed_reset _
  | say es => exact h.1 es rfl
  | skip | expect | check | readRegs => exact undelayed_readEvents _
  | sayRegs => exact undelayed_writeEvents _
  | authorized => exact undelayed_nil
  | poll t => exact absurd rfl (h.2 t)

theorem playMoves_undelayed {ms : List Move} (h : ∀ m ∈ ms, m.Undelayed) (o : List Bool)
    (regs : List Byte) : Undelayed (playMoves ms o regs).events := by
  induction ms generalizing o regs with
  | nil => exact undelayed_nil
  | cons m ms ih =>
    have hm := playMove_undelayed (h m (by simp)) o regs
    rw [playMoves]
    simp only
    split
    · exact hm.append (ih (fun m' hm' => h m' (by simp [hm'])) _ _)
    · exact hm

/-! ## What wire events leave -/

/-- What wire events leave of a state: they are on record, the answers they used are gone, and `presence` is the
answer of the last reset among them. -/
def leftBy (es : List WireEvent) (s : State) : State :=
  { played es s with presence := lastPresence s.presence es }

theorem leftBy_append (a b : List WireEvent) (s : State) : leftBy (a ++ b) s = leftBy b (leftBy a s) := by
  rw [leftBy, played_append, lastPresence_append]
  rfl

/-- `t` is what these wire events leave of `s`, but for the hidden registers. -/
def Leaves (es : List WireEvent) (s t : State) : Prop := SameButHidden t (leftBy es s)

theorem Leaves.trans {a b : List WireEvent} {s t u : State} (h : Leaves a s t) (k : Leaves b t u) :
    Leaves (a ++ b) s u := by
  rw [Leaves, leftBy_append]
  exact SameButHidden.trans k (SameButHidden.map h (g := leftBy b) (fun _ _ _ _ _ _ => rfl) fun _ => rfl)

theorem SameButHidden.leaves {t u : State} (h : SameButHidden t u) : Leaves [] u t :=
  h.trans ⟨_, _, _, _, _, by rw [leftBy, played_nil]; rfl, id⟩

theorem Says.leaves {es : List WireEvent} {f : State → State} (h : Says es f) (s : State) :
    Leaves es s (f s) := by
  rw [Leaves, leftBy, h.1.2]
  exact h.2 s

theorem hostReset_leaves (s : State) : ∃ p, Leaves [.hReset p] s (hostReset s).2 := by
  refine ⟨s.oracle.headD false, ?_⟩
  rw [hostReset_eq]
  exact .refl _

theorem hostReadByte_leaves (s : State) :
    Leaves (readEvents (nextBits 8 s.oracle)) s (hostReadByte s).2 := by
  rw [Leaves, leftBy, lastPresence_readEvents]
  exact hostReadBytes_same 1 s

/-- Moves that do not read `AREGS` leave it as it is. -/
theorem playMoves_regs_kept {ms : List Move} (h : Move.readRegs ∉ ms) (o : List Bool) (regs : List Byte) :
    (playMoves ms o regs).regs = regs := by
  induction ms generalizing o regs with
  | nil => rfl
  | cons m ms ih =>
    have hm : (playMove m o regs).regs = regs := by
      cases m with
      | readRegs => simp at h
      | _ => rfl
    rw [playMoves]
    simp only
    split
    · rw [ih (by simp_all), hm]
    · exact hm

/-- What such moves leave is what their events leave. -/
theorem afterMoves_eq {ms : List Move} (h : Move.readRegs ∉ ms) (s : State) :
    afterMoves ms s = leftBy (playFrom ms s).events s := by
  have hregs : (playFrom ms s).regs = s.aregs.toList := playMoves_regs_kept h _ _
  rw [afterMoves, leave, hregs, aregs_toList]
  rfl

theorem SameButHidden.wire {t u : State} (h : SameButHidden t u) : t.wire = u.wire := by
  obtain ⟨_, _, _, _, _, rfl, -⟩ := h
  rfl

/-! ## The moves of the frame -/

/-- A move of the frame leaves its events; one that is no delay brings none. -/
theorem copyMove_leaves (m : CopyMove) (kept : List Byte) (s : State) :
    ∃ es, Leaves es s (copyMove m kept s).2.2 ∧ ((∀ us, m ≠ .delay us) → Undelayed es) := by
  cases m with
  | reset =>
    obtain ⟨p, h⟩ := hostReset_leaves s
    exact ⟨_, h, fun _ => undelayed_reset p⟩
  | write v => exact ⟨_, (says_writeByte v).leaves s, fun _ => undelayed_writeEvents _⟩
  | read | verify => exact ⟨_, hostReadByte_leaves s, fun _ => undelayed_readEvents _⟩
  | echo i => exact ⟨_, (says_writeByte (kept.getD i 0)).leaves s, fun _ => undelayed_writeEvents _⟩
  | delay us => exact ⟨_, (says_delay us).leaves s, fun h => absurd rfl (h us)⟩

theorem copyMoves_leaves (ms : List CopyMove) (kept : List Byte) (s : State) :
    ∃ es, Leaves es s (copyMoves ms kept s).2.2 ∧ ((∀ m ∈ ms, ∀ us, m ≠ .delay us) → Undelayed es) := by
  induction ms generalizing kept s with
  | nil => exact ⟨[], (SameButHidden.refl s).leaves, fun _ => undelayed_nil⟩
  | cons m ms ih =>
    obtain ⟨a, ha, hua⟩ := copyMove_leaves m kept s
    obtain ⟨b, hb, hub⟩ := ih (copyMove m kept s).2.1 (copyMove m kept s).2.2
    rw [copyMoves]
    split
    · exact ⟨a ++ b, ha.trans hb,
        fun h => (hua (h m (by simp))).append (hub fun m' hm' => h m' (by simp [hm']))⟩
    · exact ⟨a, ha, fun h => hua (h m (by simp))⟩

/-! ## The copy step -/

/-- The finalization byte and the settle delay are among these events (R272 d). -/
def Settles (es : List WireEvent) : Prop :=
  ∃ before after, es = before ++ writeEvents [0xA5] ++ [.hDelay 250] ++ after

/-- The copy step comes to 0xA5 and 250 us, or fails before them. -/
theorem copyAfterCompare_leaves (f : CopyFrame) (kept : List Byte) (s : State) :
    ∃ es, Leaves es s (copyAfterCompare f kept s).2 ∧ (Settles es ∨
      (copyAfterCompare f kept s).1 = false ∧
        ((∀ m ∈ f.copyHead, ∀ us, m ≠ .delay us) → Undelayed es)) := by
  obtain ⟨a, ha, hua⟩ := copyMoves_leaves f.copyHead kept s
  rw [copyAfterCompare]
  simp only [gate]
  split
  · have hfinal := says_ds1971Finalization.leaves (copyMoves f.copyHead kept s).2.2
    obtain ⟨b, hb, -⟩ := copyMoves_leaves f.finalCheck (copyMoves f.copyHead kept s).2.1
      (frameDs1971Finalization (copyMoves f.copyHead kept s).2.2)
    exact ⟨_, (ha.trans hfinal).trans hb, .inl ⟨a, b, by simp only [List.append_assoc]⟩⟩
  · exact ⟨a, ha, .inr ⟨Bool.eq_false_iff.2 ‹_›, hua⟩⟩

/-! ## Up to the comparison -/

/-- Moves that all succeed, in two parts. -/
theorem playMoves_append_ok {a b : List Move} {o : List Bool} {regs : List Byte}
    (h : (playMoves (a ++ b) o regs).ok = true) :
    (playMoves a o regs).ok = true ∧
    (playMoves b (playMoves a o regs).oracle (playMoves a o regs).regs).ok = true ∧
    (playMoves (a ++ b) o regs).events = (playMoves a o regs).events ++
      (playMoves b (playMoves a o regs).oracle (playMoves a o regs).regs).events := by
  rw [playMoves_append] at h ⊢
  by_cases ha : (playMoves a o regs).ok = true
  · rw [if_pos ha] at h ⊢
    exact ⟨ha, h, rfl⟩
  · rw [if_neg ha] at h
    exact absurd h ha

/-- Bytes that are read as expected had their bits on the wire. -/
theorem playMoves_expect_ok {bytes : List Byte} {o : List Bool} {regs : List Byte}
    (h : (playMoves [.expect bytes] o regs).ok = true) :
    (playMoves [.expect bytes] o regs).events = readEvents (wireBits bytes) := by
  have hbits := wireBits_bytesOf bytes.length (nextBits (8 * bytes.length) o) (nextBits_length ..)
  have hread : bytesOf bytes.length (nextBits (8 * bytes.length) o) = bytes := by
    by_contra hne
    simp [playMoves, playMove, hne] at h
  rw [hread] at hbits
  simp [playMoves, playMove, hread, hbits]

/-- The wire shows an answered reset, the payload written and the same bytes read back (R272 a, b). -/
def ShowsReadBack (data : List Byte) (es : List WireEvent) : Prop :=
  ∃ e1 e2, es = [.hReset true] ++ e1 ++ writeEvents data ++ e2 ++ readEvents (wireBits data)

/-- The first four moves of the frame succeed if the reset is answered, and end with the payload. -/
theorem playMoves_scratchpad {rom : List WireEvent} {n : Nat} {head data o regs}
    (h : (playMoves [.reset, .say rom, .skip n, .say (writeEvents (head ++ data))] o regs).ok = true) :
    ∃ es, (playMoves [.reset, .say rom, .skip n, .say (writeEvents (head ++ data))] o regs).events =
      [.hReset true] ++ es ++ writeEvents data := by
  cases hpresent : o.headD false with
  | false => simp only [playMoves, playMove, hpresent, Bool.false_eq_true, if_false] at h
  | true =>
    refine ⟨rom ++ readEvents (nextBits (8 * n) (o.drop 1)) ++ writeEvents head, ?_⟩
    simp only [playMoves, playMove, hpresent, if_true, writeEvents_append, List.append_assoc,
      List.append_nil]

theorem ds1971HeadMoves_show {f : CopyFrame} {data : List Byte} {s : State}
    (h : movesOk (ds1971HeadMoves f data) s = true) :
    ShowsReadBack data (playFrom (ds1971HeadMoves f data) s).events := by
  obtain ⟨hhead, hexpect, hevents⟩ := playMoves_append_ok h
  obtain ⟨hscratchpad, -, hbefore⟩ := playMoves_append_ok hhead
  obtain ⟨e1, hwritten⟩ := playMoves_scratchpad hscratchpad
  exact ⟨e1, _, by rw [playFrom, ds1971HeadMoves, hevents, hbefore, hwritten, playMoves_expect_ok hexpect]⟩

/-- An unanswered reset is all there is of the moves up to the comparison. -/
theorem ds1971HeadMoves_absent {s : State} (h : s.oracle.headD false = false) (f : CopyFrame)
    (data : List Byte) :
    movesOk (ds1971HeadMoves f data) s = false ∧
      (playFrom (ds1971HeadMoves f data) s).events = [.hReset false] := by
  simp only [movesOk, playFrom, ds1971HeadMoves, List.cons_append, playMoves, playMove, h,
    Bool.false_eq_true, if_false, and_self]

/-- On the way to the comparison only a delay of the frame's own brings one. -/
theorem ds1971HeadMoves_undelayed {f : CopyFrame} (h : ∀ m ∈ f.readBackHead, ∀ us, m ≠ .delay us)
    (data : List Byte) : ∀ m ∈ ds1971HeadMoves f data, m.Undelayed := by
  intro m hm
  have hsay (v : List Byte) : (Move.say (writeEvents v)).Undelayed :=
    ⟨fun es he => Move.say.inj he ▸ undelayed_writeEvents v, nofun⟩
  simp only [ds1971HeadMoves, List.mem_append, List.mem_cons, List.not_mem_nil, or_false,
    List.mem_map] at hm
  rcases hm with ((rfl | rfl | rfl | rfl) | ⟨k, hk, rfl⟩) | rfl
  · exact ⟨nofun, nofun⟩
  · exact hsay _
  · exact ⟨nofun, nofun⟩
  · exact hsay _
  · cases k with
    | write v => exact hsay _
    | delay us => exact absurd rfl (h _ hk us)
    | reset | read | verify => exact ⟨nofun, nofun⟩
  · exact ⟨nofun, nofun⟩

theorem readRegs_notMem_ds1971HeadMoves (f : CopyFrame) (data : List Byte) :
    Move.readRegs ∉ ds1971HeadMoves f data := by
  have hback : Move.readRegs ∉ f.readBackHead.map headMove := by
    rintro h
    obtain ⟨k, -, hk⟩ := List.mem_map.1 h
    cases k <;> cases hk
  simp [ds1971HeadMoves, hback]

/-! ## The write-copy -/

section
variable {f : CopyFrame} {s : State}

/-- The moves up to the comparison with the payload `MEM[0..31]`. -/
def compareMoves (f : CopyFrame) (s : State) : List Move := ds1971HeadMoves f (s.memBytes 0 32)

/-- A move that fails ends the write-copy. -/
theorem writeCopyDs1971_fails (h : movesOk (compareMoves f s) s = false) :
    ∃ t, writeCopyDs1971 f s = (false, t) ∧ SameButHidden t (afterMoves (compareMoves f s) s) := by
  obtain ⟨hok, hsame⟩ := (plays_copyToCompare f (s.memBytes 0 32)).2 s
  have hfail : (copyToCompare f (s.memBytes 0 32) s).1 = false := hok.trans h
  refine ⟨_, ?_, hsame⟩
  simp only [writeCopyDs1971, gate, hfail, Bool.false_eq_true, if_false]

/-- After an equal read-back the copy step follows. -/
theorem writeCopyDs1971_goesOn (h : movesOk (compareMoves f s) s = true) :
    ∃ (ok : Bool) (t : State) (es : List WireEvent), writeCopyDs1971 f s = (ok, t) ∧
      Leaves es (afterMoves (compareMoves f s) s) t ∧ (Settles es ∨
        ok = false ∧ ((∀ m ∈ f.copyHead, ∀ us, m ≠ .delay us) → Undelayed es)) := by
  obtain ⟨hok, hsame⟩ := (plays_copyToCompare f (s.memBytes 0 32)).2 s
  obtain ⟨es, hleaves, hcases⟩ := copyAfterCompare_leaves f
    (copyToCompare f (s.memBytes 0 32) s).2.1 (copyToCompare f (s.memBytes 0 32) s).2.2
  refine ⟨_, _, es, ?_, hsame.leaves.trans hleaves, hcases⟩
  rw [writeCopyDs1971, gate, if_pos (hok.trans h)]

end

/-- The wire shows all that R272 asks for: the payload written, the same bytes read back, and after that 0xA5
and 250 us. -/
def ShowsCopy (data : List Byte) (es : List WireEvent) : Prop :=
  ∃ e1 e2 e3 e4, es = [.hReset true] ++ e1 ++ writeEvents data ++ e2 ++ readEvents (wireBits data) ++
    e3 ++ writeEvents [0xA5] ++ [.hDelay 250] ++ e4

theorem ShowsReadBack.settles {data : List Byte} {a b : List WireEvent} (ha : ShowsReadBack data a)
    (hb : Settles b) : ShowsCopy data (a ++ b) := by
  obtain ⟨e1, e2, rfl⟩ := ha
  obtain ⟨e3, e4, rfl⟩ := hb
  exact ⟨e1, e2, e3, e4, by simp only [List.append_assoc]⟩

section
variable {s : State} (h : HostReady s) (hfam : familyOf s.famIn = some .ds1971) (t : Micros)
include h hfam

theorem exec_famWriteCopyDs1971 :
    exec (.famWriteCopyDs1971 t) s =
      hostOp true (fun s => let r := writeCopyDs1971 Config.ds1971CopyFrame s; reply r.1 0 [] r.2) s := by
  show execFamWriteCopyDs1971 t s = _
  rw [execFamWriteCopyDs1971, writeCopySupported_of h hfam]
  rfl

/-- If a move up to the comparison fails, nothing follows. -/
theorem famWriteCopyDs1971_fails (hms : movesOk (compareMoves Config.ds1971CopyFrame s) s = false) :
    ∃ k, exec (.famWriteCopyDs1971 t) s = .next { endHost (reply false 0 []
      (afterMoves (compareMoves Config.ds1971CopyFrame s) s)) with hFramer := k } := by
  obtain ⟨v, hcopy, hsame⟩ := writeCopyDs1971_fails (s := beginHost s) hms
  rw [exec_famWriteCopyDs1971 h hfam]
  exact hostOp_answers h hcopy (hsame.trans ⟨_, _, _, _, _, rfl, id⟩)

/-- After an equal read-back success takes 0xA5 and 250 us. -/
theorem famWriteCopyDs1971_goesOn (hms : movesOk (compareMoves Config.ds1971CopyFrame s) s = true) :
    ∃ (ok : Bool) (es : List WireEvent), (ok = true → Settles es) ∧
      ∃ k, exec (.famWriteCopyDs1971 t) s = .next { endHost (reply ok 0 []
        (leftBy es (afterMoves (compareMoves Config.ds1971CopyFrame s) s))) with hFramer := k } := by
  obtain ⟨ok, v, es, hcopy, hleaves, hcases⟩ := writeCopyDs1971_goesOn (s := beginHost s) hms
  refine ⟨ok, es, fun hok => hcases.resolve_right fun hfail => ?_, ?_⟩
  · exact absurd (hok.symm.trans hfail.1) (by decide)
  · rw [exec_famWriteCopyDs1971 h hfam]
    exact hostOp_answers h hcopy (SameButHidden.trans hleaves ⟨_, _, _, _, _, rfl, id⟩)

end

/-- Every way through the operation in one: its events, and what success and an unanswered reset mean. -/
theorem famWriteCopyDs1971_next {s : State} (h : HostReady s) (hfam : familyOf s.famIn = some .ds1971)
    (t : Micros) :
    ∃ (ok p : Bool) (es : List WireEvent) (k : HostFramer),
      exec (.famWriteCopyDs1971 t) s =
        .next { endHost (reply ok 0 [] { played es s with presence := p }) with hFramer := k } ∧
      (ok = true → ShowsCopy (s.memBytes 0 32) es) ∧
      (s.oracle.headD false = false → ok = false ∧ es = [.hReset false] ∧ p = false) := by
  have hafter := afterMoves_eq (readRegs_notMem_ds1971HeadMoves Config.ds1971CopyFrame (s.memBytes 0 32)) s
  cases hms : movesOk (compareMoves Config.ds1971CopyFrame s) s with
  | false =>
    obtain ⟨k, hnext⟩ := famWriteCopyDs1971_fails h hfam t hms
    rw [compareMoves, hafter] at hnext
    refine ⟨false, _, _, k, hnext, nofun, fun habsent => ?_⟩
    rw [(ds1971HeadMoves_absent habsent _ _).2]
    exact ⟨rfl, rfl, rfl⟩
  | true =>
    obtain ⟨ok, es, hok, k, hnext⟩ := famWriteCopyDs1971_goesOn h hfam t hms
    rw [compareMoves, hafter, ← leftBy_append] at hnext
    refine ⟨ok, _, _, k, hnext, fun hsuccess => (ds1971HeadMoves_show hms).settles (hok hsuccess),
      fun habsent => ?_⟩
    exact absurd (hms.symm.trans (ds1971HeadMoves_absent habsent _ _).1) (by decide)

/-- For a frame without delays of its own the settle delay is the only one, and the copy step has it. -/
theorem writeCopyDs1971_wire {f : CopyFrame} {s : State}
    (hback : ∀ m ∈ f.readBackHead, ∀ us, m ≠ .delay us)
    (hcopy : ∀ m ∈ f.copyHead ++ f.finalCheck, ∀ us, m ≠ .delay us) :
    ∃ es, (writeCopyDs1971 f s).2.wire = es.reverse ++ s.wire ∧
      ((writeCopyDs1971 f s).1 = true → ShowsCopy (s.memBytes 0 32) es) ∧
      (WireEvent.hDelay 250 ∈ es → ShowsCopy (s.memBytes 0 32) es) := by
  have hhead : Undelayed (playFrom (compareMoves f s) s).events :=
    playMoves_undelayed (ds1971HeadMoves_undelayed hback _) _ _
  cases hms : movesOk (compareMoves f s) s with
  | false =>
    obtain ⟨t, hrun, hsame⟩ := writeCopyDs1971_fails hms
    rw [hrun]
    exact ⟨_, hsame.wire, nofun, fun hdelay => absurd hdelay (hhead 250)⟩
  | true =>
    obtain ⟨ok, t, es, hrun, hleaves, hcases⟩ := writeCopyDs1971_goesOn hms
    have hwire : t.wire = ((playFrom (compareMoves f s) s).events ++ es).reverse ++ s.wire := by
      rw [SameButHidden.wire hleaves, List.reverse_append, List.append_assoc]
      rfl
    rw [hrun]
    refine ⟨_, hwire, ?_⟩
    rcases hcases with hsettles | ⟨rfl, hundelayed⟩
    · have hshows := (ds1971HeadMoves_show hms).settles hsettles
      exact ⟨fun _ => hshows, fun _ => hshows⟩
    · have hnone := hhead.append (hundelayed fun m hm => hcopy m (List.mem_append_left _ hm))
      exact ⟨nofun, fun hdelay => absurd hdelay (hnone 250)⟩

/-- The moves up to the comparison have the shape of R272 (a), (b), and but for the payload they send no byte
0xA5 (c): the frame's type has none there. -/
theorem ds1971HeadMoves_shape (f : CopyFrame) (data : List Byte) :
    ∃ (rom : List Byte) (n : Nat) (head : List Byte) (back : List Move),
      ds1971HeadMoves f data =
        [.reset, .say (writeEvents rom), .skip n, .say (writeEvents (head ++ data))] ++ back ++
          [.expect data] ∧
      0xA5 ∉ rom ∧ 0xA5 ∉ head ∧
      ∀ m ∈ back, m = .reset ∨ m = .skip 1 ∨ (∃ mask v, m = .check mask v) ∨
        (∃ us, m = .say [.hDelay us]) ∨ ∃ v, v ≠ 0xA5 ∧ m = .say (writeEvents [v]) := by
  have hbytes (v : List HeadByte) : 0xA5 ∉ v.map (·.val) := fun h => by
    obtain ⟨b, -, hb⟩ := List.mem_map.1 h
    exact b.property hb
  refine ⟨_, _, _, _, rfl, hbytes f.romCommand, hbytes f.writeHead, fun m hm => ?_⟩
  obtain ⟨k, -, rfl⟩ := List.mem_map.1 hm
  cases k with
  | reset => exact .inl rfl
  | read => exact .inr (.inl rfl)
  | verify mask v => exact .inr (.inr (.inl ⟨mask, v, rfl⟩))
  | delay us => exact .inr (.inr (.inr (.inl ⟨us, rfl⟩)))
  | write v => exact .inr (.inr (.inr (.inr ⟨v.val, v.property, rfl⟩)))

/-- Settles O56: the comparison decides whether the copy step follows; the copy step has the finalization byte
and the settle delay. -/
theorem ds1971WriteCopy : Obligations.Ds1971WriteCopy := by
  refine ⟨fun s w h hfam hop => ⟨?_, famWriteCopyDs1971_next h hfam w.t32,
    famWriteCopyDs1971_fails h hfam w.t32, fun hms => ?_⟩, ds1971HeadMoves_shape,
    fun f s hback hcopy => writeCopyDs1971_wire hback hcopy⟩
  · simp [decodePort, hop, selectWriteCopy, State.fam_noSession h.2, hfam]
  · obtain ⟨ok, es, hok, k, hnext⟩ := famWriteCopyDs1971_goesOn h hfam w.t32 hms
    exact ⟨ok, _, es, k, hnext, hok⟩

end Sys2Proof.Machine
end

section
/-! PROOFS. The blank writers (R302 to R304) and `FAM.WRITE_ID` (R305): each writer plays its moves; the writers
of a family follow each other until one succeeds. -/

namespace Sys2Proof.Machine

/-! ## The blank writers -/

/-- Settles O57: each operation is its writer between the two writes of `role`. -/
theorem blankWriterResults : Obligations.BlankWriterResults := by
  refine fun s w h hlen => ⟨fun hop => ⟨?_, hostOp_plays h (plays_writeV1 w.din)⟩,
    fun hop => ⟨?_, hostOp_plays h (plays_writeV2 w.din)⟩,
    fun hop => ⟨?_, hostOp_plays h (plays_writeTm2004 w.din)⟩⟩
  all_goals simp [decodePort, hop, withPayload, hlen]

/-! ## Writers one after another -/

/-- A sequence has come to this verdict and, but for hidden registers, to this state. -/
def EndsIn (r : Bool × State) (ok : Bool) (u : State) : Prop := r.1 = ok ∧ SameButHidden r.2 u

theorem Plays.endsIn {ms : List Move} {f : State → Bool × State} (hf : Plays ms f) {t u : State}
    (h : SameButHidden t u) : EndsIn (f t) (movesOk ms u) (afterMoves ms u) := by
  obtain ⟨hok, hafter⟩ := hf.2 t
  exact ⟨hok.trans (movesOk_same h ms), hafter.trans (afterMoves_same h ms)⟩

/-- The first success ends it (R305). -/
theorem EndsIn.orElse_success {r : Bool × State} {ok : Bool} {u : State} (h : EndsIn r ok u)
    (hok : ok = true) (k : State → Bool × State) : EndsIn (orElse r k) true u := by
  subst hok
  rwa [orElse, if_pos h.1]

/-- After a failure the next writer decides, from what the failed one left (R305). -/
theorem EndsIn.orElse_plays {r : Bool × State} {ok : Bool} {u : State} (h : EndsIn r ok u)
    (hok : ok = false) {ms : List Move} {k : State → Bool × State} (hk : Plays ms k) :
    EndsIn (orElse r k) (movesOk ms u) (afterMoves ms u) := by
  rw [orElse, if_neg (by simp [h.1, hok])]
  exact hk.endsIn h.2

/-! ## `FAM.WRITE_ID` -/

/-- A family with a list of writers is none of those that have no `FAM.WRITE_ID` (R305). -/
theorem writers_supported :
    ∀ f ∈ [some .generic, some .ds1971, some .ds1996] ++ [some .ds1990, some .ds1420],
      f ∉ [none, some Family.ds1992] := by
  decide

/-- The families that have the TM2004 writer alone (R305). -/
theorem writeId_tm2004 {sel : FamSel} (hfam : familyOf sel ∈ [some .generic, some .ds1971, some .ds1996])
    (s : State) : writeId sel s = writeTm2004 s.rom.toList s := by
  simp only [List.mem_cons, List.not_mem_nil, or_false] at hfam
  rcases hfam with hfam | hfam | hfam <;> simp only [writeId, hfam]

/-- The families that have all three writers, in their order (R305). -/
theorem writeId_inOrder {sel : FamSel} (hfam : familyOf sel ∈ [some .ds1990, some .ds1420]) (s : State) :
    writeId sel s =
      orElse (orElse (writeV1 s.rom.toList s) (writeV2 s.rom.toList)) (writeTm2004 s.rom.toList) := by
  simp only [List.mem_cons, List.not_mem_nil, or_false] at hfam
  rcases hfam with hfam | hfam <;> simp only [writeId, hfam]

/-- Check 4 of R324 reads the `fam` input: DS1992 and the reserved values have no writer (log entry 16). -/
theorem writeIdSupported_eq {s : State} (hr : s.role ≠ .slave) :
    writeIdSupported s = decide (familyOf s.famIn ∉ [none, some .ds1992]) := by
  rw [writeIdSupported, State.fam_noSession hr]
  cases familyOf s.famIn with
  | none => rfl
  | some f => cases f <;> rfl

section
variable {s : State} (h : HostReady s)
include h

/-- Where a writer exists, the operation ends as the writers of the family do. -/
theorem famWriteId_next (hfam : familyOf s.famIn ∉ [none, some .ds1992]) {ok : Bool} {u : State}
    (hend : EndsIn (writeId s.famIn (beginHost s)) ok { u with role := .host }) :
    ∃ k, exec .famWriteId s = .next { endHost (reply ok 0 [] u) with hFramer := k } := by
  show ∃ k, execFamWriteId s = _
  rw [execFamWriteId, State.fam_noSession h.2, writeIdSupported_eq h.2, decide_eq_true hfam]
  exact hostOp_answers h (Prod.ext hend.1 rfl) hend.2

theorem famWriteId_refused (hfam : familyOf s.famIn ∈ [none, some .ds1992]) :
    exec .famWriteId s = .next (refuse .errUnsupported s) := by
  show execFamWriteId s = _
  rw [execFamWriteId, writeIdSupported_eq h.2, hostOp]
  exact portOp_unsupported h.1 (notSlave_allows h.2) (decide_eq_false (not_not.2 hfam))

end

/-- Settles O58: what a writer leaves is where the next one starts, so the verdicts of the moves, in the order
of the family, say which writer is the last. -/
theorem writeIdFallback : Obligations.WriteIdFallback := by
  intro s w h hop d v1 v2 ends
  have hbegin := SameButHidden.beginHost s
  refine ⟨by simp [decodePort, hop], fun hfam => ?_, fun hfam => ?_, famWriteId_refused h⟩
  · refine famWriteId_next h (writers_supported _ (List.mem_append_left _ hfam)) ?_
    rw [writeId_tm2004 hfam]
    exact (plays_writeTm2004 d).endsIn hbegin
  · have hnext {ok : Bool} {u : State} :=
      famWriteId_next h (writers_supported _ (List.mem_append_right _ hfam)) (ok := ok) (u := u)
    rw [writeId_inOrder hfam] at hnext
    have hV1 := (plays_writeV1 d).endsIn hbegin
    refine ⟨fun h1 => hnext ?_, fun h1 h2 => hnext ?_, fun h1 h2 => hnext ?_⟩
    · exact (hV1.orElse_success h1 _).orElse_success rfl _
    · exact (hV1.orElse_plays h1 (plays_writeV2 d)).orElse_success h2 _
    · exact (hV1.orElse_plays h1 (plays_writeV2 d)).orElse_plays h2 (plays_writeTm2004 d)

end Sys2Proof.Machine
end

section
/-! PROOFS. The refusals of a port operation in their order (R324), and the fault state (R322). -/

namespace Sys2Proof.Machine

/-! ## The checks by operation select -/

/-- The table of R335 by operation select, as the policy that stands in front of the operation. -/
def policyOf (op : Byte) : RolePolicy :=
  if op ∈ ([0x00, 0x01, 0x02, 0x03, 0x04, 0x05, 0x09, 0x0A, 0x0D, 0x0F] : List Byte) then .always
  else if op = 0x20 then .offOnly
  else if op = 0x21 then .slaveOnly
  else .notSlave

theorem roleAllows_eq (op : Byte) (r : Role) : roleAllows op r = (policyOf op).allows r := by
  unfold roleAllows policyOf
  split_ifs <;> cases r <;> rfl

/-- `EMU.START` and `FAM.READ` want a family (R200, R268). -/
theorem familyLacks_eq_isSome {op : Byte} (h : op = 0x20 ∨ op = 0x38) (fam : FamSel) :
    familyLacks op fam = !(familyOf fam).isSome := by
  rw [familyLacks, if_pos h]
  cases familyOf fam <;> rfl

theorem familyLacks_writeCopy (s : State) : familyLacks 0x39 s.fam = !writeCopySupported s := by
  unfold writeCopySupported
  generalize s.fam = fam
  revert fam
  decide

theorem familyLacks_writeId (s : State) : familyLacks 0x3A s.fam = !writeIdSupported s := by
  unfold writeIdSupported
  generalize s.fam = fam
  revert fam
  decide

/-- Check 5 of R324 says of an index that it is too large, the operation that it is small enough. -/
theorem decide_le_eq_not_lt (bound a : Nat) : decide (bound ≤ a) = !decide (a < bound) := by
  rw [← decide_not, decide_eq_decide, not_lt]

/-! ## What stands behind a port operation -/

/-- Check 6 of R324: the contract of `SEQ.WRITE_MEM` is broken (R267). -/
def BreaksContract (w : PortWord) : Prop := w.opsel = 0x36 ∧ (w.pg = 0 ∨ ¬ w.pg.toNat ∣ w.len.toNat)

/-- What an operation leaves that checks 1 to 5 let through: the contract violation, or an answer. -/
structure Runs (w : PortWord) (s t : State) : Prop where
  contract : BreaksContract w → t = raiseContract s
  answer : ¬ BreaksContract w → t.status = .ok ∨ t.status = .fail

theorem reply_status (b : Bool) (v : Byte) (d : List Byte) (s : State) :
    (reply b v d s).status = .ok ∨ (reply b v d s).status = .fail := by
  cases b
  · exact .inr rfl
  · exact .inl rfl

/-- A port operation under the checks of its operation select. It was decoded for the family `fam`; check 4
is that of R324 where this is the family in force. -/
inductive Guarded (fam : FamSel) (w : PortWord) (s : State) : Host.Outcome State Fault Refusal → Prop where
  /-- A reserved select: check 2 refuses it (R93). -/
  | reserved (hop : w.opsel ∉ assignedSelects) :
      Guarded fam w s (portOp .always true true (fun s => refuse .errIllegalOp s) s)
  | assigned {supported inRange : Bool} {run : State → State} (hop : w.opsel ∈ assignedSelects)
      (hfam : fam = s.fam → familyLacks w.opsel s.fam = !supported)
      (hrange : outOfRange w.opsel w.a16 s.fam = !inRange)
      (hrun : supported = true → Runs w s (run s)) :
      Guarded fam w s (portOp (policyOf w.opsel) supported inRange run s)

section
variable {fam : FamSel} {w : PortWord} {s : State} {run : State → State} {n : Nat} {policy : RolePolicy}
  {supported inRange : Bool}

theorem opsel_eq (h : w.opsel.toNat = n) : w.opsel = BitVec.ofNat 8 n := by
  rw [← h, BitVec.ofNat_toNat, BitVec.setWidth_eq]

/-- An operation without a contract, from the row of its select. -/
theorem Guarded.answers (hop : w.opsel.toNat = n)
    (hsel : BitVec.ofNat 8 n ∈ assignedSelects ∧ policyOf (BitVec.ofNat 8 n) = policy ∧ BitVec.ofNat 8 n ≠ 0x36)
    (hfam : fam = s.fam → familyLacks (BitVec.ofNat 8 n) s.fam = !supported)
    (hrange : outOfRange (BitVec.ofNat 8 n) w.a16 s.fam = !inRange)
    (hrun : supported = true → (run s).status = .ok ∨ (run s).status = .fail) :
    Guarded fam w s (portOp policy supported inRange run s) := by
  rw [← opsel_eq hop] at hsel hfam hrange
  obtain ⟨hmem, rfl, hne⟩ := hsel
  exact .assigned hmem hfam hrange fun h => ⟨fun hbreaks => absurd hbreaks.1 hne, fun _ => hrun h⟩

/-- A host-role operation: its sequence ends with a reply. -/
theorem Guarded.onLine (hop : w.opsel.toNat = n)
    (hsel : BitVec.ofNat 8 n ∈ assignedSelects ∧ policyOf (BitVec.ofNat 8 n) = .notSlave ∧
      BitVec.ofNat 8 n ≠ 0x36)
    (hfam : fam = s.fam → familyLacks (BitVec.ofNat 8 n) s.fam = !supported)
    (hrange : outOfRange (BitVec.ofNat 8 n) w.a16 s.fam = false)
    (hrun : ∀ u, ∃ b v d x, run u = reply b v d x) : Guarded fam w s (hostOp supported run s) := by
  obtain ⟨b, v, d, x, e⟩ := hrun (beginHost s)
  refine .answers hop hsel hfam hrange fun _ => ?_
  rw [e]
  exact reply_status b v d x

/-- `SEQ.WRITE_MEM` checks its contract, then writes the pages (R267). -/
theorem Guarded.writeMem (hop : w.opsel.toNat = 0x36) (hlen : w.din.length = w.len.toNat) :
    Guarded fam w s (execSeqWriteMem w.t32 w.pg w.din s) := by
  have hop := opsel_eq hop
  have hcontract : writeMemContract w.pg w.din = true ↔ ¬ BreaksContract w := by
    rw [writeMemContract_iff, hlen, ← Nat.dvd_iff_mod_eq_zero, BreaksContract, hop]
    tauto
  have hpolicy : policyOf w.opsel = .notSlave := by rw [hop]; decide
  rw [execSeqWriteMem, ← hpolicy]
  refine .assigned (by rw [hop]; decide) (fun _ => by rw [hop]; rfl) (by rw [hop]; rfl) fun _ => ⟨?_, ?_⟩
  · intro hbreaks
    exact if_neg fun h => hcontract.1 h hbreaks
  · intro hkept
    rw [if_pos (hcontract.2 hkept)]
    exact reply_status _ 0 [] (Machine.writeMem s.cmdBytes w.t32 w.pg.toNat w.din (beginHost s)).2

end

theorem withPayload_eq_ok {w : PortWord} {mk : List Byte → Instr} {i : Instr} (h : withPayload w mk = .ok i) :
    w.din.length = w.len.toNat ∧ mk w.din = i := by
  unfold withPayload at h
  split at h
  · exact ⟨‹_›, Except.ok.inj h⟩
  · cases h

/-- `FAM.READ`, whichever row the family selects (R268, R269). -/
theorem guarded_read {fam : FamSel} {w : PortWord} (hop : w.opsel.toNat = 0x38) (s : State) :
    Guarded fam w s (exec (selectRead fam) s) := by
  have hfam : fam = s.fam → familyLacks 0x38 s.fam = !(familyOf s.fam).isSome :=
    fun _ => familyLacks_eq_isSome (.inr rfl) s.fam
  unfold selectRead
  split
  · dsimp only [exec, execFamReadDs1996]
    exact .onLine hop (by decide) hfam rfl fun _ => ⟨_, _, _, _, rfl⟩
  · dsimp only [exec, execFamRead]
    exact .onLine hop (by decide) hfam rfl fun _ => ⟨_, _, _, _, rfl⟩

/-- `FAM.WRITE_COPY`, whichever row the family selects (R270 to R273). -/
theorem guarded_writeCopy {fam : FamSel} {w : PortWord} (hop : w.opsel.toNat = 0x39) (s : State) :
    Guarded fam w s (exec (selectWriteCopy fam w.t32) s) := by
  have hfam : fam = s.fam → familyLacks 0x39 s.fam = !writeCopySupported s :=
    fun _ => familyLacks_writeCopy s
  unfold selectWriteCopy
  split
  · dsimp only [exec, execFamWriteCopyDs1992]
    exact .onLine hop (by decide) hfam rfl fun _ => ⟨_, _, _, _, rfl⟩
  · dsimp only [exec, execFamWriteCopyDs1996]
    exact .onLine hop (by decide) hfam rfl fun _ => ⟨_, _, _, _, rfl⟩
  · dsimp only [exec, execFamWriteCopyDs1971]
    exact .onLine hop (by decide) hfam rfl fun _ => ⟨_, _, _, _, rfl⟩
  · rename_i h1992 h1996 h1971
    dsimp only [exec, execFamWriteCopyAbsent, hostOp]
    refine .answers hop (by decide) (fun e => ?_) rfl nofun
    subst e
    simpa [familyLacks] using ⟨h1971, h1992, h1996⟩

/-- Every port operation stands under the checks of its select. -/
theorem exec_guarded {fam : FamSel} {w : PortWord} {i : Instr} (h : decodePort fam w = .ok i) (s : State) :
    Guarded fam w s (exec i s) := by
  have hdecode := h
  unfold decodePort at h
  split at h
  -- the operations of every role, `ROM.APPLY` and `EMU.STOP`: neither a check 4 nor a check 5
  case h_1 hop | h_2 hop | h_3 hop | h_4 hop | h_6 hop | h_9 hop | h_10 hop | h_25 hop =>
    cases h
    dsimp only [exec, execNop, execCrcClr, execCrcBit, execCrcByte, execCrcGet, execRomValid, execRomApply,
      execEmuStop]
    exact .answers hop (by decide) (fun _ => rfl) rfl fun _ => .inl rfl
  case h_5 hop =>
    obtain ⟨_, rfl⟩ := withPayload_eq_ok h
    dsimp only [exec, execCrcBuf]
    exact .answers hop (by decide) (fun _ => rfl) rfl fun _ => .inl rfl
  -- the byte access operations: check 5
  case h_7 hop | h_8 hop | h_11 hop | h_12 hop | h_13 hop | h_14 hop =>
    cases h
    dsimp only [exec, execRomWr, execRomRd, execMemWr, execMemRd, execAregsWr, execAregsRd]
    exact .answers hop (by decide) (fun _ => rfl) (decide_le_eq_not_lt _ _) fun _ => .inl rfl
  case h_24 hop =>
    cases h
    dsimp only [exec, execEmuStart]
    exact .answers hop (by decide) (fun _ => familyLacks_eq_isSome (.inl rfl) s.fam) rfl fun _ => .inl rfl
  -- the host-role operations
  case h_15 hop | h_16 hop | h_17 hop | h_18 hop | h_19 hop | h_21 hop | h_22 hop | h_23 hop | h_26 hop |
      h_27 hop | h_29 hop | h_30 hop | h_31 hop =>
    cases h
    dsimp only [exec, execOwReset, execOwWbit, execOwRbit, execOwWbyte, execOwRbyte, execOwRbytes, execOwSetod,
      execOwDelay, execSeqSkipRom, execSeqReadRom, execSeqReadScratch, execSeqCopyScratch, execSeqReadMem]
    exact .onLine hop (by decide) (fun _ => rfl) rfl fun _ => ⟨_, _, _, _, rfl⟩
  case h_20 hop | h_28 hop | h_36 hop | h_37 hop | h_38 hop =>
    obtain ⟨_, rfl⟩ := withPayload_eq_ok h
    dsimp only [exec, execOwWbytes, execSeqWriteScratch, execBwRw1990V1, execBwRw1990V2, execBwTm2004]
    exact .onLine hop (by decide) (fun _ => rfl) rfl fun _ => ⟨_, _, _, _, rfl⟩
  case h_32 hop =>
    obtain ⟨hlen, rfl⟩ := withPayload_eq_ok h
    exact .writeMem hop hlen
  case h_33 hop =>
    cases h
    exact guarded_read hop s
  case h_34 hop =>
    cases h
    exact guarded_writeCopy hop s
  case h_35 hop =>
    cases h
    dsimp only [exec, execFamWriteId]
    exact .onLine hop (by decide) (fun _ => familyLacks_writeId s) rfl fun _ => ⟨_, _, _, _, rfl⟩
  case h_39 =>
    cases h
    exact .reserved ((decodePort_reserved_iff fam w).1 hdecode)

/-! ## The order of the refusals -/

theorem portOp_fault {s : State} (hf : s.fault = true) (policy : RolePolicy) (supported inRange : Bool)
    (run : State → State) : portOp policy supported inRange run s = .next (refuse .fault s) := if_pos hf

/-- An operation that no check refuses. -/
theorem firstRefusal_none {w : PortWord} {s : State} (h : firstRefusal w s = none) :
    s.fault = false ∧ w.opsel ∈ assignedSelects ∧ familyLacks w.opsel s.fam = false := by
  unfold firstRefusal at h
  split_ifs at h with hf hop hrole hfam
  exact ⟨Bool.eq_false_iff.2 hf, hop, Bool.eq_false_iff.2 hfam⟩

/-- The checks of an assigned select are those of R324, one by one. -/
theorem portOp_firstRefusal {w : PortWord} {s : State} {supported inRange : Bool} (run : State → State)
    (hop : w.opsel ∈ assignedSelects) (hfam : familyLacks w.opsel s.fam = !supported)
    (hrange : outOfRange w.opsel w.a16 s.fam = !inRange) :
    portOp (policyOf w.opsel) supported inRange run s =
      .next ((firstRefusal w s).elim (run s) (refuse · s)) := by
  rw [portOp, firstRefusal, if_neg (not_not.2 hop), roleAllows_eq, hfam, hrange]
  split_ifs <;> rfl

/-- Check 2 refuses a reserved select after check 1 (R93). -/
theorem portOp_reserved {w : PortWord} {s : State} (hop : w.opsel ∉ assignedSelects) :
    portOp .always true true (fun s => refuse .errIllegalOp s) s =
      .next ((firstRefusal w s).elim s (refuse · s)) := by
  rw [portOp, firstRefusal, if_pos hop]
  cases s.fault <;> rfl

section
variable {fam : FamSel} {w : PortWord} {s : State} {o : Host.Outcome State Fault Refusal}

/-- Check 1 stands in front of every port operation, whatever family it was decoded for. -/
theorem Guarded.fault (h : Guarded fam w s o) (hf : s.fault = true) : o = .next (refuse .fault s) := by
  cases h with
  | reserved => exact portOp_fault hf _ _ _ _
  | assigned => exact portOp_fault hf _ _ _ _

/-- The first check that applies decides; where none does the operation runs. -/
theorem Guarded.next (h : Guarded s.fam w s o) :
    ∃ t, o = .next ((firstRefusal w s).elim t (refuse · s)) ∧ (firstRefusal w s = none → Runs w s t) := by
  cases h with
  | reserved hop =>
    exact ⟨s, portOp_reserved hop, fun hnone => absurd (firstRefusal_none hnone).2.1 hop⟩
  | assigned hop hfam hrange hrun =>
    refine ⟨_, portOp_firstRefusal _ hop (hfam rfl) hrange, fun hnone => hrun ?_⟩
    obtain ⟨_, _, hlacks⟩ := firstRefusal_none hnone
    simpa [hlacks] using hfam rfl

end

/-- An operation that answers `OK` or `FAIL` leaves no fault, and `ok` = 1 comes with `OK` alone (R30). -/
theorem PortEffect.answered {starts stops : Prop} {s t : State} (h : PortEffect starts stops s t)
    (hf : s.fault = false) (hst : t.status = .ok ∨ t.status = .fail) :
    t.fault = false ∧ (t.ok = true → t.status = .ok) := by
  cases h with
  | refused => exact ⟨hf, nofun⟩
  | offLine _ _ _ _ _ _ _ _ _ hok => exact ⟨hf, hok⟩
  | onLine b v d u _ _ hu =>
    obtain ⟨_, _, _, _, _, _, _, _, _, _, _, _, _, _, rfl, _⟩ := hu
    exact ⟨hf, reply_okStatus b v d s⟩
  | contract => exact absurd hst (by simp)
  | start | stop => exact ⟨hf, fun _ => rfl⟩

/-- Settles O13: the first check that applies decides, then the contract, and what is left answers. -/
theorem refusalOrder : Obligations.RefusalOrder := by
  intro s w i h
  obtain ⟨t, hnext, hruns⟩ := (exec_guarded h s).next
  refine ⟨fun st hst => by rw [hnext, hst]; rfl, fun hnone => ?_⟩
  obtain ⟨hcontract, hanswer⟩ := hruns hnone
  rw [hnone, Option.elim_none] at hnext
  refine ⟨fun hbreaks => by rw [hnext, hcontract hbreaks]; rfl, fun hkept => ⟨t, hnext, hanswer hkept, ?_⟩⟩
  obtain ⟨u, hu, heffect⟩ := exec_port h s
  obtain rfl : u = t := Host.Outcome.next.inj (hu.symm.trans hnext)
  exact heffect.answered (firstRefusal_none hnone).1 (hanswer hkept)

/-! ## The fault state -/

/-- From `s` to `t` the fault and its code are as they were. -/
def KeepsFault (s t : State) : Prop := t.fault = s.fault ∧ t.faultCode = s.faultCode

theorem KeepsFault.refl (s : State) : KeepsFault s s := ⟨rfl, rfl⟩

/-- The host framer and the sequencer do not write the fault. -/
theorem HostEffect.keepsFault {s t : State} (h : HostEffect s t) : KeepsFault s t := by
  obtain ⟨_, _, _, _, _, _, _, _, _, _, _, _, _, _, rfl, _⟩ := h
  exact .refl s

/-- Neither does the slave-role engine. -/
theorem EngineEffect.keepsFault {s t : State} (h : EngineEffect s t) : KeepsFault s t := by
  obtain ⟨_, _, _, _, _, _, _, _, _, _, rfl, _⟩ := h
  exact .refl s

/-- In the fault state a port operation is refused, whichever it is: no other effect is possible. -/
theorem PortEffect.keepsFault {starts stops : Prop} {s t : State} (h : PortEffect starts stops s t)
    (hf : s.fault = true) : KeepsFault s t := by
  cases h with
  | refused => exact .refl s
  | offLine | onLine | contract | start | stop => exact absurd ‹s.fault = false› (by simp [hf])

theorem closeSequence_keepsFault {s t : State} (h : KeepsFault s t) : KeepsFault s (closeSequence t) := by
  rcases closeSequence_cases t with e | e <;> rw [e] <;> exact h

/-- No step but a hardware reset, which counts itself in `epoch`, ends the fault state. -/
theorem step_keepsFault {s t : State} (hf : s.fault = true) (hstep : step s = .next t) :
    KeepsFault s t ∨ t.epoch = s.epoch + 1 := by
  cases step_effect hstep with
  | idle | fam => exact .inl (KeepsFault.refl s)
  | subStep u q _ hu => exact .inl (closeSequence_keepsFault (t := { u with qStep := q }) hu.keepsFault)
  | port w rest i t _ _ _ he => exact .inl (he.keepsFault hf)
  | line t _ he => exact .inl he.keepsFault
  | reset | cut => exact .inr rfl

/-- Settles O14: check 1 refuses every port operation, and a step that is no reset keeps the fault. -/
theorem faultIsSticky : Obligations.FaultIsSticky := by
  refine ⟨fun s fam w i hf h => (exec_guarded h s).fault hf, fun s t hf hstep => ?_⟩
  exact (step_keepsFault hf hstep).imp_left fun ⟨hfault, hcode⟩ => ⟨hfault.trans hf, hcode⟩

end Sys2Proof.Machine
end

section
/-! PROOFS. A hardware reset in the middle of an operation (R350), and the family of a session (R37, R359). -/

namespace Sys2Proof.Machine

/-! ## Hardware reset in the middle of an operation -/

/-- A reset input that names an operation in progress cuts the step of that operation (R350). -/
theorem step_portCut {s : State} {w : PortWord} {events pieces : Nat} {rest : List Input}
    (hq : s.qStep = []) (hi : s.inputs = .portCut w events pieces :: rest) :
    step s = mapNext (cutByReset events pieces { s with inputs := rest })
      (runCode (.port s.fam w) { s with inputs := rest }) := by
  simp only [step, hq, hi]

/-- The cut keeps the events up to it, oldest first. -/
theorem cutByReset_wire (events pieces : Nat) (s t : State) :
    (cutByReset events pieces s t).wire.reverse = s.wire.reverse ++ (newEvents s t).take events := by
  simp [cutByReset, hardwareReset, newEvents]

/-- The answers that the events up to the cut have used are gone. -/
theorem cutByReset_oracle (events pieces : Nat) (s t : State) :
    (cutByReset events pieces s t).oracle =
      s.oracle.drop (answersUsed ((newEvents s t).take events)) := rfl

/-- A cut differs from a reset without the operation in the records and the answers alone. -/
theorem cutByReset_eq_hardwareReset (events pieces : Nat) (s t : State) :
    cutByReset events pieces s t =
      { hardwareReset s with
        wire := (cutByReset events pieces s t).wire
        line := (cutByReset events pieces s t).line
        oracle := (cutByReset events pieces s t).oracle } := rfl

/-- Settles O10: the step runs the operation and cuts it; the reset alone is `hardwareReset`. -/
theorem resetInTheMiddle : Obligations.ResetInTheMiddle := by
  intro s t v w events pieces rest i hq hin hdecode hexec hreset
  have hrst : step { s with inputs := .rst :: rest } = .next (hardwareReset { s with inputs := rest }) :=
    step_rst hq rfl
  obtain rfl : hardwareReset { s with inputs := rest } = v := Host.Outcome.next.inj (hrst.symm.trans hreset)
  have hcut : step s = .next (cutByReset events pieces { s with inputs := rest } t) := by
    rw [step_portCut hq hin, runCode_ok hdecode, hexec]
    rfl
  exact ⟨_, hcut, cutByReset_atReset .., cutByReset_wire .., cutByReset_oracle ..,
    cutByReset_eq_hardwareReset ..⟩

/-! ## The family of a session -/

/-- A change of the `fam` input is stored and does nothing else (R37). -/
theorem step_fam {s : State} {sel : FamSel} {rest : List Input} (hq : s.qStep = [])
    (hi : s.inputs = .fam sel :: rest) : step s = .next { s with inputs := rest, famIn := sel } := by
  simp only [step, hq, hi]

/-- The session goes on from `s` to `t` with the family sampled at its start. -/
def HoldsFam (s t : State) : Prop := t.role = .slave ∧ t.famHeld = s.famHeld ∧ t.fam = s.fam

/-- The family in force is the held one, whatever the input is: the role and the held value are enough. -/
theorem HoldsFam.of_held {s t : State} (hr : s.role = .slave) (ht : t.role = .slave)
    (hheld : t.famHeld = s.famHeld) : HoldsFam s t :=
  ⟨ht, hheld, by rw [State.fam_session ht, State.fam_session hr, hheld]⟩

/-- `EMU.STOP` has one select (R92). -/
theorem decodePort_emuStop {fam : FamSel} {w : PortWord} (h : decodePort fam w = .ok .emuStop) :
    w.opsel = 0x21 := by
  have hread : selectRead fam ≠ .emuStop := by
    unfold selectRead
    split <;> nofun
  have hwriteCopy : selectWriteCopy fam w.t32 ≠ .emuStop := by
    unfold selectWriteCopy
    split <;> nofun
  unfold decodePort at h
  split at h
  case h_25 hop => exact BitVec.eq_of_toNat_eq hop
  all_goals
    simp [withPayload_ne, hread, hwriteCopy] at h

/-- A port operation in a session holds the family, or ends the session (R201). -/
theorem PortEffect.holdsFam {starts stops : Prop} {s t : State} (h : PortEffect starts stops s t)
    (hr : s.role = .slave) : HoldsFam s t ∨ (t.role = .off ∧ stops) := by
  cases h with
  | refused | offLine => exact .inl (.of_held hr hr rfl)
  | onLine _ _ _ _ _ hn => exact absurd hr hn
  | contract _ hn => exact absurd hr hn
  | start _ _ hoff => exact absurd (hr.symm.trans hoff) (by decide)
  | stop hstops => exact .inr ⟨rfl, hstops⟩

/-- In a session no host sequence is running that could end (R335). -/
theorem closeSequence_session {s : State} (h : s.role = .slave) : closeSequence s = s :=
  if_neg fun hhost => absurd (h.symm.trans hhost.1) (by decide)

/-- Settles O36, case by case over what a step can do: the session ends by `EMU.STOP` or by a hardware
reset, which counts itself in `epoch`, and nothing else writes the held family. -/
theorem famHeldInSession : Obligations.FamHeldInSession := by
  refine ⟨fun s sel rest hq hin => ⟨step_fam hq hin, fun hr => ?_, fun hr => State.fam_noSession hr⟩,
    fun s t hr hstep => ?_⟩
  · exact (HoldsFam.of_held (t := { s with inputs := rest, famIn := sel }) hr hr rfl).2.2
  · cases step_effect hstep with
    | idle | fam => exact .inl (HoldsFam.of_held hr hr rfl)
    | subStep u q _ _ hother =>
      obtain rfl : u = s := hother (by simp [hr])
      rw [closeSequence_session (s := { u with qStep := q }) hr]
      exact .inl (HoldsFam.of_held hr hr rfl)
    | port w rest i t _ hin hdecode he =>
      rcases he.holdsFam hr with hkept | ⟨hoff, rfl⟩
      · exact .inl hkept
      · exact .inr (.inl ⟨hoff, w, rest, hin, decodePort_emuStop hdecode⟩)
    | line t _ he =>
      obtain ⟨hrole, hheld, -⟩ := he.fam
      exact .inl (HoldsFam.of_held hr (hrole.trans hr) hheld)
    | reset | cut => exact .inr (.inr ⟨rfl, rfl⟩)

end Sys2Proof.Machine
end

section
/-! PROOFS. The dwell times that the moves of the blank writers add up to (R363, R301 to R304). -/

namespace Sys2Proof.Machine

/-- Without a delay there is no dwell. -/
theorem Undelayed.delayTotal {es : List WireEvent} (h : Undelayed es) : delayTotal es = 0 := by
  induction es with
  | nil => rfl
  | cons e es ih =>
    have hrest : Machine.delayTotal es = 0 := ih fun us hmem => h us (List.mem_cons_of_mem _ hmem)
    cases e with
    | hDelay us => exact absurd List.mem_cons_self (h us)
    | _ => exact hrest

/-! ## RW1990 -/

/-- Eight bits of 5 ms and the byte's 30 ms (R301). -/
theorem delayTotal_rwByteEvents (b : Byte) : delayTotal (rwByteEvents b) = 70000 := by
  simp [rwByteEvents, bitsOf, delayTotal, Config.tRwBit, Config.tRwByte]

/-- Bytes that dwell alike dwell so many times as long. -/
theorem delayTotal_flatMap {f : Byte → List WireEvent} {n : Nat} (hf : ∀ b, delayTotal (f b) = n)
    (data : List Byte) : delayTotal (data.flatMap f) = n * data.length := by
  induction data with
  | nil => rfl
  | cons b data ih =>
    rw [List.flatMap_cons, delayTotal_append, hf, ih, List.length_cons, Nat.mul_succ, Nat.add_comm]

/-- The verify step has no dwell, however it ends (R306). -/
theorem delayTotal_verifyMoves (data : List Byte) (o : List Bool) (regs : List Byte) :
    delayTotal (playMoves (verifyMoves data) o regs).events = 0 := by
  refine (playMoves_undelayed (fun m hm => ?_) o regs).delayTotal
  simp only [verifyMoves, List.mem_cons, List.not_mem_nil, or_false] at hm
  obtain rfl | rfl | rfl := hm
  · exact ⟨nofun, nofun⟩
  · exact ⟨fun es he => Move.say.inj he ▸ undelayed_writeEvents _, nofun⟩
  · exact ⟨nofun, nofun⟩

/-- The unlock step of an RW1990 writer with the command `cmd` (R302, R303). -/
def rwUnlockEvents (cmd : Byte) (bit : Bool) : List WireEvent :=
  writeEvents [cmd] ++ [.hDelay Config.tRwShort, .hWrite bit, .hDelay Config.tRwBit]

/-- Its lock step. -/
def rwLockEvents (cmd : Byte) (bit : Bool) : List WireEvent :=
  writeEvents [cmd] ++ [.hWrite bit, .hDelay Config.tRwLock]

/-- What the two RW1990 writers have in common: the lock and unlock command, the bit that unlocks, and how a
data byte is written differ. -/
def rwWriterMoves (cmd : Byte) (bit : Bool) (f : Byte → List WireEvent) (data : List Byte) : List Move :=
  [.reset, .say (rwUnlockEvents cmd bit), .reset, .say (writeEvents [0xD5] ++ data.flatMap f),
    .say (rwLockEvents cmd !bit)] ++ verifyMoves data

theorem writeV1Moves_eq (data : List Byte) :
    writeV1Moves data = rwWriterMoves 0xD1 false (fun b => rwByteEvents (~~~b)) data := rfl

theorem writeV2Moves_eq (data : List Byte) :
    writeV2Moves data = rwWriterMoves 0x1D true rwByteEvents data := rfl

theorem delayTotal_rwUnlockEvents (cmd : Byte) (bit : Bool) :
    delayTotal (rwUnlockEvents cmd bit) = Config.tRwShort + 5000 := by
  simp [rwUnlockEvents, delayTotal, Config.tRwBit]

theorem delayTotal_rwLockEvents (cmd : Byte) (bit : Bool) : delayTotal (rwLockEvents cmd bit) = 10000 := by
  simp [rwLockEvents, delayTotal, Config.tRwLock]

/-- With the two first resets answered, the writer gets to its verify step. -/
theorem delayTotal_rwWriterMoves {f : Byte → List WireEvent} (hf : ∀ b, delayTotal (f b) = 70000)
    {o : List Bool} (h1 : o.headD false = true) (h2 : (o.drop 1).headD false = true) (cmd : Byte)
    (bit : Bool) (data regs : List Byte) :
    delayTotal (playMoves (rwWriterMoves cmd bit f data) o regs).events =
      15000 + 70000 * data.length + Config.tRwShort := by
  have hsteps : playMoves [.reset, .say (rwUnlockEvents cmd bit), .reset,
      .say (writeEvents [0xD5] ++ data.flatMap f), .say (rwLockEvents cmd !bit)] o regs =
      { ok := true, oracle := (o.drop 1).drop 1, regs := regs
        events := .hReset true :: (rwUnlockEvents cmd bit ++ (.hReset true ::
          (writeEvents [0xD5] ++ data.flatMap f ++ rwLockEvents cmd !bit))) } := by
    simp only [playMoves, playMove, h1, h2, if_true, List.append_nil, List.cons_append, List.nil_append]
  rw [rwWriterMoves, playMoves_append, hsteps]
  simp only [if_true, delayTotal, delayTotal_append, delayTotal_writeEvents, delayTotal_rwUnlockEvents,
    delayTotal_rwLockEvents, delayTotal_flatMap hf, delayTotal_verifyMoves]
  omega

/-! ## TM2004 -/

/-- The exchange of one byte: the pulse and the byte's dwell, whatever is read back (R304). -/
theorem delayTotal_tmByteMoves (b : Byte) (o : List Bool) (regs : List Byte) :
    delayTotal (playMoves (tmByteMoves b) o regs).events = 50600 := by
  have hdwell : Config.tTmPulse + Config.tTmByte = 50600 := rfl
  simp only [tmByteMoves, playMoves, playMove, if_true, apply_ite Play.events, List.append_nil, ite_self]
  simp [delayTotal, hdwell]

/-- Bytes that are all stored take one exchange each. -/
theorem delayTotal_tmBytes {data : List Byte} {o : List Bool} {regs : List Byte}
    (h : (playMoves (data.flatMap tmByteMoves) o regs).ok = true) :
    delayTotal (playMoves (data.flatMap tmByteMoves) o regs).events = 50600 * data.length := by
  induction data generalizing o regs with
  | nil => rfl
  | cons b data ih =>
    rw [List.flatMap_cons] at h ⊢
    obtain ⟨-, hrest, hevents⟩ := playMoves_append_ok h
    rw [hevents, delayTotal_append, delayTotal_tmByteMoves, ih hrest, List.length_cons]
    omega

/-- A TM2004 that stores all bytes has answered the reset; the command has no dwell (R304). -/
theorem delayTotal_writeTm2004Moves {data : List Byte} {o : List Bool} {regs : List Byte}
    (h : (playMoves (writeTm2004Moves data) o regs).ok = true) :
    delayTotal (playMoves (writeTm2004Moves data) o regs).events = 50600 * data.length := by
  have hmoves : writeTm2004Moves data =
      [.reset, .say (writeEvents [0x3C, 0x00, 0x00])] ++ data.flatMap tmByteMoves := rfl
  rw [hmoves] at h ⊢
  obtain ⟨hhead, hbytes, hevents⟩ := playMoves_append_ok h
  have hhead0 : delayTotal
      (playMoves [.reset, .say (writeEvents [0x3C, 0x00, 0x00])] o regs).events = 0 := by
    simp only [playMoves, playMove]
    split <;> simp [delayTotal]
  rw [hevents, delayTotal_append, hhead0, delayTotal_tmBytes hbytes, Nat.zero_add]

/-- Settles O60: the dwells of the writers' steps, added up for eight bytes. -/
theorem dwellTimes : Obligations.DwellTimes := by
  refine ⟨delayTotal_rwByteEvents, fun data o regs hlen => ⟨fun ms hms h1 h2 => ?_, fun hok => ?_⟩⟩
  · simp only [List.mem_cons, List.not_mem_nil, or_false] at hms
    obtain rfl | rfl := hms
    · rw [writeV1Moves_eq, delayTotal_rwWriterMoves (fun b => delayTotal_rwByteEvents (~~~b)) h1 h2, hlen]
    · rw [writeV2Moves_eq, delayTotal_rwWriterMoves delayTotal_rwByteEvents h1 h2, hlen]
  · rw [delayTotal_writeTm2004Moves hok, hlen]

end Sys2Proof.Machine
end
